-- ==== Sys2Proof/Word.lean ====
section
/-! DEFINITION. The word types of the Huffman codec core: one abbreviation per width the spec gives (00_scope R6, R7). -/

namespace Sys2Proof

/-- A byte value, a symbol of the alphabet (00_scope R6, R11). -/
abbrev Byte := BitVec 8

/-- A word of the host bus, and a command word (00_scope R6, 30_encoding R70). -/
abbrev Word := BitVec 32

/-- A node index of the arena, 9 bits (00_scope R6). -/
abbrev NodeIdx := BitVec 9

end Sys2Proof
end

