-- ==== Sys2Proof/Config.lean ====
section
/-! DEFINITION. What an implementation fixes (00_scope R5) and the values the spec leaves free (93, I3, I5, I6). -/

namespace Sys2Proof

/-- The block's two parameters (00_scope R5): the capacities of IN and OUT, in bytes.
They stand in State, so that every statement is about every pair of capacities; which pairs are legal
is `Params.legal` in WellFormed.lean. -/
structure Params where
  inCap  : Nat
  outCap : Nat
  deriving DecidableEq, Repr

/-- The capacities State.reset is written with. DESIGN CHOICE (log entry 1): 00_scope R5 leaves both OPEN; 4096 is
what 95_test_vectors assumes unless a vector says otherwise. -/
def Config.defaultParams : Params := { inCap := 4096, outCap := 4096 }

/-- FREE VALUE (log entry 2). The byte IN[k] holds after the reset number `epoch`, until the host writes it
(70 R181, 93 I3: one draw per byte, stable until written). Arguments: the epoch, the offset k. -/
opaque Config.inReset : Nat → Nat → BitVec 8

/-- FREE VALUE (log entry 3). The byte OUT[k] holds after the reset number `epoch`, until a command writes it
(10 R42, 93 I5). Arguments: the epoch, the offset k. -/
opaque Config.outReset : Nat → Nat → BitVec 8

/-- FREE VALUE (log entry 4). The word a BusRead returns while SEQ = BUSY (70 R191, 93 I6: a fresh draw per read).
Argument: the number of such reads so far. -/
opaque Config.busyRead : Nat → BitVec 32

end Sys2Proof
end

