-- ==== Sys2Proof/Syntax.lean ====
section
/-! DEFINITION. The instruction set: the seven commands of 30_encoding R71, one constructor per row of opcode_table.json. -/

namespace Sys2Proof

/-- A command of the block (30_encoding R71). No command carries an operand in its word (R70, R72): every operand is
the content of a block register or table when the command is accepted, so no constructor has a field. -/
inductive Instr where
  | nop        -- 0x00, 40_control R92
  | softReset  -- 0x01, 40_control R93
  | ftClear    -- 0x02, 40_control R94
  | build      -- 0x10, 41_tree_builder R101
  | codegen    -- 0x11, 42_code_mapper R121
  | pack       -- 0x20, 43_packer R131
  | unpack     -- 0x21, 44_unpacker R141
  deriving DecidableEq, Repr

end Sys2Proof
end

