-- ==== Sys2Proof/WellFormed.lean ====
section
/-! DEFINITION. Which terms are well formed: the command word's reserved field (30_encoding R70) and the parameters
(00_scope R5). An Instr has no operand, so each of its seven values is well formed. -/

namespace Sys2Proof

/-- Every Instr is well formed: no command has a register number, an immediate or a mode bit (30_encoding R70). -/
def Instr.wellFormed : Instr → Bool
  | .nop | .softReset | .ftClear | .build | .codegen | .pack | .unpack => true

/-- The seven legal values of OP (30_encoding R71). -/
def legalOps : List Byte := [0x00, 0x01, 0x02, 0x10, 0x11, 0x20, 0x21]

/-- A word is a legal command word when RSVD = 0 and OP is one of the seven (30_encoding R70, R71, R74). -/
def commandWordLegal (w : Word) : Bool :=
  w.extractLsb' 8 24 == 0 && legalOps.contains (w.extractLsb' 0 8)

/-- A capacity the spec allows: a multiple of 4 in 4..2^24 (00_scope R5). -/
def capacityLegal (n : Nat) : Bool := n % 4 == 0 && 4 ≤ n && n ≤ 2 ^ 24

/-- Both parameters are legal (00_scope R5). -/
def Params.legal (p : Params) : Bool := capacityLegal p.inCap && capacityLegal p.outCap

end Sys2Proof
end

