-- ==== Sys2Proof/Decode.lean ====
section
/-! DEFINITION. Decode of a command word (30_encoding R73), total on all 2^32 words, and the encoder (R71). -/

namespace Sys2Proof

/-- Why a word is ILLEGAL (30_encoding R74). -/
inductive Illegal where
  /-- Some bit of RSVD [31:8] is set. -/
  | reservedBits
  /-- RSVD = 0 and OP is none of the seven opcodes. -/
  | unassignedOp
  deriving DecidableEq, Repr

/-- Field OP, bits [7:0] (30_encoding R70). -/
def opField (w : Word) : Byte := w.extractLsb' 0 8

/-- Field RSVD, bits [31:8] (30_encoding R70). -/
def rsvdField (w : Word) : BitVec 24 := w.extractLsb' 8 24

/-- The opcode map (30_encoding R71). -/
def decodeOp (op : Byte) : Except Illegal Instr :=
  match op.toNat with
  | 0x00 => .ok .nop
  | 0x01 => .ok .softReset
  | 0x02 => .ok .ftClear
  | 0x10 => .ok .build
  | 0x11 => .ok .codegen
  | 0x20 => .ok .pack
  | 0x21 => .ok .unpack
  | _    => .error .unassignedOp

/-- Decode (30_encoding R73): RSVD is tested first, then OP. -/
def decode (w : Word) : Except Illegal Instr :=
  if rsvdField w ≠ 0 then .error .reservedBits else decodeOp (opField w)

/-- The opcode of a command (30_encoding R71). -/
def opcode : Instr → Byte
  | .nop       => 0x00
  | .softReset => 0x01
  | .ftClear   => 0x02
  | .build     => 0x10
  | .codegen   => 0x11
  | .pack      => 0x20
  | .unpack    => 0x21

/-- The command word 0x0000_00OP (30_encoding R71). -/
def encode (i : Instr) : Word := 0#24 ++ opcode i

/-- The command word whose low `nbits` bits are those of `w` and whose other bits are 0. -/
def tableWord (nbits w : Nat) : Word := BitVec.ofNat 32 (w % 2 ^ nbits)

/-- The instruction the decoder reads from an opcode-table word. A command is exactly one 32-bit word (30_encoding R75),
so a longer row decodes to nothing. -/
def decodeTableWord (nbits w : Nat) : Option Instr :=
  if nbits ≤ 32 then (decode (tableWord nbits w)).toOption else none

end Sys2Proof
end

