-- ==== Sys2Proof/Machine/State.lean ====
section
/-! DEFINITION. The state of the Huffman codec core (10_state R20 to R42), of the host beside it (70 R180), and the
state after reset (10_state R42). -/

namespace Sys2Proof.Machine

/-- Node kinds (10_state R22). The value 3 is never written by any rule (93 I18). -/
inductive NodeKind where
  | internal
  | leaf
  | sentinel
  deriving DecidableEq, Repr

/-- An entry of the node arena (10_state R21). -/
structure Node where
  kind   : NodeKind
  sym    : BitVec 8
  weight : BitVec 32
  left   : BitVec 9
  right  : BitVec 9
  deriving DecidableEq, Repr

/-- An arena entry nothing has written. The spec lets a model keep unwritten entries as zero (93 I4): they are never
observable (20_memory R48). -/
def Node.blank : Node := { kind := .internal, sym := 0, weight := 0, left := 0, right := 0 }

/-- An entry of the frequency table (10_state R20). -/
structure FtEntry where
  present : Bool
  count   : BitVec 32
  deriving DecidableEq, Repr

/-- The cleared frequency entry (0, 0). -/
def FtEntry.clear : FtEntry := { present := false, count := 0 }

/-- An entry of the code table (10_state R24). -/
structure CodeEntry where
  valid : Bool
  len   : BitVec 8
  bits  : BitVec 255
  deriving DecidableEq, Repr

/-- The cleared code entry (0, 0, 0). -/
def CodeEntry.clear : CodeEntry := { valid := false, len := 0, bits := 0 }

/-- A table of 2^w entries indexed by a w-bit index. -/
abbrev Table (w : Nat) (α : Type) : Type := Vector α (2 ^ w)

/-- A byte buffer: (offset, byte) pairs, offsets strictly rising. An offset that is not listed has not been written since
the last reset (Memory.read answers none there) and holds a free value. -/
abbrev Memory : Type := List Host.Cell

/-- The sequencer state SEQ (10_state R34). -/
inductive Seq where
  | idle
  | busy
  deriving DecidableEq, Repr

/-- The fields of STATUS (10_state R30). Bits 7 and 31:16 read 0 and hold nothing. -/
structure Status where
  busy       : Bool
  done       : Bool
  err        : Bool
  treeValid  : Bool
  codesValid : Bool
  wbusy      : Bool
  busErr     : Bool
  errCode    : BitVec 8
  deriving DecidableEq, Repr

/-- STATUS after reset (10_state R30, R42). -/
def Status.reset : Status :=
  { busy := false, done := false, err := false, treeValid := false, codesValid := false, wbusy := false,
    busErr := false, errCode := 0 }

/-- The state a command uses internally (10_state R37, R38, R39): the priority structure Q, the packer accumulator ACC,
the unpacker cursor CUR and the output position OPOS. It is empty between commands. -/
structure Hidden where
  q    : List (BitVec 9)
  acc  : List Bool
  cur  : BitVec 9
  opos : Nat
  deriving DecidableEq, Repr

/-- Q, ACC, CUR and OPOS after reset and at the end of every command (10_state R37 to R39, R42). -/
def Hidden.empty : Hidden := { q := [], acc := [], cur := 0, opos := 0 }

/-- What a command's error says went wrong (60_exceptions R160); the codes are in Flags.lean. -/
inductive ErrKind where
  | illegalCmd
  | noTree
  | weightOverflow
  | encoding
  | decodePartial
  | decodeSentinel
  | invalidPadding
  | padExceeds
  | inLenRange
  | outOverflow
  deriving DecidableEq, Repr

/-- One action of the host (30_encoding R76, R77). -/
inductive HostOp where
  /-- `WR addr, data`: one BusWrite (20_memory R65). -/
  | write (addr data : BitVec 32)
  /-- `RD addr -> name`: one BusRead (20_memory R64). The host's names are numbered in the order of its RDs. -/
  | read (addr : BitVec 32)
  /-- `WR addr, name`: one BusWrite of the word the host's RD number n returned (95_test_vectors P4). -/
  | copy (addr : BitVec 32) (n : Nat)
  /-- `POLL`: read STATUS again and again while its bit 0 is 1. -/
  | poll
  /-- `EXPECT addr, value`: one BusRead and a test assertion on what it returns. -/
  | expect (addr value : BitVec 32)
  deriving DecidableEq, Repr

/-- Who moves (70 R180), or that hardware reset is asserted here (70 R183). -/
inductive Turn where
  | host
  | block
  | reset
  deriving DecidableEq, Repr

/-- The host agent and the interleaving (70 R180). The model's own: what the host has still to do, what its RDs
returned (oldest first), whether its run failed (an EXPECT that was not met), and whose turn the next steps are. -/
structure HostSide where
  program : List HostOp
  replies : List (BitVec 32)
  failed  : Bool
  turns   : List Turn
  deriving DecidableEq, Repr

/-- A host with nothing to do. -/
def HostSide.quiet : HostSide := { program := [], replies := [], failed := false, turns := [] }

/-- The whole state: the block's (10_state R42), then the model's own fields. -/
structure State where
  /-- The capacities, read at IN_CAP and OUT_CAP (10_state R28). No step changes them. -/
  params    : Params
  /-- Frequency table FT (10_state R20). -/
  ft        : Table 8 FtEntry
  /-- Node arena NODE (10_state R21). -/
  nodes     : Table 9 Node
  /-- ROOT (10_state R23). -/
  root      : BitVec 9
  /-- NODE_COUNT (10_state R23). -/
  nodeCount : BitVec 10
  /-- Code table CODE (10_state R24). -/
  codes     : Table 8 CodeEntry
  /-- Input buffer IN (10_state R26). -/
  inBuf     : Memory
  /-- IN_LEN (10_state R26). -/
  inLen     : BitVec 32
  /-- PAD_IN (10_state R27). -/
  padIn     : BitVec 8
  /-- Output buffer OUT (10_state R29). -/
  outBuf    : Memory
  /-- OUT_LEN (10_state R29). -/
  outLen    : BitVec 32
  /-- PAD_OUT (10_state R29). -/
  padOut    : BitVec 3
  /-- STATUS (10_state R30). -/
  status    : Status
  /-- ERR_INFO (10_state R31). -/
  errInfo   : BitVec 32
  /-- The command latch CMDL (10_state R32). -/
  cmdl      : BitVec 32
  /-- SEQ (10_state R34). -/
  seq       : Seq
  /-- Q, ACC, CUR, OPOS (10_state R37 to R39). -/
  hidden    : Hidden
  /-- The model's own: how many hardware resets there have been; selects the free contents of IN and OUT. -/
  epoch     : Nat
  /-- The model's own: how many reads while BUSY there have been; selects the free value of the next one. -/
  draws     : Nat
  /-- The host agent and the interleaving. -/
  env       : HostSide
  deriving DecidableEq, Repr

/-- Why the machine stops. The spec stops the block nowhere: errors are completions (60_exceptions R162) and bus faults
are sticky flags (20_memory R54, R55). -/
inductive Fault where
  /-- Raised by CODEGEN alone, when the arena reached from ROOT has a path of more than 255 edges, so that it is no tree:
  Visit (42_code_mapper R121) then does not end, or ends with a path that no 8-bit len can hold. No state that meets
  State.Inv has such an arena (10_state R40, 42_code_mapper R122). Safe: the model stops where the spec gives no
  finite effect. -/
  | arenaNotATree
  deriving DecidableEq, Repr

/-- Why the model gives an instruction no meaning. -/
inductive Refusal where
  /-- Raised by an arm of exec that has no meaning yet; none is left. Safe. -/
  | notModelled (mnemonic : String)
  deriving DecidableEq, Repr

/-- The state after reset of a block with the given parameters (10_state R42). NODE contents are kept blank, which the
spec allows (93 I4); IN and OUT list nothing, so each byte holds a free value (93 I3, I5). -/
def State.resetWith (p : Params) : State :=
  { params := p
    ft := Vector.replicate (2 ^ 8) FtEntry.clear
    nodes := Vector.replicate (2 ^ 9) Node.blank
    root := 0
    nodeCount := 0
    codes := Vector.replicate (2 ^ 8) CodeEntry.clear
    inBuf := []
    inLen := 0
    padIn := 0
    outBuf := []
    outLen := 0
    padOut := 0
    status := Status.reset
    errInfo := 0
    cmdl := 0
    seq := .idle
    hidden := Hidden.empty
    epoch := 0
    draws := 0
    env := HostSide.quiet }

/-- The machine right after its first reset (10_state R42, 70 R181), with the capacities of Config.defaultParams
(DESIGN CHOICE, log entry 1). -/
def State.reset : State := State.resetWith Config.defaultParams

end Sys2Proof.Machine
end

