-- ==== Sys2Proof/Machine/Operands.lean ====
section
/-! DEFINITION. Bit-strings (00_scope R8), table and buffer reads and writes, and what a command reads as its operands
(30_encoding R72). -/

namespace Sys2Proof.Machine

/-! ### Bit-strings (00_scope R8): a list of Bool, first symbol first -/

/-- `bitsOf v n`: the n symbols of v, most significant bit first (00_scope R8). -/
def bitsOf (v : Nat) : Nat → List Bool
  | 0 => []
  | n + 1 => v.testBit n :: bitsOf v n

/-- `valOf s`: the integer whose |s|-bit binary spelling is s (00_scope R8). -/
def valOf : List Bool → Nat
  | [] => 0
  | b :: s => b.toNat * 2 ^ s.length + valOf s

/-! ### Tables -/

/-- The entry at an index. -/
def Table.read {w : Nat} {α : Type} (t : Table w α) (i : BitVec w) : α := t[i.toNat]'i.isLt

/-- The table with one entry replaced. -/
def Table.write {w : Nat} {α : Type} (t : Table w α) (i : BitVec w) (x : α) : Table w α := t.set i.toNat x i.isLt

/-- The table with every entry the same: `for b in 0..255: T[b] <- x`. -/
def Table.fill (w : Nat) {α : Type} (x : α) : Table w α := Vector.replicate (2 ^ w) x

/-! ### Byte buffers -/

/-- The form every buffer has: offsets strictly rising. An unlisted offset reads as none, and no listed one does, so no
entry equals what an unlisted offset reads as. -/
abbrev Memory.wf (m : Memory) : Prop := m.Pairwise (fun x y => x.1 < y.1)

/-- The byte at an offset, none where nothing has been written since reset. -/
def Memory.read : Memory → Nat → Option Byte
  | [], _ => none
  | c :: m, k => if c.1 = k then some c.2 else Memory.read m k

/-- The buffer with one byte written. -/
def Memory.write : Memory → Nat → Byte → Memory
  | [], k, b => [(k, b)]
  | c :: m, k, b =>
    if k < c.1 then (k, b) :: c :: m
    else if k = c.1 then (k, b) :: m
    else c :: Memory.write m k b

/-- IN[k] (10_state R26): the byte last written, or the free value it holds since reset (70 R181). -/
def inByte (s : State) (k : Nat) : Byte := (Memory.read s.inBuf k).getD (Config.inReset s.epoch k)

/-- OUT[k] (10_state R29): the byte last written, or the free value it holds since reset (93 I5). -/
def outByte (s : State) (k : Nat) : Byte := (Memory.read s.outBuf k).getD (Config.outReset s.epoch k)

/-! ### Operands of the commands (30_encoding R72) -/

/-- The byte values 0..255 in ascending order. -/
def allBytes : List Byte := (List.range 256).map (BitVec.ofNat 8)

/-- BUILD's operand S: the present byte values in ascending order (41_tree_builder R103). -/
def presentSet (s : State) : List Byte := allBytes.filter fun b => (Table.read s.ft b).present

/-- PACK's operand: the bytes IN[0..IN_LEN-1] (43_packer R131). -/
def inputBytes (s : State) : List Byte := (List.range s.inLen.toNat).map (inByte s)

/-- Bit k of the packed input, bit (7 - k mod 8) of IN[k div 8] (20_memory R53, 44_unpacker R143). -/
def inBit (s : State) (k : Nat) : Bool := (inByte s (k / 8)).getLsbD (7 - k % 8)

/-- T, the number of data bits of UNPACK's input (44_unpacker R143). -/
def dataLen (s : State) : Nat := 8 * s.inLen.toNat - s.padIn.toNat

/-- UNPACK's operand: bits 0..T-1 of the packed input (44_unpacker R143). -/
def dataBits (s : State) : List Bool := (List.range (dataLen s)).map (inBit s)

/-- The code a code-table entry stands for, bitsOf(bits, len) (10_state R24). -/
def codeBits (c : CodeEntry) : List Bool := bitsOf c.bits.toNat c.len.toNat

end Sys2Proof.Machine
end

