-- ==== Sys2Proof/Machine/Flags.lean ====
section
/-! DEFINITION. STATUS (10_state R30): its word, the error codes (60_exceptions R160), and what acceptance, completion
and a write do to its fields (40_control R90, 60_exceptions R161, R162, 20_memory R65). -/

namespace Sys2Proof.Machine

/-- The error codes (60_exceptions R160). -/
def ErrKind.code : ErrKind → BitVec 8
  | .illegalCmd     => 1
  | .noTree         => 2
  | .weightOverflow => 3
  | .encoding       => 4
  | .decodePartial  => 5
  | .decodeSentinel => 6
  | .invalidPadding => 7
  | .padExceeds     => 8
  | .inLenRange     => 9
  | .outOverflow    => 10

/-- The word STATUS reads as (10_state R30). -/
def statusWord (st : Status) : Word :=
  0#16 ++ st.errCode ++ 0#1 ++ BitVec.ofBool st.busErr ++ BitVec.ofBool st.wbusy ++ BitVec.ofBool st.codesValid
    ++ BitVec.ofBool st.treeValid ++ BitVec.ofBool st.err ++ BitVec.ofBool st.done ++ BitVec.ofBool st.busy

/-- STATUS at acceptance (40_control R90). -/
def Status.accept (st : Status) : Status := { st with busy := true, done := false, err := false, errCode := 0 }

/-- STATUS at a successful completion (60_exceptions R161). -/
def Status.complete (st : Status) : Status := { st with busy := false, done := true, err := false, errCode := 0 }

/-- STATUS at an error completion (60_exceptions R162). -/
def Status.fail (e : ErrKind) (st : Status) : Status :=
  { st with busy := false, done := true, err := true, errCode := e.code }

/-- A bus write to STATUS: write-one-to-clear of WBUSY (bit 5) and BUSERR (bit 6), nothing else (10_state R30). -/
def Status.writeOneToClear (data : Word) (st : Status) : Status :=
  { st with wbusy := st.wbusy && !data.getLsbD 5, busErr := st.busErr && !data.getLsbD 6 }

end Sys2Proof.Machine
end

