-- ==== Sys2Proof/Machine/Ops.lean ====
section
/-! DEFINITION. The operations the commands share: how a command's pseudocode ends (complete, raise: 60_exceptions R161,
R162), command acceptance (40_control R90), clearing the tables, the datapath of PACK and UNPACK, hardware reset. -/

namespace Sys2Proof.Machine

/-! ### Pseudocode that may raise (00_scope R9) -/

/-- How a piece of pseudocode ends: it ran to its end, or it raised an error with an information value. In both cases
the writes made so far stand (60_exceptions R162). -/
inductive Halt (σ : Type) where
  | done (s : σ)
  | raised (e : ErrKind) (info : Nat) (s : σ)
  deriving DecidableEq, Repr

/-- Run the rest of the pseudocode unless it raised. -/
def Halt.bind {σ : Type} (h : Halt σ) (f : σ → Halt σ) : Halt σ :=
  match h with
  | .done s => f s
  | .raised e info s => .raised e info s

/-- The same ending, seen in a larger state. -/
def Halt.lift {σ τ : Type} (f : σ → τ) (h : Halt σ) : Halt τ :=
  match h with
  | .done s => .done (f s)
  | .raised e info s => .raised e info (f s)

/-- What was written so far, however it ended. -/
def Halt.state {σ : Type} : Halt σ → σ
  | .done s => s
  | .raised _ _ s => s

/-! ### Completion -/

/-- `complete()` (60_exceptions R161); Q, ACC, CUR and OPOS are discarded (10_state R37 to R39). -/
def complete (s : State) : State :=
  { s with status := s.status.complete, errInfo := 0, seq := .idle, hidden := Hidden.empty }

/-- The commands whose error completion clears OUT_LEN and PAD_OUT (60_exceptions R162, R163). -/
def clearsOutput : Option Instr → Bool
  | some .pack | some .unpack => true
  | some .nop | some .softReset | some .ftClear | some .build | some .codegen | none => false

/-- `raise E(info)`, the block's taking of an exception (60_exceptions R162, R166). It saves no program counter and
changes no mode: it records the error in STATUS and ERR_INFO and goes to SEQ = IDLE. `running` is the command that
raises, none for an illegal word. -/
def raiseError (running : Option Instr) (e : ErrKind) (info : Nat) (s : State) : State :=
  { s with
    outLen := if clearsOutput running then 0 else s.outLen
    padOut := if clearsOutput running then 0 else s.padOut
    status := s.status.fail e
    errInfo := BitVec.ofNat 32 info
    seq := .idle
    hidden := Hidden.empty }

/-- The end of a command's pseudocode: complete() or raise (40_control R91). There is no return from an error
(60_exceptions R167): the report stays until the next acceptance or reset. -/
def finish (running : Instr) (h : Halt State) : State :=
  match h with
  | .done s => complete s
  | .raised e info s => raiseError (some running) e info s

/-! ### Acceptance and reset -/

/-- AcceptCommand (40_control R90). -/
def acceptCommand (w : Word) (s : State) : State :=
  { s with cmdl := w, status := s.status.accept, errInfo := 0, seq := .busy }

/-- Hardware reset (70 R181, R183): every piece of state takes its value after reset, whatever was running. The
parameters and the host stay; the contents of IN and OUT are new free values. -/
def hardReset (s : State) : State :=
  { State.resetWith s.params with epoch := s.epoch + 1, draws := s.draws, env := s.env }

/-! ### Tables -/

/-- `for b in 0..255: FT[b].present <- 0; FT[b].count <- 0` (40_control R93, R94). -/
def clearFt (s : State) : State := { s with ft := Table.fill 8 FtEntry.clear }

/-- `for b in 0..255: CODE[b] <- (0, 0, 0)` (40_control R93, 41_tree_builder R102, 42_code_mapper R121). -/
def clearCodes (s : State) : State := { s with codes := Table.fill 8 CodeEntry.clear }

/-- The tree registers without a tree: ROOT, NODE_COUNT, TREE_VALID and CODES_VALID all 0 (10_state R23, R25). -/
def dropTree (s : State) : State :=
  { s with root := 0, nodeCount := 0, status := { s.status with treeValid := false, codesValid := false } }

/-- BUILD's first step: no code and no tree of an earlier BUILD remains (41_tree_builder R102). -/
def invalidate (s : State) : State := dropTree (clearCodes s)

/-! ### The datapath of PACK and UNPACK -/

/-- What the loops of PACK and UNPACK write: the hidden registers and OUT. -/
structure Datapath where
  hidden : Hidden
  out    : Memory
  deriving DecidableEq, Repr

/-- The datapath of a state. -/
def State.datapath (s : State) : Datapath := { hidden := s.hidden, out := s.outBuf }

/-- The state with its datapath replaced. -/
def State.withDatapath (s : State) (d : Datapath) : State := { s with hidden := d.hidden, outBuf := d.out }

/-- Write one output byte: `if OPOS == OUT_CAP: raise OUT_OVERFLOW(info)`, else `OUT[OPOS] <- b; OPOS <- OPOS + 1`
(43_packer R131, 44_unpacker R141). -/
def emitByte (cap info : Nat) (b : Byte) (d : Datapath) : Halt Datapath :=
  if d.hidden.opos = cap then .raised .outOverflow info d
  else .done { hidden := { d.hidden with opos := d.hidden.opos + 1 }, out := Memory.write d.out d.hidden.opos b }

end Sys2Proof.Machine
end

