-- ==== Sys2Proof/Machine/Bus.lean ====
section
/-! DEFINITION. The host bus: the address map (20_memory R46), what each location reads as (10_state R30 to R33,
20_memory R47 to R51), BusRead (R64) and BusWrite (R65). -/

namespace Sys2Proof.Machine

/-- A mapped location (20_memory R46). A window word carries its entry and its word number; a buffer word carries the
offset of its first byte. -/
inductive Loc where
  | cmd
  | status
  | errInfo
  | inLen
  | padIn
  | outLen
  | padOut
  | treeInfo
  | inCap
  | outCap
  | ftCount (b : BitVec 8)
  | ftPresent (b : BitVec 8)
  | node (i : BitVec 9) (w : BitVec 2)
  | code (b : BitVec 8) (w : BitVec 4)
  | inWord (off : Nat)
  | outWord (off : Nat)
  deriving DecidableEq, Repr

/-- The registers (20_memory R46). -/
def locateRegister (n : Nat) : Option Loc :=
  match n with
  | 0x00 => some .cmd
  | 0x04 => some .status
  | 0x08 => some .errInfo
  | 0x0C => some .inLen
  | 0x10 => some .padIn
  | 0x14 => some .outLen
  | 0x18 => some .padOut
  | 0x1C => some .treeInfo
  | 0x20 => some .inCap
  | 0x24 => some .outCap
  | _ => none

/-- A word of the FT window, at byte offset o of the window (20_memory R47). -/
def locateFt (o : Nat) : Loc :=
  if o % 8 = 0 then .ftCount (BitVec.ofNat 8 (o / 8)) else .ftPresent (BitVec.ofNat 8 (o / 8))

/-- The location at a 4-aligned address, none where nothing is mapped (20_memory R46, R55). -/
def locate (p : Params) (addr : Word) : Option Loc :=
  let n := addr.toNat
  if n < 0x800 then locateRegister n
  else if n < 0x1000 then some (locateFt (n - 0x800))
  else if n < 0x2000 then none
  else if n < 0x4000 then some (.node (BitVec.ofNat 9 ((n - 0x2000) / 16)) (BitVec.ofNat 2 ((n - 0x2000) / 4 % 4)))
  else if n < 0x8000 then some (.code (BitVec.ofNat 8 ((n - 0x4000) / 64)) (BitVec.ofNat 4 ((n - 0x4000) / 4 % 16)))
  else if n < 0x1000000 then none
  else if n < 0x1000000 + p.inCap then some (.inWord (n - 0x1000000))
  else if n < 0x2000000 then none
  else if n < 0x2000000 + p.outCap then some (.outWord (n - 0x2000000))
  else none

/-- addr[1:0] = 0 (20_memory R54). -/
def aligned (addr : Word) : Bool := addr.extractLsb' 0 2 == 0

/-- The locations a write to is an error (20_memory R58). -/
def Loc.readOnly : Loc → Bool
  | .errInfo | .outLen | .padOut | .treeInfo | .inCap | .outCap | .node _ _ | .code _ _ | .outWord _ => true
  | .cmd | .status | .inLen | .padIn | .ftCount _ | .ftPresent _ | .inWord _ => false

/-- The locations whose reads are defined in every sequencer state (20_memory R64). -/
def Loc.readableWhileBusy : Loc → Bool
  | .cmd | .status | .inCap | .outCap => true
  | .errInfo | .inLen | .padIn | .outLen | .padOut | .treeInfo | .ftCount _ | .ftPresent _ | .node _ _ | .code _ _
  | .inWord _ | .outWord _ => false

/-- The kind field of the NODE window (10_state R22). -/
def NodeKind.code : NodeKind → BitVec 2
  | .internal => 0
  | .leaf     => 1
  | .sentinel => 2

/-- Word w of NODE[i] in the NODE window (20_memory R48). -/
def nodeWord (s : State) (i : NodeIdx) (w : BitVec 2) : Word :=
  let n := Table.read s.nodes i
  if s.nodeCount.toNat ≤ i.toNat then 0
  else match w.toNat with
    | 0 => 0#16 ++ n.sym ++ 0#6 ++ n.kind.code
    | 1 => n.weight
    | 2 => 0#7 ++ n.right ++ 0#7 ++ n.left
    | _ => 0

/-- Word w of CODE[b] in the CODE window (20_memory R49). -/
def codeWord (s : State) (b : Byte) (w : BitVec 4) : Word :=
  let c := Table.read s.codes b
  if w.toNat = 0 then 0#23 ++ BitVec.ofBool c.valid ++ c.len
  else if w.toNat ≤ 8 then c.bits.extractLsb' (32 * (w.toNat - 1)) 32
  else 0

/-- A bus word of four bytes, the byte at the lowest offset in bits 7:0 (20_memory R52). -/
def laneWord (b₀ b₁ b₂ b₃ : Byte) : Word := b₃ ++ b₂ ++ b₁ ++ b₀

/-- The byte of a bus word that lane j carries (20_memory R52). -/
def laneByte (data : Word) (j : Nat) : Byte := data.extractLsb' (8 * j) 8

/-- The word of the IN window at offset off (20_memory R50). -/
def inWordAt (s : State) (off : Nat) : Word :=
  laneWord (inByte s off) (inByte s (off + 1)) (inByte s (off + 2)) (inByte s (off + 3))

/-- OUT[k] as the window shows it: 0 from OUT_LEN on (20_memory R51). -/
def outVisible (s : State) (k : Nat) : Byte := if s.outLen.toNat ≤ k then 0 else outByte s k

/-- The word of the OUT window at offset off (20_memory R51). -/
def outWordAt (s : State) (off : Nat) : Word :=
  laneWord (outVisible s off) (outVisible s (off + 1)) (outVisible s (off + 2)) (outVisible s (off + 3))

/-- TREE_INFO (10_state R33). -/
def treeInfoWord (s : State) : Word := 0#6 ++ s.nodeCount ++ 0#7 ++ s.root

/-- The value of a location while the block is idle (10_state R26 to R33, 20_memory R47 to R51). -/
def locValue (s : State) : Loc → Word
  | .cmd          => 0
  | .status       => statusWord s.status
  | .errInfo      => s.errInfo
  | .inLen        => s.inLen
  | .padIn        => s.padIn.zeroExtend 32
  | .outLen       => s.outLen
  | .padOut       => s.padOut.zeroExtend 32
  | .treeInfo     => treeInfoWord s
  | .inCap        => BitVec.ofNat 32 s.params.inCap
  | .outCap       => BitVec.ofNat 32 s.params.outCap
  | .ftCount b    => (Table.read s.ft b).count
  | .ftPresent b  => (BitVec.ofBool (Table.read s.ft b).present).zeroExtend 32
  | .node i w     => nodeWord s i w
  | .code b w     => codeWord s b w
  | .inWord off   => inWordAt s off
  | .outWord off  => outWordAt s off

/-- STATUS.BUSERR <- 1 (20_memory R54, R55, R58). -/
def setBusErr (s : State) : State := { s with status := { s.status with busErr := true } }

/-- STATUS.WBUSY <- 1 (70 R190). -/
def setWbusy (s : State) : State := { s with status := { s.status with wbusy := true } }

/-- BusRead (20_memory R64): the word returned and the state after. -/
def busRead (addr : Word) (s : State) : Word × State :=
  if !aligned addr then (0, setBusErr s)
  else match locate s.params addr with
    | none => (0, setBusErr s)
    | some l =>
      if l.readableWhileBusy || s.seq == .idle then (locValue s l, s)
      else (Config.busyRead s.draws, { s with draws := s.draws + 1 })

/-- `IN[off..off+3] <- data` (20_memory R50). -/
def writeInWord (off : Nat) (data : Word) (s : State) : State :=
  let m := Memory.write s.inBuf off (laneByte data 0)
  let m := Memory.write m (off + 1) (laneByte data 1)
  let m := Memory.write m (off + 2) (laneByte data 2)
  { s with inBuf := Memory.write m (off + 3) (laneByte data 3) }

/-- `FT[b].count <- data` (20_memory R47). -/
def writeFtCount (b : Byte) (data : Word) (s : State) : State :=
  { s with ft := Table.write s.ft b { Table.read s.ft b with count := data } }

/-- `FT[b].present <- data[0]` (20_memory R47). -/
def writeFtPresent (b : Byte) (data : Word) (s : State) : State :=
  { s with ft := Table.write s.ft b { Table.read s.ft b with present := data.getLsbD 0 } }

/-- What an accepted write to a writable location does (20_memory R65, the last case). -/
def storeAt (l : Loc) (data : Word) (s : State) : State :=
  match l with
  | .cmd         => acceptCommand data s
  | .inLen       => { s with inLen := data }
  | .padIn       => { s with padIn := data.extractLsb' 0 8 }
  | .ftCount b   => writeFtCount b data s
  | .ftPresent b => writeFtPresent b data s
  | .inWord off  => writeInWord off data s
  | .status | .errInfo | .outLen | .padOut | .treeInfo | .inCap | .outCap | .node _ _ | .code _ _ | .outWord _ => s

/-- BusWrite (20_memory R65). -/
def busWrite (addr data : Word) (s : State) : State :=
  if !aligned addr then setBusErr s
  else match locate s.params addr with
    | none => setBusErr s
    | some l =>
      if l = .status then { s with status := s.status.writeOneToClear data }
      else if l.readOnly then setBusErr s
      else if s.seq = .busy then setWbusy s
      else storeAt l data s

end Sys2Proof.Machine
end

