-- ==== Sys2Proof/Machine/Control.lean ====
section
/-! DEFINITION. The housekeeping commands and the illegal word (40_control R92 to R95). -/

namespace Sys2Proof.Machine

/-- The type every meaning answers in. -/
abbrev Result : Type := Host.Outcome State Fault Refusal

/-- ExecNOP (40_control R92). -/
def execNop (s : State) : Result := .next (finish .nop (.done s))

/-- The body of SOFT_RESET (40_control R93). -/
def softResetBody (s : State) : State :=
  let s := dropTree (clearCodes (clearFt s))
  { s with
    inLen := 0, padIn := 0, outLen := 0, padOut := 0
    status := { s.status with wbusy := false, busErr := false } }

/-- ExecSOFT_RESET (40_control R93). -/
def execSoftReset (s : State) : Result := .next (finish .softReset (.done (softResetBody s)))

/-- ExecFT_CLEAR (40_control R94). -/
def execFtClear (s : State) : Result := .next (finish .ftClear (.done (clearFt s)))

/-- ExecILLEGAL (40_control R95): `raise ILLEGAL_CMD(CMDL)`. -/
def execIllegal (s : State) : Result := .next (raiseError none .illegalCmd s.cmdl.toNat s)

end Sys2Proof.Machine
end

