-- ==== Sys2Proof/Machine/CodeMapper.lean ====
section
/-! DEFINITION. CODEGEN (42_code_mapper R120 to R129). -/

namespace Sys2Proof.Machine

/-- `(valid 1, len |p|, bits valOf(p))` (42_code_mapper R121). -/
def codeEntryOf (p : List Bool) : CodeEntry :=
  { valid := true, len := BitVec.ofNat 8 p.length, bits := BitVec.ofNat 255 (valOf p) }

/-- Visit(i, p) (42_code_mapper R121), in the order of the pseudocode, with the number of levels left. None when a path
goes deeper than that: started with 256 levels, a path of more than 255 edges (R122), which no tree has. -/
def visit (nodes : Table 9 Node) : Nat → NodeIdx → List Bool → Table 8 CodeEntry → Option (Table 8 CodeEntry)
  | 0, _, _, _ => none
  | levels + 1, i, p, codes =>
    match (Table.read nodes i).kind with
    | .internal =>
      match visit nodes levels (Table.read nodes i).left (p ++ [false]) codes with
      | none => none
      | some codes' => visit nodes levels (Table.read nodes i).right (p ++ [true]) codes'
    | .leaf => some (Table.write codes (Table.read nodes i).sym (codeEntryOf p))
    | .sentinel => some codes

/-- The code table CODEGEN derives from the tree at `root`: a root that is a leaf gets the code `0`
(42_code_mapper R124), any other is visited. -/
def deriveCodes (nodes : Table 9 Node) (root : NodeIdx) : Option (Table 8 CodeEntry) :=
  let empty := Table.fill 8 CodeEntry.clear
  match (Table.read nodes root).kind with
  | .leaf => some (Table.write empty (Table.read nodes root).sym (codeEntryOf [false]))
  | .internal | .sentinel => visit nodes 256 root [] empty

/-- The state with a code table CODEGEN derived. -/
def publishCodes (codes : Table 8 CodeEntry) (s : State) : State :=
  { s with codes := codes, status := { s.status with codesValid := true } }

/-- ExecCODEGEN (42_code_mapper R121, R125). -/
def execCodegen (s : State) : Result :=
  if s.status.treeValid then
    match deriveCodes s.nodes s.root with
    | some codes => .next (finish .codegen (.done (publishCodes codes s)))
    | none => .fault .arenaNotATree
  else .next (finish .codegen (.raised .noTree 0 s))

end Sys2Proof.Machine
end

