-- ==== Sys2Proof/Machine/Packer.lean ====
section
/-! DEFINITION. PACK (43_packer R130 to R139). -/

namespace Sys2Proof.Machine

/-- `while |ACC| >= 8: …` (43_packer R131): write the first eight symbols of ACC as one byte and drop them. Each round
takes eight symbols, so |ACC| / 8 rounds are enough. `i` is the input offset an overflow reports (R135). -/
def drainAcc (cap i : Nat) : Nat → Datapath → Halt Datapath
  | 0, d => .done d
  | fuel + 1, d =>
    if 8 ≤ d.hidden.acc.length then
      (emitByte cap i (BitVec.ofNat 8 (valOf (d.hidden.acc.take 8))) d).bind fun d' =>
        drainAcc cap i fuel { d' with hidden := { d'.hidden with acc := d'.hidden.acc.drop 8 } }
    else .done d

/-- `ACC <- ACC · bitsOf(CODE[b].bits, CODE[b].len)` (43_packer R131, R132). -/
def appendCode (c : CodeEntry) (d : Datapath) : Datapath :=
  { d with hidden := { d.hidden with acc := d.hidden.acc ++ codeBits c } }

/-- `for i in 0..IN_LEN-1: …` (43_packer R131), from input offset i on. -/
def packLoop (codes : Table 8 CodeEntry) (cap : Nat) : Nat → List Byte → Datapath → Halt Datapath
  | _, [], d => .done d
  | i, b :: bs, d =>
    if (Table.read codes b).valid then
      let d₁ := appendCode (Table.read codes b) d
      (drainAcc cap i (d₁.hidden.acc.length / 8) d₁).bind (packLoop codes cap (i + 1) bs)
    else .raised .encoding i d

/-- p, the number of padding bits when `n` symbols are left in ACC (43_packer R131, R133). -/
def padBits (n : Nat) : Nat := if n = 0 then 0 else 8 - n

/-- The final padded byte, if ACC is not empty (43_packer R131, R133); an overflow reports IN_LEN (R135). -/
def packFlush (cap inLen : Nat) (d : Datapath) : Halt Datapath :=
  if d.hidden.acc = [] then .done d
  else
    emitByte cap inLen
      (BitVec.ofNat 8 (valOf (d.hidden.acc ++ List.replicate (padBits d.hidden.acc.length) false))) d

/-- `ACC <- ε; OPOS <- 0` (43_packer R131). -/
def packStart (s : State) : Datapath := { s.datapath with hidden := { s.hidden with acc := [], opos := 0 } }

/-- `OUT_LEN <- OPOS; PAD_OUT <- p` (43_packer R131). -/
def publishPacked (pad : Nat) (s : State) : State :=
  { s with outLen := BitVec.ofNat 32 s.hidden.opos, padOut := BitVec.ofNat 3 pad }

/-- The body of PACK (43_packer R131). -/
def packBody (s : State) : Halt State :=
  if s.params.inCap < s.inLen.toNat then .raised .inLenRange s.inLen.toNat s
  else
    match packLoop s.codes s.params.outCap 0 (inputBytes s) (packStart s) with
    | .raised e info d => .raised e info (s.withDatapath d)
    | .done d =>
      match packFlush s.params.outCap s.inLen.toNat d with
      | .raised e info d' => .raised e info (s.withDatapath d')
      | .done d' => .done (publishPacked (padBits d.hidden.acc.length) (s.withDatapath d'))

/-- ExecPACK (43_packer R131). -/
def execPack (s : State) : Result := .next (finish .pack (packBody s))

end Sys2Proof.Machine
end

