-- ==== Sys2Proof/Machine/TreeBuilder.lean ====
section
/-! DEFINITION. BUILD (41_tree_builder R100 to R113). -/

namespace Sys2Proof.Machine

/-- `LEAF(s, w)` (41_tree_builder R101). -/
def leafNode (sym : Byte) (w : Word) : Node := { kind := .leaf, sym := sym, weight := w, left := 0, right := 0 }

/-- `SENTINEL` (41_tree_builder R101). -/
def sentinelNode : Node := { kind := .sentinel, sym := 0, weight := 0, left := 0, right := 0 }

/-- `INTERNAL(l, r, w)` (41_tree_builder R101). -/
def internalNode (l r : NodeIdx) (w : Word) : Node := { kind := .internal, sym := 0, weight := w, left := l, right := r }

/-- NODE[i].weight as an unsigned integer. -/
def nodeWeight (nodes : Table 9 Node) (i : NodeIdx) : Nat := (Table.read nodes i).weight.toNat

/-- The key order (41_tree_builder R107): the pair (weight, index), lexicographically. -/
def keyLess (nodes : Table 9 Node) (i j : NodeIdx) : Bool :=
  nodeWeight nodes i < nodeWeight nodes j || (nodeWeight nodes i == nodeWeight nodes j && i.toNat < j.toNat)

/-- KeyMin(Q) (41_tree_builder R107), none when Q is empty. -/
def keyMin (nodes : Table 9 Node) : List NodeIdx → Option NodeIdx
  | [] => none
  | i :: q =>
    match keyMin nodes q with
    | none => some i
    | some j => if keyLess nodes i j then some i else some j

/-- `a <- KeyMin(Q); Q <- Q \ {a}` (41_tree_builder R101). -/
def extractMin (nodes : Table 9 Node) (q : List NodeIdx) : Option (NodeIdx × List NodeIdx) :=
  (keyMin nodes q).map fun a => (a, q.erase a)

/-- What the merge loop works on: the arena, Q, and `next`, the index of the next node. -/
structure Builder where
  nodes : Table 9 Node
  q     : List NodeIdx
  next  : Nat
  deriving DecidableEq, Repr

/-- `for k in 0..n-1: NODE[k] <- LEAF(S[k], FT[S[k]].count)` (41_tree_builder R106), from index k on. -/
def createLeaves (ft : Table 8 FtEntry) : Nat → List Byte → Table 9 Node → Table 9 Node
  | _, [], nodes => nodes
  | k, b :: bs, nodes =>
    createLeaves ft (k + 1) bs (Table.write nodes (BitVec.ofNat 9 k) (leafNode b (Table.read ft b).count))

/-- The merge of the two nodes a (left) and c (right) just taken out of Q (41_tree_builder R108, R110). -/
def mergeNodes (b : Builder) (a c : NodeIdx) (q : List NodeIdx) : Halt Builder :=
  let sum := nodeWeight b.nodes a + nodeWeight b.nodes c
  if sum > 0xFFFFFFFF then .raised .weightOverflow b.next { b with q := q }
  else
    .done
      { nodes := Table.write b.nodes (BitVec.ofNat 9 b.next) (internalNode a c (BitVec.ofNat 32 sum))
        q := BitVec.ofNat 9 b.next :: q
        next := b.next + 1 }

/-- `while |Q| >= 2` (41_tree_builder R101, R108). Each merge takes one node from |Q|, so |Q| rounds are enough (R109). -/
def mergeLoop : Nat → Builder → Halt Builder
  | 0, b => .done b
  | fuel + 1, b =>
    match extractMin b.nodes b.q with
    | none => .done b
    | some (a, q₁) =>
      match extractMin b.nodes q₁ with
      | none => .done b
      | some (c, q₂) => (mergeNodes b a c q₂).bind (mergeLoop fuel)

/-- The tree of one present byte (41_tree_builder R105). -/
def buildSingle (b : Byte) (s : State) : State :=
  let w := (Table.read s.ft b).count
  { s with
    nodes := Table.write (Table.write (Table.write s.nodes 0 (leafNode b w)) 1 sentinelNode) 2 (internalNode 0 1 w)
    root := 2
    nodeCount := 3
    status := { s.status with treeValid := true } }

/-- The builder with the leaves of `S` created and all of them in Q (41_tree_builder R106). -/
def initialBuilder (present : List Byte) (s : State) : Builder :=
  { nodes := createLeaves s.ft 0 present s.nodes
    q := (List.range present.length).map (BitVec.ofNat 9)
    next := present.length }

/-- The state that holds the builder's arena and Q. -/
def withBuilder (s : State) (b : Builder) : State :=
  { s with nodes := b.nodes, hidden := { s.hidden with q := b.q } }

/-- `ROOT <- next - 1; NODE_COUNT <- next; STATUS.TREE_VALID <- 1` (41_tree_builder R101, R109). -/
def publishTree (next : Nat) (s : State) : State :=
  { s with
    root := BitVec.ofNat 9 (next - 1)
    nodeCount := BitVec.ofNat 10 next
    status := { s.status with treeValid := true } }

/-- The tree of two or more present bytes (41_tree_builder R106 to R110). -/
def buildMany (present : List Byte) (s : State) : Halt State :=
  match mergeLoop present.length (initialBuilder present s) with
  | .raised e info b => .raised e info (withBuilder s b)
  | .done b => .done (publishTree b.next (withBuilder s b))

/-- The body of BUILD (41_tree_builder R101). -/
def buildBody (s : State) : Halt State :=
  let s' := invalidate s
  match presentSet s' with
  | [] => .done s'
  | [b] => .done (buildSingle b s')
  | present => buildMany present s'

/-- ExecBUILD (41_tree_builder R101). -/
def execBuild (s : State) : Result := .next (finish .build (buildBody s))

end Sys2Proof.Machine
end

