-- ==== Sys2Proof/Machine/Unpacker.lean ====
section
/-! DEFINITION. UNPACK (44_unpacker R140 to R153). -/

namespace Sys2Proof.Machine

/-- The walk step (44_unpacker R144): left on 0, right on 1. -/
def childOn (nodes : Table 9 Node) (i : NodeIdx) (bit : Bool) : NodeIdx :=
  if bit then (Table.read nodes i).right else (Table.read nodes i).left

/-- CUR replaced. -/
def Datapath.at (d : Datapath) (cur : NodeIdx) : Datapath := { d with hidden := { d.hidden with cur := cur } }

/-- `for k in 0..T-1: …` (44_unpacker R141, R144 to R146, R148), from bit k on. -/
def walkLoop (nodes : Table 9 Node) (root : NodeIdx) (cap : Nat) : Nat → List Bool → Datapath → Halt Datapath
  | _, [], d => .done d
  | k, bit :: bits, d =>
    let cur := childOn nodes d.hidden.cur bit
    match (Table.read nodes cur).kind with
    | .sentinel => .raised .decodeSentinel k (d.at cur)
    | .leaf =>
      (emitByte cap k (Table.read nodes cur).sym (d.at cur)).bind fun d' =>
        walkLoop nodes root cap (k + 1) bits (d'.at root)
    | .internal => walkLoop nodes root cap (k + 1) bits (d.at cur)

/-- `CUR <- ROOT; OPOS <- 0` (44_unpacker R141). -/
def unpackStart (s : State) : Datapath := { s.datapath with hidden := { s.hidden with cur := s.root, opos := 0 } }

/-- `OUT_LEN <- OPOS; PAD_OUT <- 0` (44_unpacker R141). -/
def publishUnpacked (s : State) : State := { s with outLen := BitVec.ofNat 32 s.hidden.opos, padOut := 0 }

/-- The walk over the data bits and the test that it ended at ROOT (44_unpacker R141, R147). -/
def unpackWalk (s : State) : Halt State :=
  match walkLoop s.nodes s.root s.params.outCap 0 (dataBits s) (unpackStart s) with
  | .raised e info d => .raised e info (s.withDatapath d)
  | .done d =>
    if d.hidden.cur ≠ s.root then .raised .decodePartial (dataLen s) (s.withDatapath d)
    else .done (publishUnpacked (s.withDatapath d))

/-- The body of UNPACK: the prechecks in their order (44_unpacker R142), then the walk. -/
def unpackBody (s : State) : Halt State :=
  if !s.status.treeValid then .raised .noTree 0 s
  else if s.params.inCap < s.inLen.toNat then .raised .inLenRange s.inLen.toNat s
  else if 7 < s.padIn.toNat then .raised .invalidPadding s.padIn.toNat s
  else if 8 * s.inLen.toNat < s.padIn.toNat then .raised .padExceeds s.padIn.toNat s
  else unpackWalk s

/-- ExecUNPACK (44_unpacker R141). -/
def execUnpack (s : State) : Result := .next (finish .unpack (unpackBody s))

end Sys2Proof.Machine
end

