-- ==== Sys2Proof/Machine/HostAgent.lean ====
section
/-! DEFINITION. The two agents (70 R180): the block's step (40_control R91) and the host's (30_encoding R76, R77), and
the host-program syntax with its expansions. -/

namespace Sys2Proof.Machine

/-! ### The block -/

/-- BlockStep (40_control R91): the whole latched command, enabled exactly when SEQ = BUSY. A block turn while IDLE
changes nothing (60_exceptions R173). -/
def blockStep (s : State) : Result :=
  match s.seq with
  | .idle => .next s
  | .busy =>
    match decode s.cmdl with
    | .ok i => exec i s
    | .error _ => execIllegal s

/-! ### The host -/

/-- `name <- BusRead(addr)`: the host keeps the word (30_encoding R76). -/
def recordReply (w : Word) (s : State) : State := { s with env := { s.env with replies := s.env.replies ++ [w] } }

/-- The host's remaining program replaced. -/
def setProgram (ops : List HostOp) (s : State) : State := { s with env := { s.env with program := ops } }

/-- The host program's run fails (30_encoding R77). -/
def failRun (s : State) : State := { s with env := { s.env with failed := true } }

/-- The address of STATUS (20_memory R46). -/
def statusAddr : Word := 0x4

/-- `WR addr, name`: write the word an earlier RD returned. A program that uses a name it has not read yet fails
(DESIGN CHOICE, log entry 6). -/
def copyReply (addr : Word) (n : Nat) (s : State) : State :=
  match s.env.replies[n]? with
  | some w => busWrite addr w s
  | none => failRun s

/-- One host action, `rest` being what the host does after it. A POLL that reads BUSY = 1 is done again. -/
def hostAct (op : HostOp) (rest : List HostOp) (s : State) : State :=
  match op with
  | .write addr data => setProgram rest (busWrite addr data s)
  | .copy addr n => setProgram rest (copyReply addr n s)
  | .read addr =>
    let (w, s') := busRead addr s
    setProgram rest (recordReply w s')
  | .poll =>
    let (w, s') := busRead statusAddr s
    if w.getLsbD 0 then s' else setProgram rest s'
  | .expect addr value =>
    let (w, s') := busRead addr s
    setProgram rest (if w = value then s' else failRun s')

/-- The host's step: its next action, in program order (20_memory R59); nothing when its program is done. -/
def hostStep (s : State) : State :=
  match s.env.program with
  | [] => s
  | op :: rest => hostAct op rest s

/-! ### Host-program syntax (30_encoding R76, R77) -/

/-- A symbolic address (30_encoding R76). -/
inductive HostAddr where
  | cmd
  | status
  | errInfo
  | inLen
  | padIn
  | outLen
  | padOut
  | treeInfo
  | inCap
  | outCap
  | ftCount (b : BitVec 8)
  | ftPresent (b : BitVec 8)
  | node (i : BitVec 9) (w : BitVec 2)
  | code (b : BitVec 8) (w : BitVec 4)
  | inWord (j : Nat)
  | outWord (j : Nat)
  | number (n : BitVec 32)
  deriving DecidableEq, Repr

/-- The address a symbolic address stands for (30_encoding R76). -/
def HostAddr.address : HostAddr → Word
  | .cmd         => 0x00
  | .status      => 0x04
  | .errInfo     => 0x08
  | .inLen       => 0x0C
  | .padIn       => 0x10
  | .outLen      => 0x14
  | .padOut      => 0x18
  | .treeInfo    => 0x1C
  | .inCap       => 0x20
  | .outCap      => 0x24
  | .ftCount b   => BitVec.ofNat 32 (0x0800 + 8 * b.toNat)
  | .ftPresent b => BitVec.ofNat 32 (0x0804 + 8 * b.toNat)
  | .node i w    => BitVec.ofNat 32 (0x2000 + 16 * i.toNat + 4 * w.toNat)
  | .code b w    => BitVec.ofNat 32 (0x4000 + 64 * b.toNat + 4 * w.toNat)
  | .inWord j    => BitVec.ofNat 32 (0x01000000 + 4 * j)
  | .outWord j   => BitVec.ofNat 32 (0x02000000 + 4 * j)
  | .number n    => n

/-- A value: a number or a command mnemonic, which stands for its word (30_encoding R76). -/
inductive HostValue where
  | number (n : BitVec 32)
  | mnemonic (i : Instr)
  deriving DecidableEq, Repr

/-- The word a value stands for. -/
def HostValue.word : HostValue → Word
  | .number n => n
  | .mnemonic i => encode i

/-- A statement of a host program (30_encoding R76, R77). -/
inductive HostStmt where
  | wr (a : HostAddr) (v : HostValue)
  /-- `WR a, name`, the name that RD number n of the program defined. -/
  | wrName (a : HostAddr) (n : Nat)
  | rd (a : HostAddr)
  | poll
  | run (v : HostValue)
  | loadFt (b : BitVec 8) (count : BitVec 32)
  | loadIn (bytes : List (BitVec 8))
  | expect (a : HostAddr) (v : HostValue)
  deriving DecidableEq, Repr

/-- The word LOADIN writes at word offset j, missing bytes 0 (30_encoding R77). -/
def loadInWord (bytes : List Byte) (j : Nat) : Word :=
  laneWord (bytes.getD (4 * j) 0) (bytes.getD (4 * j + 1) 0) (bytes.getD (4 * j + 2) 0) (bytes.getD (4 * j + 3) 0)

/-- The host actions a statement expands to (30_encoding R76, R77). -/
def HostStmt.expand : HostStmt → List HostOp
  | .wr a v => [.write a.address v.word]
  | .wrName a n => [.copy a.address n]
  | .rd a => [.read a.address]
  | .poll => [.poll]
  | .run v => [.write HostAddr.cmd.address v.word, .poll]
  | .loadFt b count => [.write (HostAddr.ftCount b).address count, .write (HostAddr.ftPresent b).address 1]
  | .loadIn bytes =>
    (List.range ((bytes.length + 3) / 4)).map (fun j => .write (HostAddr.inWord j).address (loadInWord bytes j))
      ++ [.write HostAddr.inLen.address (BitVec.ofNat 32 bytes.length)]
  | .expect a v => [.expect a.address v.word]

/-- A host program as the actions it performs. -/
def hostProgram (stmts : List HostStmt) : List HostOp := stmts.flatMap HostStmt.expand

end Sys2Proof.Machine
end

