-- ==== Sys2Proof/Machine/Step.lean ====
section
/-! DEFINITION. One step of the machine: which agent moves (70 R180), and where a command word stands to be run next. -/

namespace Sys2Proof.Machine

/-- The rest of the interleaving. -/
def State.withTurns (s : State) (turns : List Turn) : State := { s with env := { s.env with turns := turns } }

/-- One step (70 R180, R183). The list `turns` says who moves, so that every interleaving of host actions, block steps
and hardware resets is the run of some list. When it is used up, the block moves if SEQ = BUSY (weak fairness, R196) and
the host otherwise. -/
def step (s : State) : Host.Outcome State Fault Refusal :=
  match s.env.turns with
  | .host :: turns => .next (hostStep (s.withTurns turns))
  | .block :: turns => blockStep (s.withTurns turns)
  | .reset :: turns => .next (hardReset (s.withTurns turns))
  | [] =>
    match s.seq with
    | .busy => blockStep s
    | .idle => .next (hostStep s)

/-- `s` with a command word accepted (40_control R90) and the block to move next: the effect of a host's write of the
word to CMD. There is no program memory to place it in (10_state R34, 20_memory R62). -/
def State.withFetchWord (s : State) (nbits w : Nat) : State := (acceptCommand (tableWord nbits w) s).withTurns []

end Sys2Proof.Machine
end

