-- ==== Sys2Proof/Safety.lean ====
section
/-! DEFINITION. What counts as a safe state and a safe run, and the words the statements use: the tree invariant
(10_state R40), the state invariant, paths through the tree, the packed bitstream, the mapped addresses. -/

namespace Sys2Proof.Machine

/-! ### Reset (10_state R42) -/

/-- The values of 10_state R42 in its two columns, which differ in STATUS.DONE and CMDL only; NODE and OUT hold nothing
the host can see. -/
abbrev resetValues (done : Bool) (cmdl : Word) (r : State) : Prop :=
  (∀ b, Table.read r.ft b = { present := false, count := 0 })
  ∧ (∀ i w, nodeWord r i w = 0)
  ∧ r.root = 0 ∧ r.nodeCount = 0
  ∧ (∀ b, Table.read r.codes b = { valid := false, len := 0, bits := 0 })
  ∧ r.inLen = 0 ∧ r.padIn = 0
  ∧ (∀ k, outVisible r k = 0) ∧ r.outLen = 0 ∧ r.padOut = 0
  ∧ r.status = { busy := false, done := done, err := false, treeValid := false, codesValid := false,
                 wbusy := false, busErr := false, errCode := 0 }
  ∧ r.errInfo = 0 ∧ r.cmdl = cmdl ∧ r.seq = .idle
  ∧ r.hidden = { q := [], acc := [], cur := 0, opos := 0 }

/-! ### The tree (10_state R40) -/

/-- NODE[i], for a plain index. -/
def nodeN (s : State) (i : Nat) : Node := Table.read s.nodes (BitVec.ofNat 9 i)

/-- The fields a kind does not use are 0 (10_state R22). -/
def Node.shapeOk (n : Node) : Bool :=
  match n.kind with
  | .internal => n.sym == 0
  | .leaf     => n.left == 0 && n.right == 0
  | .sentinel => n.sym == 0 && n.weight == 0 && n.left == 0 && n.right == 0

/-- Node i is INTERNAL, its children are two different earlier nodes, and its weight is their sum (10_state R40). -/
abbrev internalAt (s : State) (i : Nat) : Prop :=
  (nodeN s i).kind = .internal ∧ (nodeN s i).left.toNat < i ∧ (nodeN s i).right.toNat < i
    ∧ (nodeN s i).left ≠ (nodeN s i).right
    ∧ (nodeN s i).weight.toNat = nodeWeight s.nodes (nodeN s i).left + nodeWeight s.nodes (nodeN s i).right

/-- j is a child of the INTERNAL node i. -/
abbrev childOf (s : State) (i j : Nat) : Prop :=
  (nodeN s i).kind = .internal ∧ ((nodeN s i).left.toNat = j ∨ (nodeN s i).right.toNat = j)

/-- The tree of one present byte (10_state R40, n = 1). -/
abbrev SingleTree (s : State) : Prop :=
  s.nodeCount.toNat = 3 ∧ s.root.toNat = 2 ∧ (nodeN s 0).kind = .leaf ∧ (nodeN s 1).kind = .sentinel
    ∧ internalAt s 2 ∧ (nodeN s 2).left = 0 ∧ (nodeN s 2).right = 1

/-- The tree of n ≥ 2 present bytes (10_state R40): leaves below n in strictly ascending order, internal nodes from n
on, and every node but the root the child of exactly one of them. -/
abbrev ManyTree (n : Nat) (s : State) : Prop :=
  s.nodeCount.toNat = 2 * n - 1 ∧ s.root.toNat = 2 * n - 2
    ∧ (∀ i < n, (nodeN s i).kind = .leaf)
    ∧ (∀ i < n - 1, (nodeN s i).sym.toNat < (nodeN s (i + 1)).sym.toNat)
    ∧ (∀ k < n - 1, internalAt s (n + k))
    ∧ (∀ j < 2 * n - 2, ∃ k < n - 1, childOf s (n + k) j ∧ ∀ k' < n - 1, childOf s (n + k') j → k' = k)

/-- The arena holds the tree of n present bytes (10_state R40). -/
abbrev TreeOf (n : Nat) (s : State) : Prop :=
  (n = 1 ∧ SingleTree s) ∨ (2 ≤ n ∧ n ≤ 256 ∧ ManyTree n s)

/-! ### The state invariant -/

/-- The legal values of STATUS, SEQ and ERR_INFO (10_state R30, R31, R34; 60_exceptions R160). -/
abbrev statusOk (s : State) : Prop :=
  (s.seq = .busy ↔ s.status.busy = true) ∧ ¬ (s.status.done = true ∧ s.status.busy = true)
    ∧ (s.status.err = true → s.status.done = true ∧ s.status.errCode ≠ 0)
    ∧ (s.status.err = false → s.status.errCode = 0 ∧ s.errInfo = 0)
    ∧ s.status.errCode.toNat ≤ 10

/-- The tree registers and the arena (10_state R21 to R23, R40). The last two clauses are about every entry, counted or not:
of an entry nothing has written since reset they hold by log entry 9, which keeps it blank. -/
abbrev treeOk (s : State) : Prop :=
  (s.status.treeValid = true → ∃ n ≤ 256, TreeOf n s)
    ∧ (s.status.treeValid = false → s.nodeCount = 0 ∧ s.root = 0)
    ∧ (∀ i, (Table.read s.nodes i).shapeOk = true)
    ∧ Table.read s.nodes 511 = Node.blank

/-- The code table (10_state R24, R25, R41): the codes CODEGEN derives from the tree in the arena, or nothing. -/
abbrev codesOk (s : State) : Prop :=
  (s.status.codesValid = true → s.status.treeValid = true ∧ deriveCodes s.nodes s.root = some s.codes)
    ∧ (s.status.codesValid = false → ∀ b, Table.read s.codes b = CodeEntry.clear)

/-- The buffers (10_state R26, R29): canonical, inside their capacities, and every valid output byte written. -/
abbrev buffersOk (s : State) : Prop :=
  Memory.wf s.inBuf ∧ Memory.wf s.outBuf
    ∧ (∀ c ∈ s.inBuf, c.1 < s.params.inCap) ∧ (∀ c ∈ s.outBuf, c.1 < s.params.outCap)
    ∧ s.outLen.toNat ≤ s.params.outCap
    ∧ (∀ k < s.outLen.toNat, (Memory.read s.outBuf k).isSome = true)

/-- The invariant of the machine: legal parameters, legal STATUS, a tree or none, its codes or none, canonical buffers,
and nothing left in the hidden registers between commands (10_state R37 to R39). -/
structure State.Inv (s : State) : Prop where
  params  : s.params.legal = true
  status  : statusOk s
  tree    : treeOk s
  codes   : codesOk s
  buffers : buffersOk s
  hidden  : s.hidden = Hidden.empty

/-- A run the host has caused no bus fault in (93 I13). -/
abbrev State.busClean (s : State) : Prop := s.status.wbusy = false ∧ s.status.busErr = false

/-! ### Paths and bitstreams -/

/-- The bit-string p leads from node i to node k, through INTERNAL nodes only (42_code_mapper R121, 44_unpacker R144). -/
def walksTo (nodes : Table 9 Node) : NodeIdx → List Bool → NodeIdx → Prop
  | i, [], k => i = k
  | i, bit :: p, k => (Table.read nodes i).kind = .internal ∧ walksTo nodes (childOn nodes i bit) p k

/-- p is the path from the root to a leaf of byte b, at least one edge long (42_code_mapper R121). -/
def isCodeword (nodes : Table 9 Node) (root : NodeIdx) (p : List Bool) (b : Byte) : Prop :=
  p ≠ [] ∧ ∃ k, walksTo nodes root p k ∧ (Table.read nodes k).kind = .leaf ∧ (Table.read nodes k).sym = b

/-- UNPACK passes its four prechecks (44_unpacker R142). -/
abbrev unpackReady (s : State) : Prop :=
  s.status.treeValid = true ∧ s.inLen.toNat ≤ s.params.inCap ∧ s.padIn.toNat ≤ 7 ∧ s.padIn.toNat ≤ 8 * s.inLen.toNat

/-- `paths` are codewords of the bytes `d`, one by one. -/
def areCodewords (s : State) (paths : List (List Bool)) (d : List Byte) : Prop :=
  List.Forall₂ (isCodeword s.nodes s.root) paths d

/-- T of BUILD (41_tree_builder R110): the sum of all present counts. -/
def presentTotal (s : State) : Nat := ((presentSet s).map fun b => (Table.read s.ft b).count.toNat).sum

/-- The number of code bits of the first i input bytes. -/
def bitsBefore (s : State) (i : Nat) : Nat :=
  (((inputBytes s).take i).map fun b => (Table.read s.codes b).len.toNat).sum

/-- T of PACK (43_packer R133): the number of code bits of the input. -/
def codeBitCount (s : State) : Nat := bitsBefore s s.inLen.toNat

/-- code(IN[0]) · … · code(IN[IN_LEN-1]) (43_packer R132). -/
def packedBits (s : State) : List Bool := (inputBytes s).flatMap fun b => codeBits (Table.read s.codes b)

/-- Input byte i has a valid code (43_packer R134). -/
def coded (s : State) (i : Nat) : Bool := (Table.read s.codes (inByte s i)).valid

/-- Bit j of the output: bit (7 - j mod 8) of OUT[j div 8] (20_memory R53). -/
def outBit (s : State) (j : Nat) : Bool := (outByte s (j / 8)).getLsbD (7 - j % 8)

/-! ### Addresses -/

/-- The mapped ranges of the address map (20_memory R46), as the map writes them. -/
abbrev mappedAddr (p : Params) (a : Word) : Prop :=
  a.toNat < 0x28 ∨ (0x800 ≤ a.toNat ∧ a.toNat < 0x1000) ∨ (0x2000 ≤ a.toNat ∧ a.toNat < 0x8000)
    ∨ (0x1000000 ≤ a.toNat ∧ a.toNat < 0x1000000 + p.inCap)
    ∨ (0x2000000 ≤ a.toNat ∧ a.toNat < 0x2000000 + p.outCap)

/-- The read-only addresses (20_memory R46, R58): ERR_INFO, OUT_LEN to OUT_CAP, the NODE and CODE windows, OUT. -/
abbrev readOnlyAddr (p : Params) (a : Word) : Prop :=
  a.toNat = 0x8 ∨ (0x14 ≤ a.toNat ∧ a.toNat < 0x28) ∨ (0x2000 ≤ a.toNat ∧ a.toNat < 0x8000)
    ∨ (0x2000000 ≤ a.toNat ∧ a.toNat < 0x2000000 + p.outCap)

/-- The writable addresses other than STATUS (20_memory R46): CMD, IN_LEN, PAD_IN, the FT window, IN. -/
abbrev operandAddr (p : Params) (a : Word) : Prop :=
  a.toNat = 0x0 ∨ a.toNat = 0xC ∨ a.toNat = 0x10 ∨ (0x800 ≤ a.toNat ∧ a.toNat < 0x1000)
    ∨ (0x1000000 ≤ a.toNat ∧ a.toNat < 0x1000000 + p.inCap)

end Sys2Proof.Machine
end

