-- ==== Sys2Proof/Certificates/Slice0/Obligations.lean ====
section
/-! DEFINITION. The statements for the provers. Each docstring names the rule of spec/ it formalises. -/

open Sys2Proof Sys2Proof.Machine

/-! ### Command words (30_encoding) -/

/-- 30_encoding R73: decode is total, each of the seven words is its command, and every other word is ILLEGAL: RSVD is
not 0, or OP is none of the seven. -/
def Obligations.DecodeAcceptsExactlyTheSevenWords : Prop :=
  ∀ w : Word,
    (decode w = .ok .nop ↔ w = 0x00000000#32) ∧ (decode w = .ok .softReset ↔ w = 0x00000001#32)
    ∧ (decode w = .ok .ftClear ↔ w = 0x00000002#32) ∧ (decode w = .ok .build ↔ w = 0x00000010#32)
    ∧ (decode w = .ok .codegen ↔ w = 0x00000011#32) ∧ (decode w = .ok .pack ↔ w = 0x00000020#32)
    ∧ (decode w = .ok .unpack ↔ w = 0x00000021#32)
    ∧ ((∃ e, decode w = .error e) ↔
        w.toNat / 256 ≠ 0 ∨ w.toNat % 256 ∉ [0x00, 0x01, 0x02, 0x10, 0x11, 0x20, 0x21])

/-- 30_encoding R70, R71: every command decodes from its encoding, which is a legal command word; and words of
95_test_vectors (P1, T0.3 to T0.5) decode to what the spec says they are. -/
def Obligations.EncodedAndSpecWordsDecodeAsStated : Prop :=
  (∀ i : Instr, decode (encode i) = .ok i ∧ commandWordLegal (encode i) = true)
  ∧ decode 0x00000010#32 = .ok .build ∧ decode 0x00000020#32 = .ok .pack
  ∧ decode 0x00000110#32 = .error .reservedBits ∧ decode 0x80000021#32 = .error .reservedBits
  ∧ decode 0x00000003#32 = .error .unassignedOp ∧ decode 0x000000FF#32 = .error .unassignedOp

/-! ### Agents and steps (70, 40_control) -/

/-- 40_control R91: when the block moves and SEQ = BUSY, a step is exec of the command in CMDL. What step adds is the
choice of the agent (the model's, log entry 7): the block moves by default, or when the interleaving gives it the turn. A
command word placed as accepted (log entry 8) is run by the very next step. -/
def Obligations.StepRunsTheLatchedCommand : Prop :=
  (∀ (s : State) (i : Instr), s.seq = .busy → decode s.cmdl = .ok i →
    (s.env.turns = [] → step s = exec i s) ∧
    (∀ turns, s.env.turns = .block :: turns → step s = exec i (s.withTurns turns)))
  ∧ ∀ (s : State) (i : Instr),
    step (s.withFetchWord 32 (encode i).toNat) = exec i (s.withFetchWord 32 (encode i).toNat)

/-- 70 R180, 60_exceptions R173: in IDLE the block does nothing; the host's turn performs its next action, in program
order; with no turn given and SEQ = IDLE the host moves (the model's choice, log entry 7), and a machine whose host is
done holds its state. -/
def Obligations.IdleBlockHoldsAndHostMoves : Prop :=
  (∀ (s : State) (turns : List Turn), s.seq = .idle → s.env.turns = .block :: turns → step s = .next (s.withTurns turns))
  ∧ (∀ s : State, s.seq = .idle → s.env.turns = [] → s.env.program = [] → step s = .next s)
  ∧ (∀ (s : State) (turns : List Turn) (op : HostOp) (rest : List HostOp),
      s.env.turns = .host :: turns → s.env.program = op :: rest →
      step s = .next (hostAct op rest (s.withTurns turns)))
  ∧ (∀ (s : State) (op : HostOp) (rest : List HostOp),
      s.env.turns = [] → s.seq = .idle → s.env.program = op :: rest → step s = .next (hostAct op rest s))

/-- 10_state R42, 70 R181 and R183: the values after reset, for every pair of capacities; a hardware reset between any two
steps, a command running or not, gives the block these values and completes nothing; and the values after SOFT_RESET,
which leaves the contents of NODE, IN and OUT unchanged. The model's choices in it: a hardware reset is a turn of the list
of turns (log entry 7), it keeps the capacities (log entry 11), and each byte of IN is then the free value
Config.inReset of the model's own epoch (log entry 2). -/
def Obligations.ResetGivesTheStatedValues : Prop :=
  (∀ p : Params, resetValues false 0 (State.resetWith p))
  ∧ (∀ (s : State) (turns : List Turn), s.env.turns = .reset :: turns →
    ∃ t, step s = .next t ∧ resetValues false 0 t ∧ t.params = s.params
      ∧ ∀ k, inByte t k = Config.inReset t.epoch k)
  ∧ ∀ s : State, s.cmdl = 0x00000001#32 →
    ∃ t, exec .softReset s = .next t ∧ resetValues true 0x00000001#32 t ∧ t.params = s.params
      ∧ t.nodes = s.nodes ∧ (∀ k, inByte t k = inByte s k) ∧ (∀ k, outByte t k = outByte s k)

/-- 40_control R90: a write of any word to CMD while IDLE latches it, makes the block BUSY, clears the report of the last
command and changes nothing else; while BUSY it is not accepted. -/
def Obligations.CmdWriteIsAcceptedWhenIdle : Prop :=
  ∀ (s : State) (w : Word),
    (s.seq = .idle → busWrite 0x00000000#32 w s =
      { s with
        cmdl := w, errInfo := 0, seq := .busy
        status := { s.status with busy := true, done := false, err := false, errCode := 0 } })
    ∧ (s.seq = .busy → (busWrite 0x00000000#32 w s).cmdl = s.cmdl)

/-- 60_exceptions R161, R162: how every command's pseudocode ends. complete() and raise E(info) write exactly these
fields; only PACK and UNPACK lose OUT_LEN and PAD_OUT by an error; Q, ACC, CUR and OPOS are discarded. -/
def Obligations.CompleteAndRaiseRecord : Prop :=
  (∀ s : State, complete s =
    { s with
      status := { s.status with busy := false, done := true, err := false, errCode := 0 }
      errInfo := 0, seq := .idle, hidden := { q := [], acc := [], cur := 0, opos := 0 } })
  ∧ ∀ (i : Instr) (e : ErrKind) (info : Nat) (s : State), finish i (.raised e info s) =
    { s with
      outLen := if i = .pack ∨ i = .unpack then 0 else s.outLen
      padOut := if i = .pack ∨ i = .unpack then 0 else s.padOut
      status := { s.status with busy := false, done := true, err := true, errCode := e.code }
      errInfo := BitVec.ofNat 32 info, seq := .idle, hidden := { q := [], acc := [], cur := 0, opos := 0 } }

/-- 40_control R91, 60_exceptions R160, R165, R167: every command that answers leaves the block IDLE and DONE, with
nothing in the hidden registers; it reports an error exactly when its code is not 0, and only an error of its own:
NOP, SOFT_RESET and FT_CLEAR report none. -/
def Obligations.EveryCommandEndsIdleWithItsOwnErrors : Prop :=
  ∀ (i : Instr) (s t : State), exec i s = .next t →
    t.seq = .idle ∧ t.status.busy = false ∧ t.status.done = true ∧ t.hidden = Hidden.empty
    ∧ (t.status.err = true ↔ t.status.errCode ≠ 0) ∧ (t.status.err = false → t.errInfo = 0)
    ∧ (t.status.err = true →
        (i = .build ∧ t.status.errCode = 3) ∨ (i = .codegen ∧ t.status.errCode = 2)
        ∨ (i = .pack ∧ t.status.errCode.toNat ∈ [4, 9, 10])
        ∨ (i = .unpack ∧ t.status.errCode.toNat ∈ [2, 5, 6, 7, 8, 9, 10]))

/-- 30_encoding R72 (what each command writes), 10_state R20, R26, 41_tree_builder R111, 42_code_mapper R128,
43_packer R138, 44_unpacker R152: the frame of all seven commands. Every command also writes STATUS.BUSY, DONE, ERR,
ERRCODE, ERR_INFO, SEQ and the hidden registers. -/
def Obligations.CommandsWriteOnlyTheirTargets : Prop :=
  ∀ (i : Instr) (s t : State), exec i s = .next t →
    t.params = s.params ∧ t.cmdl = s.cmdl ∧ t.epoch = s.epoch ∧ t.draws = s.draws ∧ t.env = s.env
    ∧ (∀ k, inByte t k = inByte s k)
    ∧ (i ≠ .softReset → t.inLen = s.inLen ∧ t.padIn = s.padIn
        ∧ t.status.wbusy = s.status.wbusy ∧ t.status.busErr = s.status.busErr)
    ∧ (i ≠ .softReset → i ≠ .ftClear → t.ft = s.ft)
    ∧ (i ≠ .build → t.nodes = s.nodes)
    ∧ (i ≠ .softReset → i ≠ .build → t.root = s.root ∧ t.nodeCount = s.nodeCount
        ∧ t.status.treeValid = s.status.treeValid)
    ∧ (i ≠ .softReset → i ≠ .build → i ≠ .codegen → t.codes = s.codes
        ∧ t.status.codesValid = s.status.codesValid)
    ∧ (i ≠ .pack → i ≠ .unpack → ∀ k, outByte t k = outByte s k)
    ∧ (i ≠ .softReset → i ≠ .pack → i ≠ .unpack → t.outLen = s.outLen ∧ t.padOut = s.padOut)

/-! ### Housekeeping commands (40_control) -/

/-- 40_control R92: NOP completes and changes nothing else; from reset it leaves STATUS = 0x0000_0002. -/
def Obligations.NopOnlyCompletes : Prop :=
  (∀ s : State, exec .nop s = .next
    { s with
      status := { s.status with busy := false, done := true, err := false, errCode := 0 }
      errInfo := 0, seq := .idle, hidden := Hidden.empty })
  ∧ ∀ p : Params, ∃ t, exec .nop (acceptCommand 0x00000000#32 (State.resetWith p)) = .next t
      ∧ statusWord t.status = 0x00000002#32

/-- 40_control R93: SOFT_RESET ends in the hardware-reset state but for DONE = 1, the contents of NODE, IN and OUT, and
CMDL; STATUS is then 0x0000_0002, TREE_INFO and ERR_INFO 0. -/
def Obligations.SoftResetIsResetButDone : Prop :=
  ∀ s : State, ∃ t, exec .softReset s = .next t
    ∧ t = { State.resetWith s.params with
            status := { Status.reset with done := true }
            nodes := s.nodes, inBuf := s.inBuf, outBuf := s.outBuf, cmdl := s.cmdl
            epoch := s.epoch, draws := s.draws, env := s.env }
    ∧ statusWord t.status = 0x00000002#32 ∧ treeInfoWord t = 0 ∧ t.errInfo = 0

/-- 40_control R94: FT_CLEAR clears every FT entry, completes, and changes nothing else; a BUILD after it is the
empty-table case. -/
def Obligations.FtClearEmptiesTheTable : Prop :=
  ∀ s : State, ∃ t, exec .ftClear s = .next t
    ∧ (∀ b, Table.read t.ft b = { present := false, count := 0 })
    ∧ { t with ft := s.ft } =
      { s with
        status := { s.status with busy := false, done := true, err := false, errCode := 0 }
        errInfo := 0, seq := .idle, hidden := Hidden.empty }
    ∧ presentSet t = []

/-- 40_control R95: an illegal word completes with ILLEGAL_CMD and ERR_INFO = the whole word, and changes no table,
buffer or length register; 0x0000_0110 is illegal, not BUILD. -/
def Obligations.IllegalWordIsReported : Prop :=
  (∀ (s : State) (e : Illegal), s.seq = .busy → decode s.cmdl = .error e →
    blockStep s = .next
      { s with
        status := { s.status with busy := false, done := true, err := true, errCode := 1 }
        errInfo := s.cmdl, seq := .idle, hidden := Hidden.empty })
  ∧ (∃ e, decode 0x00000110#32 = .error e)
  ∧ ∀ p : Params, ∃ t, blockStep (acceptCommand 0x00000003#32 (State.resetWith p)) = .next t
      ∧ t.status.err = true ∧ t.status.errCode = 1 ∧ t.errInfo = 0x00000003#32

/-! ### BUILD (41_tree_builder) -/

/-- 41_tree_builder R104: with no present entry BUILD succeeds with no tree and writes no node; a later CODEGEN or UNPACK
fails with NO_TREE. -/
def Obligations.BuildOfEmptyTableGivesNoTree : Prop :=
  ∀ s : State, (∀ b, (Table.read s.ft b).present = false) →
    ∃ t, exec .build s = .next t
      ∧ t.status.treeValid = false ∧ t.root = 0 ∧ t.nodeCount = 0 ∧ t.nodes = s.nodes ∧ t.status.err = false
      ∧ (∃ u, exec .codegen t = .next u ∧ u.status.err = true ∧ u.status.errCode = 2)
      ∧ (∃ u, exec .unpack t = .next u ∧ u.status.err = true ∧ u.status.errCode = 2)

/-- 41_tree_builder R105: with one present byte BUILD writes the leaf, the sentinel and the root INTERNAL(0, 1, w). -/
def Obligations.BuildOfOneByteAddsTheSentinel : Prop :=
  ∀ (s : State) (b : Byte), (∀ b', (Table.read s.ft b').present = true ↔ b' = b) →
    ∃ t, exec .build s = .next t
      ∧ nodeN t 0 = { kind := .leaf, sym := b, weight := (Table.read s.ft b).count, left := 0, right := 0 }
      ∧ nodeN t 1 = { kind := .sentinel, sym := 0, weight := 0, left := 0, right := 0 }
      ∧ nodeN t 2 = { kind := .internal, sym := 0, weight := (Table.read s.ft b).count, left := 0, right := 1 }
      ∧ t.root = 2 ∧ t.nodeCount = 3 ∧ t.status.treeValid = true ∧ t.status.err = false

/-- 41_tree_builder R109 (with R106, and the invariant of 10_state R40): with n ≥ 2 present bytes whose counts sum to at
most 0xFFFF_FFFF, BUILD succeeds: the leaves in ascending byte order at 0..n-1, internal nodes n..2n-2, the last one the
root, and the arena holds the tree of R40. Arena entry 511 is not written. -/
def Obligations.BuildMakesTheTree : Prop :=
  ∀ s : State, 2 ≤ (presentSet s).length → presentTotal s ≤ 0xFFFFFFFF →
    ∃ t, exec .build s = .next t ∧ t.status.err = false ∧ t.status.treeValid = true
      ∧ t.nodeCount.toNat = 2 * (presentSet s).length - 1 ∧ t.root.toNat = 2 * (presentSet s).length - 2
      ∧ (∀ k b, (presentSet s)[k]? = some b → nodeN t k =
          { kind := .leaf, sym := b, weight := (Table.read s.ft b).count, left := 0, right := 0 })
      ∧ TreeOf (presentSet s).length t
      ∧ Table.read t.nodes 511 = Table.read s.nodes 511

/-- 41_tree_builder R107, R108: the children of each internal node i are two different nodes below i that no earlier merge
took, and among all such nodes the left child has the least key (weight, index) and the right child the next. -/
def Obligations.BuildMergesTheTwoLeastKeys : Prop :=
  ∀ s t : State, 2 ≤ (presentSet s).length → exec .build s = .next t → t.status.err = false →
    let n := (presentSet s).length
    ∀ i, n ≤ i → i < 2 * n - 1 →
      let unmerged (j : NodeIdx) : Prop := j.toNat < i ∧ ∀ i', n ≤ i' → i' < i → ¬ childOf t i' j.toNat
      let a := (nodeN t i).left
      let c := (nodeN t i).right
      (nodeN t i).kind = .internal ∧ unmerged a ∧ unmerged c ∧ a ≠ c
      ∧ (∀ j, unmerged j → j ≠ a → keyLess t.nodes a j = true)
      ∧ (∀ j, unmerged j → j ≠ a → j ≠ c → keyLess t.nodes c j = true)

/-- 41_tree_builder R110: BUILD always answers, and it reports WEIGHT_OVERFLOW exactly when the present counts sum to more
than 0xFFFF_FFFF; then no tree and no code is left, the merges before that of ERR_INFO are sums that fitted, the two
nodes of least key not merged by them have a sum that does not, and the node ERR_INFO is not written. -/
def Obligations.BuildOverflowsExactlyAboveTheTotal : Prop :=
  ∀ s : State, ∃ t, exec .build s = .next t
    ∧ (t.status.err = true ↔ 0xFFFFFFFF < presentTotal s)
    ∧ (t.status.err = true →
        let n := (presentSet s).length
        let next := t.errInfo.toNat
        let unmerged (j : NodeIdx) : Prop := j.toNat < next ∧ ∀ i, n ≤ i → i < next → ¬ childOf t i j.toNat
        t.status.errCode = 3 ∧ t.status.treeValid = false ∧ t.root = 0 ∧ t.nodeCount = 0
        ∧ t.status.codesValid = false ∧ (∀ b, Table.read t.codes b = CodeEntry.clear)
        ∧ n ≤ next ∧ next < 2 * n - 1
        ∧ (∀ i, n ≤ i → i < next → internalAt t i)
        ∧ (∃ a c : NodeIdx, unmerged a ∧ unmerged c ∧ a ≠ c
            ∧ (∀ j, unmerged j → j ≠ a → keyLess t.nodes a j = true)
            ∧ (∀ j, unmerged j → j ≠ a → j ≠ c → keyLess t.nodes c j = true)
            ∧ 0xFFFFFFFF < nodeWeight t.nodes a + nodeWeight t.nodes c)
        ∧ nodeN t next = nodeN s next)

/-- 41_tree_builder R102, 70 R193: after any BUILD no code is left, and a PACK of a non-empty input then reports
ENCODING at offset 0. -/
def Obligations.BuildLeavesNoStaleCode : Prop :=
  ∀ s t : State, exec .build s = .next t →
    t.status.codesValid = false ∧ (∀ b, Table.read t.codes b = CodeEntry.clear)
    ∧ (0 < t.inLen.toNat → t.inLen.toNat ≤ t.params.inCap →
        ∃ u, exec .pack t = .next u ∧ u.status.err = true ∧ u.status.errCode = 4 ∧ u.errInfo = 0)

/-- 41_tree_builder R111 (the arena's part of BUILD's frame): a BUILD that reports no error writes no arena entry at an
index ≥ its NODE_COUNT, and after any BUILD such entries are unobservable. -/
def Obligations.BuildWritesOnlyTheNodesItCounts : Prop :=
  ∀ s t : State, exec .build s = .next t →
    ∀ i : NodeIdx, t.nodeCount.toNat ≤ i.toNat →
      (t.status.err = false → Table.read t.nodes i = Table.read s.nodes i) ∧ (∀ w, nodeWord t i w = 0)

/-- 41_tree_builder R112: the tree BUILD makes, and the error it reports, are a function of the mapping of the present
bytes alone. -/
def Obligations.BuildDependsOnTheMappingAlone : Prop :=
  ∀ s₁ s₂ t₁ t₂ : State,
    (∀ b, (Table.read s₁.ft b).present = (Table.read s₂.ft b).present) →
    (∀ b, (Table.read s₁.ft b).present = true → (Table.read s₁.ft b).count = (Table.read s₂.ft b).count) →
    exec .build s₁ = .next t₁ → exec .build s₂ = .next t₂ →
    t₁.root = t₂.root ∧ t₁.nodeCount = t₂.nodeCount ∧ t₁.status.treeValid = t₂.status.treeValid
    ∧ t₁.status.errCode = t₂.status.errCode ∧ t₁.errInfo = t₂.errInfo
    ∧ ∀ i : NodeIdx, i.toNat < t₁.nodeCount.toNat → Table.read t₁.nodes i = Table.read t₂.nodes i

/-! ### CODEGEN (42_code_mapper) -/

/-- 42_code_mapper R125: without a tree CODEGEN reports NO_TREE with ERR_INFO 0 and changes nothing else; by the
invariant the code table is then all-invalid and CODES_VALID 0. -/
def Obligations.CodegenWithoutTreeReportsNoTree : Prop :=
  ∀ s : State, s.status.treeValid = false →
    exec .codegen s = .next
      { s with
        status := { s.status with busy := false, done := true, err := true, errCode := 2 }
        errInfo := 0, seq := .idle, hidden := Hidden.empty }
    ∧ (s.Inv → s.status.codesValid = false ∧ ∀ b, Table.read s.codes b = { valid := false, len := 0, bits := 0 })

/-- 42_code_mapper R121, R122: with a tree CODEGEN succeeds; a byte has a valid code exactly when some path from the root
ends at a leaf of that byte, its code is that path, its length is in 1..255 and its value fits it. -/
def Obligations.CodegenWritesTheTreePaths : Prop :=
  ∀ s : State, s.Inv → s.status.treeValid = true →
    ∃ t, exec .codegen s = .next t ∧ t.status.err = false ∧ t.status.codesValid = true
      ∧ (∀ b, (Table.read t.codes b).valid = true ↔ ∃ p, isCodeword s.nodes s.root p b)
      ∧ (∀ b, (Table.read t.codes b).valid = true →
          isCodeword s.nodes s.root (codeBits (Table.read t.codes b)) b
          ∧ 1 ≤ (Table.read t.codes b).len.toNat ∧ (Table.read t.codes b).len.toNat ≤ 255
          ∧ (Table.read t.codes b).bits.toNat < 2 ^ (Table.read t.codes b).len.toNat)
      ∧ (∀ b, (Table.read t.codes b).valid = false → Table.read t.codes b = CodeEntry.clear)

/-- 42_code_mapper R123: for a tree with the sentinel the only valid entry is that of the leaf's byte, the code `0`. -/
def Obligations.CodegenGivesTheSentinelNoCode : Prop :=
  ∀ s : State, s.Inv → s.status.treeValid = true → (nodeN s 1).kind = .sentinel →
    ∃ t, exec .codegen s = .next t ∧ t.status.err = false
      ∧ ∀ b, Table.read t.codes b =
          if b = (nodeN s 0).sym then { valid := true, len := 1, bits := 0 } else { valid := false, len := 0, bits := 0 }

/-- 42_code_mapper R124: a root that is a leaf gets the one-bit code `0`; no state that meets the invariant has one. -/
def Obligations.CodegenOfALeafRoot : Prop :=
  (∀ s : State, s.status.treeValid = true → (Table.read s.nodes s.root).kind = .leaf →
    ∃ t, exec .codegen s = .next t ∧ t.status.err = false ∧ t.status.codesValid = true
      ∧ ∀ b, Table.read t.codes b =
          if b = (Table.read s.nodes s.root).sym then { valid := true, len := 1, bits := 0 }
          else { valid := false, len := 0, bits := 0 })
  ∧ ∀ s : State, s.Inv → s.status.treeValid = true → (Table.read s.nodes s.root).kind = .internal

/-- The only stop of the model (DEDUCED from 42_code_mapper R121, R122; log entry 5): exec faults for no command but
CODEGEN, and there exactly when TREE_VALID = 1 and the arena has a path of 256 edges from ROOT; it refuses nothing. -/
def Obligations.OnlyCodegenOffATreeStops : Prop :=
  (∀ (i : Instr) (s : State) (f : Fault), exec i s = .fault f ↔
    f = .arenaNotATree ∧ i = .codegen ∧ s.status.treeValid = true
      ∧ ∃ (p : List Bool) (k : NodeIdx), p.length = 256 ∧ walksTo s.nodes s.root p k)
  ∧ ∀ (i : Instr) (s : State) (r : Refusal), exec i s ≠ .refused r

/-- 10_state R41: with CODES_VALID = 1 there is a tree, the valid entries are exactly the bytes of its leaves, no code is
a prefix of another, and every length is in 1..255; with CODES_VALID = 0 every entry is (0, 0, 0). -/
def Obligations.ValidCodesFormAPrefixCode : Prop :=
  ∀ s : State, s.Inv →
    (s.status.codesValid = true →
      s.status.treeValid = true
      ∧ (∀ b, (Table.read s.codes b).valid = true ↔
          ∃ i < s.nodeCount.toNat, (nodeN s i).kind = .leaf ∧ (nodeN s i).sym = b)
      ∧ (∀ b₁ b₂, b₁ ≠ b₂ → (Table.read s.codes b₁).valid = true → (Table.read s.codes b₂).valid = true →
          ¬ codeBits (Table.read s.codes b₁) <+: codeBits (Table.read s.codes b₂))
      ∧ (∀ b, (Table.read s.codes b).valid = true →
          1 ≤ (Table.read s.codes b).len.toNat ∧ (Table.read s.codes b).len.toNat ≤ 255))
    ∧ (s.status.codesValid = false → ∀ b, Table.read s.codes b = { valid := false, len := 0, bits := 0 })

/-- 42_code_mapper R126 (its second sentence): for n ≥ 2 the sum of 2^-len over the valid entries is 1, for n = 1 it is
1/2. Both sides are multiplied by 2^255. -/
def Obligations.ValidCodesAreComplete : Prop :=
  ∀ (s : State) (n : Nat), s.Inv → s.status.codesValid = true → TreeOf n s →
    ((allBytes.filter fun b => (Table.read s.codes b).valid).map fun b => 2 ^ (255 - (Table.read s.codes b).len.toNat)).sum
      = if n = 1 then 2 ^ 254 else 2 ^ 255

/-! ### PACK (43_packer) -/

/-- 43_packer R132, R133, R137: when every input byte has a code and ⌈T/8⌉ ≤ OUT_CAP, PACK succeeds; OUT_LEN = ⌈T/8⌉,
PAD_OUT = (8 - T mod 8) mod 8, and bit j of OUT is bit j of the codes in input order followed by zeros. -/
def Obligations.PackWritesTheCodesInOrder : Prop :=
  ∀ s : State, s.params.legal = true → s.inLen.toNat ≤ s.params.inCap →
    (∀ i < s.inLen.toNat, coded s i = true) → (codeBitCount s + 7) / 8 ≤ s.params.outCap →
    ∃ t, exec .pack s = .next t ∧ t.status.err = false
      ∧ t.outLen.toNat = (codeBitCount s + 7) / 8 ∧ t.padOut.toNat = (8 - codeBitCount s % 8) % 8
      ∧ 8 * t.outLen.toNat - t.padOut.toNat = codeBitCount s
      ∧ (packedBits s).length = codeBitCount s
      ∧ ∀ j < 8 * t.outLen.toNat, outBit t j = (packedBits s).getD j false

/-- 43_packer R134, R135: the errors of PACK. IN_LEN > IN_CAP comes first; then, in input order, a byte without a code
reports ENCODING at its offset, and a full byte that does not fit reports OUT_OVERFLOW at the offset of the byte whose
bits it holds, or IN_LEN for the final padded byte. With every byte coded OUT_OVERFLOW is reported exactly when
⌈T/8⌉ > OUT_CAP. -/
def Obligations.PackReportsTheFirstError : Prop :=
  ∀ s : State,
    (s.params.inCap < s.inLen.toNat →
      ∃ t, exec .pack s = .next t ∧ t.status.err = true ∧ t.status.errCode = 9 ∧ t.errInfo = s.inLen)
    ∧ (s.inLen.toNat ≤ s.params.inCap →
        (∀ i < s.inLen.toNat, (∀ j < i, coded s j = true) → coded s i = false →
          bitsBefore s i / 8 ≤ s.params.outCap →
          ∃ t, exec .pack s = .next t ∧ t.status.err = true ∧ t.status.errCode = 4 ∧ t.errInfo.toNat = i)
        ∧ (∀ i < s.inLen.toNat, (∀ j ≤ i, coded s j = true) →
            bitsBefore s i / 8 ≤ s.params.outCap → s.params.outCap < bitsBefore s (i + 1) / 8 →
            ∃ t, exec .pack s = .next t ∧ t.status.err = true ∧ t.status.errCode = 10 ∧ t.errInfo.toNat = i)
        ∧ ((∀ i < s.inLen.toNat, coded s i = true) →
            codeBitCount s / 8 ≤ s.params.outCap → s.params.outCap < (codeBitCount s + 7) / 8 →
            ∃ t, exec .pack s = .next t ∧ t.status.err = true ∧ t.status.errCode = 10 ∧ t.errInfo = s.inLen)
        ∧ ((∀ i < s.inLen.toNat, coded s i = true) →
            ∃ t, exec .pack s = .next t
              ∧ (t.status.err = true ↔ s.params.outCap < (codeBitCount s + 7) / 8)
              ∧ (t.status.err = true → t.status.errCode = 10)))

/-- 43_packer R131, R138: which bytes of OUT a PACK leaves alone: on success those from OUT_LEN on, on ENCODING at offset
i those from the number of full bytes before i on, on OUT_OVERFLOW those outside OUT, on IN_LEN_RANGE all; and an error
leaves OUT_LEN = 0 and PAD_OUT = 0. -/
def Obligations.PackStoresOnlyItsOutput : Prop :=
  ∀ s t : State, s.params.legal = true → exec .pack s = .next t →
    (t.status.err = false → ∀ k, t.outLen.toNat ≤ k → outByte t k = outByte s k)
    ∧ (t.status.err = true → t.outLen = 0 ∧ t.padOut = 0)
    ∧ (t.status.errCode = 4 → ∀ k, bitsBefore s t.errInfo.toNat / 8 ≤ k → outByte t k = outByte s k)
    ∧ (t.status.errCode = 10 → ∀ k, s.params.outCap ≤ k → outByte t k = outByte s k)
    ∧ (t.status.errCode = 9 → ∀ k, outByte t k = outByte s k)

/-- 30_encoding R72 (what PACK reads), 95_test_vectors S2: two states with the same capacities, codes, IN_LEN and input
bytes give the same output, the same report and the same visible bytes. -/
def Obligations.PackDependsOnItsOperandsAlone : Prop :=
  ∀ s₁ s₂ t₁ t₂ : State,
    s₁.params = s₂.params → s₁.codes = s₂.codes → s₁.inLen = s₂.inLen →
    (∀ k < s₁.inLen.toNat, inByte s₁ k = inByte s₂ k) →
    exec .pack s₁ = .next t₁ → exec .pack s₂ = .next t₂ →
    t₁.outLen = t₂.outLen ∧ t₁.padOut = t₂.padOut ∧ t₁.status.errCode = t₂.status.errCode ∧ t₁.errInfo = t₂.errInfo
    ∧ ∀ k, outVisible t₁ k = outVisible t₂ k

/-- 60_exceptions R163: after a PACK or UNPACK error OUT_LEN and PAD_OUT are 0 and every word of the OUT window reads 0. -/
def Obligations.NoPartialOutputIsVisible : Prop :=
  ∀ (i : Instr) (s t : State), i = .pack ∨ i = .unpack → s.params.legal = true →
    exec i s = .next t → t.status.err = true →
    t.outLen = 0 ∧ t.padOut = 0
    ∧ ∀ j, 4 * j < s.params.outCap → busRead (BitVec.ofNat 32 (0x02000000 + 4 * j)) t = (0, t)

/-! ### UNPACK (44_unpacker) -/

/-- 44_unpacker R142: the four prechecks in their order, before any bit is read. -/
def Obligations.UnpackPrechecksInOrder : Prop :=
  ∀ s : State,
    let failed (code : BitVec 8) (info : Word) : State :=
      { s with
        outLen := 0, padOut := 0, errInfo := info, seq := .idle, hidden := Hidden.empty
        status := { s.status with busy := false, done := true, err := true, errCode := code } }
    (s.status.treeValid = false → exec .unpack s = .next (failed 2 0))
    ∧ (s.status.treeValid = true → s.params.inCap < s.inLen.toNat → exec .unpack s = .next (failed 9 s.inLen))
    ∧ (s.status.treeValid = true → s.inLen.toNat ≤ s.params.inCap → 7 < s.padIn.toNat →
        exec .unpack s = .next (failed 7 (s.padIn.zeroExtend 32)))
    ∧ (s.status.treeValid = true → s.inLen.toNat ≤ s.params.inCap → s.padIn.toNat ≤ 7 →
        8 * s.inLen.toNat < s.padIn.toNat → exec .unpack s = .next (failed 8 (s.padIn.zeroExtend 32)))

/-- 44_unpacker R143, R144, R145: when the data bits are the codewords of the bytes d one after the other, and d fits in
OUT, UNPACK succeeds and OUT holds d. -/
def Obligations.UnpackEmitsTheDecodedBytes : Prop :=
  ∀ (s : State) (paths : List (List Bool)) (d : List Byte),
    s.params.legal = true → unpackReady s → areCodewords s paths d → dataBits s = paths.flatten →
    d.length ≤ s.params.outCap →
    ∃ t, exec .unpack s = .next t ∧ t.status.err = false
      ∧ t.outLen.toNat = d.length ∧ t.padOut = 0 ∧ ∀ k b, d[k]? = some b → outByte t k = b

/-- 44_unpacker R146: when the data bits after some codewords lead to the sentinel, UNPACK reports DECODE_SENTINEL with
the index of the bit that led there. -/
def Obligations.UnpackStopsAtTheSentinel : Prop :=
  ∀ (s : State) (paths : List (List Bool)) (d : List Byte) (p rest : List Bool) (k : NodeIdx),
    s.params.legal = true → unpackReady s → areCodewords s paths d → dataBits s = paths.flatten ++ p ++ rest →
    d.length ≤ s.params.outCap → p ≠ [] → walksTo s.nodes s.root p k → (Table.read s.nodes k).kind = .sentinel →
    ∃ t, exec .unpack s = .next t ∧ t.status.err = true ∧ t.status.errCode = 6
      ∧ t.errInfo.toNat = paths.flatten.length + p.length - 1 ∧ t.outLen = 0

/-- 44_unpacker R147: when the data bits end inside a code, UNPACK reports DECODE_PARTIAL with ERR_INFO = T, and the bytes
emitted before the end are not delivered. -/
def Obligations.UnpackReportsAPartialCode : Prop :=
  ∀ (s : State) (paths : List (List Bool)) (d : List Byte) (p : List Bool) (k : NodeIdx),
    s.params.legal = true → unpackReady s → areCodewords s paths d → dataBits s = paths.flatten ++ p →
    d.length ≤ s.params.outCap → walksTo s.nodes s.root p k → (Table.read s.nodes k).kind = .internal → k ≠ s.root →
    ∃ t, exec .unpack s = .next t ∧ t.status.err = true ∧ t.status.errCode = 5
      ∧ t.errInfo.toNat = dataLen s ∧ t.outLen = 0

/-- 44_unpacker R148: when a leaf is reached after OUT_CAP bytes, UNPACK reports OUT_OVERFLOW with the index of the bit
that completed the code; with no data bit after those bytes it succeeds. -/
def Obligations.UnpackOverflowsAfterOutCapBytes : Prop :=
  ∀ (s : State) (paths : List (List Bool)) (d : List Byte),
    s.params.legal = true → unpackReady s → areCodewords s paths d → d.length = s.params.outCap →
    (∀ (p rest : List Bool) (b : Byte), dataBits s = paths.flatten ++ p ++ rest → isCodeword s.nodes s.root p b →
      ∃ t, exec .unpack s = .next t ∧ t.status.err = true ∧ t.status.errCode = 10
        ∧ t.errInfo.toNat = paths.flatten.length + p.length - 1)
    ∧ (dataBits s = paths.flatten →
        ∃ t, exec .unpack s = .next t ∧ t.status.err = false ∧ t.outLen.toNat = s.params.outCap)

/-- 44_unpacker R149: the padding bits have no effect: with other contents of IN that agree on the data bits, UNPACK ends
in the same state but for those contents. -/
def Obligations.UnpackIgnoresThePaddingBits : Prop :=
  ∀ (s t : State) (m : Memory),
    (∀ k < dataLen s, inBit { s with inBuf := m } k = inBit s k) →
    exec .unpack s = .next t → exec .unpack { s with inBuf := m } = .next { t with inBuf := m }

/-- 43_packer R136, 44_unpacker R150: with IN_LEN = 0 PACK succeeds with OUT_LEN = 0 and PAD_OUT = 0, whether or not any
code is valid, and so does UNPACK with a tree and PAD_IN = 0; a longer input always has data bits, since PAD_IN ≤ 7. -/
def Obligations.EmptyInputSucceeds : Prop :=
  ∀ s : State,
    let emptied : State :=
      { s with
        outLen := 0, padOut := 0, errInfo := 0, seq := .idle, hidden := Hidden.empty
        status := { s.status with busy := false, done := true, err := false, errCode := 0 } }
    (s.inLen = 0 → exec .pack s = .next emptied)
    ∧ (s.status.treeValid = true → s.inLen = 0 → s.padIn = 0 → exec .unpack s = .next emptied)
    ∧ (s.padIn.toNat ≤ 7 → 1 ≤ s.inLen.toNat → 0 < dataLen s)

/-- 44_unpacker R141, R152: which bytes of OUT an UNPACK leaves alone: on success those from OUT_LEN on, on
DECODE_SENTINEL or DECODE_PARTIAL those from the number of bits walked on, on OUT_OVERFLOW those outside OUT, on a failed
precheck all; and an error leaves OUT_LEN = 0 and PAD_OUT = 0. -/
def Obligations.UnpackStoresOnlyItsOutput : Prop :=
  ∀ s t : State, s.params.legal = true → exec .unpack s = .next t →
    (t.status.err = false → ∀ k, t.outLen.toNat ≤ k → outByte t k = outByte s k)
    ∧ (t.status.err = true → t.outLen = 0 ∧ t.padOut = 0)
    ∧ (t.status.errCode = 5 ∨ t.status.errCode = 6 → ∀ k, t.errInfo.toNat ≤ k → outByte t k = outByte s k)
    ∧ (t.status.errCode = 10 → ∀ k, s.params.outCap ≤ k → outByte t k = outByte s k)
    ∧ (t.status.errCode.toNat ∈ [2, 7, 8, 9] → ∀ k, outByte t k = outByte s k)

/-- 44_unpacker R151: the round trip. The host loads FT for the byte values of the input, runs BUILD, CODEGEN and PACK,
copies OUT into IN with IN_LEN and PAD_IN, runs BUILD again or keeps the tree, and runs UNPACK: unless PACK or UNPACK
reported OUT_OVERFLOW, the input comes back. -/
def Obligations.PackThenUnpackRoundTrip : Prop :=
  ∀ s : State, s.params.legal = true → 0 < s.inLen.toNat → s.inLen.toNat ≤ s.params.inCap →
    (∀ b, (Table.read s.ft b).present = true ↔ b ∈ inputBytes s) → presentTotal s ≤ 0xFFFFFFFF →
    ∃ s₁ s₂ s₃, exec .build s = .next s₁ ∧ exec .codegen s₁ = .next s₂ ∧ exec .pack s₂ = .next s₃
      ∧ (s₃.status.errCode ≠ 10 → s₃.outLen.toNat ≤ s.params.inCap → ∀ m : Memory,
          let u := { s₃ with inBuf := m, inLen := s₃.outLen, padIn := s₃.padOut.zeroExtend 8 }
          (∀ k < s₃.outLen.toNat, inByte u k = outByte s₃ k) →
          ∀ w, (w = u ∨ exec .build u = .next w) →
            ∃ v, exec .unpack w = .next v
              ∧ (v.status.errCode ≠ 10 →
                  v.status.err = false ∧ v.outLen = s.inLen ∧ ∀ k < s.inLen.toNat, outByte v k = inByte s k))

/-! ### The host bus (20_memory) -/

/-- 20_memory R54, R55: a read of a misaligned address, or of an aligned one outside every mapped range, returns 0 and
sets BUSERR; a write to one changes nothing but BUSERR <- 1. The reserved words of the NODE and CODE windows are mapped
and read 0 without BUSERR. -/
def Obligations.BadAddressesSetBusErr : Prop :=
  (∀ (s : State) (addr data : Word), addr.toNat % 4 ≠ 0 ∨ ¬ mappedAddr s.params addr →
    busRead addr s = (0, { s with status := { s.status with busErr := true } })
    ∧ busWrite addr data s = { s with status := { s.status with busErr := true } })
  ∧ ∀ s : State, s.seq = .idle →
    (∀ i < 512, busRead (BitVec.ofNat 32 (0x2000 + 16 * i + 12)) s = (0, s))
    ∧ (∀ b < 256, ∀ w < 16, 9 ≤ w → busRead (BitVec.ofNat 32 (0x4000 + 64 * b + 4 * w)) s = (0, s))

/-- 20_memory R58: a write to a read-only location changes nothing but BUSERR <- 1, in every sequencer state. -/
def Obligations.ReadOnlyWriteSetsBusErr : Prop :=
  ∀ (s : State) (addr data : Word), s.params.legal = true → addr.toNat % 4 = 0 → readOnlyAddr s.params addr →
    busWrite addr data s = { s with status := { s.status with busErr := true } }

/-- 70 R190: while BUSY a write to CMD, IN_LEN, PAD_IN, the FT window or IN is dropped and sets WBUSY; a write to STATUS is
accepted and clears WBUSY and BUSERR where bits 5 and 6 are 1. -/
def Obligations.BusyWritesAreDropped : Prop :=
  ∀ (s : State) (addr data : Word), s.seq = .busy →
    (addr.toNat % 4 = 0 → operandAddr s.params addr →
      busWrite addr data s = { s with status := { s.status with wbusy := true } })
    ∧ busWrite 0x00000004#32 data s =
      { s with
        status :=
          { s.status with
            wbusy := if data.getLsbD 5 then false else s.status.wbusy
            busErr := if data.getLsbD 6 then false else s.status.busErr } }

/-- 70 R191, 20_memory R64: while BUSY a read of STATUS, CMD, IN_CAP or OUT_CAP returns the register, and a read of any
other mapped location returns the free value Config.busyRead of the model's read counter (log entry 4). -/
def Obligations.BusyReadsAreFreeValues : Prop :=
  ∀ (s : State) (addr : Word), s.seq = .busy →
    busRead 0x00000000#32 s = (0, s) ∧ busRead 0x00000004#32 s = (statusWord s.status, s)
    ∧ busRead 0x00000020#32 s = (BitVec.ofNat 32 s.params.inCap, s)
    ∧ busRead 0x00000024#32 s = (BitVec.ofNat 32 s.params.outCap, s)
    ∧ (addr.toNat % 4 = 0 → mappedAddr s.params addr → addr.toNat ∉ [0x0, 0x4, 0x20, 0x24] →
        busRead addr s = (Config.busyRead s.draws, { s with draws := s.draws + 1 }))

/-- 20_memory R57: a read changes nothing but BUSERR, and that only when misaligned or unmapped (and the model's own read
counter); while IDLE a second read returns the same word. -/
def Obligations.BusReadsChangeOnlyBusErr : Prop :=
  ∀ (s : State) (addr : Word), let t := (busRead addr s).2
    { t with status := { t.status with busErr := s.status.busErr }, draws := s.draws } = s
    ∧ (t.status.busErr = true ↔ s.status.busErr = true ∨ addr.toNat % 4 ≠ 0 ∨ ¬ mappedAddr s.params addr)
    ∧ (s.seq = .idle → t.draws = s.draws)
    ∧ (s.seq = .idle → busRead addr t = ((busRead addr s).1, t))

/-- 10_state R26 to R33: the registers as the host reads and writes them. In every sequencer state STATUS reads its fields
at their places and 0 in its reserved bits, a write to it clears WBUSY if bit 5 is 1 and BUSERR if bit 6 is 1 and changes
nothing else, and CMD reads 0 (a write to CMD is CmdWriteIsAcceptedWhenIdle); while IDLE, IN_LEN is read and written whole, PAD_IN its low 8 bits,
OUT_LEN, PAD_OUT, ERR_INFO and TREE_INFO read as the block left them, and IN_CAP and OUT_CAP read the parameters. -/
def Obligations.RegistersReadAndWriteAsMapped : Prop :=
  (∀ s : State, ∃ w, busRead 0x00000004#32 s = (w, s)
    ∧ w.getLsbD 0 = s.status.busy ∧ w.getLsbD 1 = s.status.done ∧ w.getLsbD 2 = s.status.err
    ∧ w.getLsbD 3 = s.status.treeValid ∧ w.getLsbD 4 = s.status.codesValid ∧ w.getLsbD 5 = s.status.wbusy
    ∧ w.getLsbD 6 = s.status.busErr ∧ w.getLsbD 7 = false
    ∧ w.toNat / 2 ^ 8 % 2 ^ 8 = s.status.errCode.toNat ∧ w.toNat / 2 ^ 16 = 0)
  ∧ (∀ (s : State) (data : Word), busWrite 0x00000004#32 data s =
      { s with
        status :=
          { s.status with
            wbusy := if data.getLsbD 5 then false else s.status.wbusy
            busErr := if data.getLsbD 6 then false else s.status.busErr } })
  ∧ (∀ s : State, busRead 0x00000000#32 s = (0, s))
  ∧ ∀ (s : State) (data : Word), s.params.legal = true → s.seq = .idle →
    busRead 0x00000008#32 s = (s.errInfo, s)
    ∧ busRead 0x0000000C#32 s = (s.inLen, s) ∧ busWrite 0x0000000C#32 data s = { s with inLen := data }
    ∧ (busRead 0x00000010#32 s).1.toNat = s.padIn.toNat
    ∧ busWrite 0x00000010#32 data s = { s with padIn := BitVec.ofNat 8 data.toNat }
    ∧ busRead 0x00000014#32 s = (s.outLen, s) ∧ (busRead 0x00000018#32 s).1.toNat = s.padOut.toNat
    ∧ (busRead 0x0000001C#32 s).1.toNat = s.root.toNat + s.nodeCount.toNat * 2 ^ 16
    ∧ (busRead 0x00000020#32 s).1.toNat = s.params.inCap ∧ (busRead 0x00000024#32 s).1.toNat = s.params.outCap

/-- 20_memory R47: the FT window. A COUNT write sets the count alone, a PRESENT write the present bit alone (bit 0 of the
word); each reads back. -/
def Obligations.FtWindowReadsAndWritesOneField : Prop :=
  ∀ (s : State) (b : Byte) (data : Word), s.seq = .idle →
    (let addr := BitVec.ofNat 32 (0x0800 + 8 * b.toNat); let t := busWrite addr data s
      busRead addr s = ((Table.read s.ft b).count, s)
      ∧ Table.read t.ft b = { present := (Table.read s.ft b).present, count := data }
      ∧ (∀ b', b' ≠ b → Table.read t.ft b' = Table.read s.ft b') ∧ { t with ft := s.ft } = s)
    ∧ (let addr := BitVec.ofNat 32 (0x0804 + 8 * b.toNat); let t := busWrite addr data s
      busRead addr s = (if (Table.read s.ft b).present then 1 else 0, s)
      ∧ Table.read t.ft b = { present := data.getLsbD 0, count := (Table.read s.ft b).count }
      ∧ (∀ b', b' ≠ b → Table.read t.ft b' = Table.read s.ft b') ∧ { t with ft := s.ft } = s)

/-- 20_memory R48: the NODE window. An entry at or above NODE_COUNT reads 0 in every word. -/
def Obligations.NodeWindowShowsTheArena : Prop :=
  ∀ (s : State) (i : NodeIdx), s.seq = .idle →
    let n := Table.read s.nodes i
    let word (w : Nat) : Word := (busRead (BitVec.ofNat 32 (0x2000 + 16 * i.toNat + 4 * w)) s).1
    (s.nodeCount.toNat ≤ i.toNat → ∀ w < 4, word w = 0)
    ∧ (i.toNat < s.nodeCount.toNat →
        (word 0).extractLsb' 0 2 = (match n.kind with | .internal => 0#2 | .leaf => 1#2 | .sentinel => 2#2)
        ∧ (word 0).extractLsb' 2 6 = 0 ∧ (word 0).extractLsb' 8 8 = n.sym ∧ (word 0).extractLsb' 16 16 = 0
        ∧ word 1 = n.weight
        ∧ (word 2).extractLsb' 0 9 = n.left ∧ (word 2).extractLsb' 9 7 = 0
        ∧ (word 2).extractLsb' 16 9 = n.right ∧ (word 2).extractLsb' 25 7 = 0
        ∧ word 3 = 0)

/-- 20_memory R49: the CODE window: len and valid in word 0, the code value in words 1 to 8, low word first, 0 above. -/
def Obligations.CodeWindowShowsTheCodes : Prop :=
  ∀ (s : State) (b : Byte), s.seq = .idle →
    let c := Table.read s.codes b
    let word (w : Nat) : Word := (busRead (BitVec.ofNat 32 (0x4000 + 64 * b.toNat + 4 * w)) s).1
    (word 0).extractLsb' 0 8 = c.len ∧ (word 0).getLsbD 8 = c.valid ∧ (word 0).extractLsb' 9 23 = 0
    ∧ (∀ w, 1 ≤ w → w ≤ 8 → ∀ j < 32, (word w).getLsbD j = c.bits.getLsbD (32 * (w - 1) + j))
    ∧ (∀ w, 9 ≤ w → w ≤ 15 → word w = 0)

/-- 20_memory R50: the IN window: a word reads and writes the four bytes of its lanes, the lowest offset in bits 7:0, and
a write changes no other byte and nothing else. -/
def Obligations.InWindowReadsAndWritesFourBytes : Prop :=
  ∀ (s : State) (j : Nat) (data : Word), s.params.legal = true → s.seq = .idle → 4 * j < s.params.inCap →
    let addr := BitVec.ofNat 32 (0x01000000 + 4 * j)
    let t := busWrite addr data s
    (busRead addr s).2 = s
    ∧ (busRead addr s).1.toNat = (inByte s (4 * j)).toNat + (inByte s (4 * j + 1)).toNat * 2 ^ 8
        + (inByte s (4 * j + 2)).toNat * 2 ^ 16 + (inByte s (4 * j + 3)).toNat * 2 ^ 24
    ∧ inByte t (4 * j) = data.extractLsb' 0 8 ∧ inByte t (4 * j + 1) = data.extractLsb' 8 8
    ∧ inByte t (4 * j + 2) = data.extractLsb' 16 8 ∧ inByte t (4 * j + 3) = data.extractLsb' 24 8
    ∧ (∀ k, k < 4 * j ∨ 4 * j + 4 ≤ k → inByte t k = inByte s k)
    ∧ { t with inBuf := s.inBuf } = s

/-- 20_memory R51: the OUT window: a word reads the four bytes of its lanes, with every byte at or above OUT_LEN read
as 0. -/
def Obligations.OutWindowHidesBytesFromOutLen : Prop :=
  ∀ (s : State) (j : Nat), s.params.legal = true → s.seq = .idle → 4 * j < s.params.outCap →
    let shown (k : Nat) : Nat := if k < s.outLen.toNat then (outByte s k).toNat else 0
    let r := busRead (BitVec.ofNat 32 (0x02000000 + 4 * j)) s
    r.2 = s
    ∧ r.1.toNat = shown (4 * j) + shown (4 * j + 1) * 2 ^ 8 + shown (4 * j + 2) * 2 ^ 16 + shown (4 * j + 3) * 2 ^ 24
    ∧ (s.outLen = 0 → r.1 = 0)

/-- 70 R192, 10_state R21, R24, R29: no bus write, whatever its address, changes the tree, the codes, the output or the
capacities: a host that changes FT still has the old tree. -/
def Obligations.BusWritesLeaveTreeCodesAndOutput : Prop :=
  ∀ (s : State) (addr data : Word), let t := busWrite addr data s
    t.nodes = s.nodes ∧ t.root = s.root ∧ t.nodeCount = s.nodeCount ∧ t.status.treeValid = s.status.treeValid
    ∧ t.codes = s.codes ∧ t.status.codesValid = s.status.codesValid ∧ (∀ k, outByte t k = outByte s k)
    ∧ t.outLen = s.outLen ∧ t.padOut = s.padOut ∧ t.hidden = s.hidden ∧ t.params = s.params

/-- 20_memory R60: while a command runs the host can change none of its inputs, nor the command: it computes on exactly
the state present when its CMD write was accepted. -/
def Obligations.HostCannotChangeARunningCommand : Prop :=
  ∀ s : State, s.seq = .busy → let t := hostStep s
    t.seq = .busy ∧ t.cmdl = s.cmdl ∧ t.ft = s.ft ∧ t.inLen = s.inLen ∧ t.padIn = s.padIn
    ∧ (∀ k, inByte t k = inByte s k) ∧ t.nodes = s.nodes ∧ t.root = s.root ∧ t.nodeCount = s.nodeCount
    ∧ t.status.treeValid = s.status.treeValid ∧ t.codes = s.codes ∧ t.params = s.params

/-- 30_encoding R77, the five pseudo-instructions: POLL ends when bit 0 of STATUS reads 0; RUN writes its command's word to
CMD and then polls; LOADFT loads one entry; LOADIN loads its bytes and IN_LEN; EXPECT reads its address, and the run
fails if another word comes. The model's choices in it (log entry 13): POLL reads STATUS once per host step, and an
EXPECT that is not met sets env.failed and lets the program go on. -/
def Obligations.PseudoInstructionsDoWhatTheyExpandTo : Prop :=
  (∀ (s : State) (rest : List HostOp), s.seq = .idle → s.status.busy = false → s.env.program = .poll :: rest →
    hostStep s = setProgram rest s)
  ∧ (∀ (s : State) (rest : List HostOp), s.status.busy = true → s.env.program = .poll :: rest → hostStep s = s)
  ∧ (∀ (s : State) (i : Instr) (rest : List HostOp), s.seq = .idle →
      s.env.program = (HostStmt.run (.mnemonic i)).expand ++ rest →
      hostStep s = setProgram (.poll :: rest) (acceptCommand (encode i) s))
  ∧ (∀ (s : State) (addr : HostAddr) (value : HostValue) (rest : List HostOp),
      s.env.program = (HostStmt.expect addr value).expand ++ rest →
      let r := busRead addr.address s
      hostStep s = setProgram rest
        { r.2 with env := { r.2.env with failed := if r.1 = value.word then r.2.env.failed else true } })
  ∧ (∀ (s : State) (b : Byte) (count : Word), s.seq = .idle →
      Table.read (((HostStmt.loadFt b count).expand.foldl (fun u op => hostAct op [] u) s).ft) b
        = { present := true, count := count })
  ∧ (∀ (s : State) (bytes : List Byte), s.params.legal = true → s.seq = .idle → bytes.length ≤ s.params.inCap →
      let t := (HostStmt.loadIn bytes).expand.foldl (fun u op => hostAct op [] u) s
      t.inLen.toNat = bytes.length ∧ ∀ k b, bytes[k]? = some b → inByte t k = b)

/-! ### The whole machine -/

/-- The state after reset meets the invariant, for every legal pair of capacities (00_scope R5), and so does State.reset. The
model's choices in it: the capacities of State.reset (log entry 1), and the contents of NODE, which 10_state R42 leaves
unspecified after reset and the model keeps blank (log entry 9); on that rest the invariant's clauses that every entry
has the shape of 10_state R22 and that entry 511 is blank. -/
def Obligations.ResetMeetsTheInvariant : Prop :=
  (∀ p : Params, p.legal = true → (State.resetWith p).Inv) ∧ State.reset.Inv

/-- Every step keeps the invariant, whoever moves: legal capacities (00_scope R5), legal STATUS (10_state R30, R31, R34),
the tree of R40 or none (R23), its codes or none (R25, R41), canonical buffers inside their capacities, every byte below
OUT_LEN written, nothing in the hidden registers between commands (R37 to R39); and of the arena that each of its 512
entries has the shape of R22 and that entry 511 is blank, which R21 says is never written. After a hardware reset these
two clauses hold by the model's choice to keep NODE blank (log entry 9), where R42 leaves it unspecified. -/
def Obligations.StepKeepsTheInvariant : Prop :=
  ∀ s t : State, s.Inv → step s = .next t → t.Inv

/-- 40_control R91, 70 R196: from a state that meets the invariant no step stops: every command and every host action
answers a next state. -/
def Obligations.StepNeverStops : Prop :=
  ∀ s : State, s.Inv → ∃ t, step s = .next t

/-- 70 R180, R196: a running command completes after whatever number n of host actions the interleaving puts before it
(the list of turns is the model's, log entry 7), and its result is that of the state those actions left. -/
def Obligations.BusyCommandCompletesAfterHostTurns : Prop :=
  ∀ (s : State) (n : Nat), s.Inv → s.seq = .busy → s.env.turns = List.replicate n .host →
    ∃ u t, Sys2Proof.core.run n s = .next u ∧ u.seq = .busy ∧ u.cmdl = s.cmdl
      ∧ Sys2Proof.core.run (n + 1) s = .next t ∧ blockStep u = .next t ∧ t.seq = .idle ∧ t.status.done = true
end

