-- ==== Sys2Proof/Laws/Memory.lean ====
section
/-! SUPPORT. The laws of tables, byte buffers and bit-strings: read after write, the canonical form of a buffer and that
every operation keeps it, and that bitsOf and valOf are inverse. -/

namespace Sys2Proof.Machine

/-! ### Tables -/

theorem Table.read_write {w : Nat} {α : Type} (t : Table w α) (i j : BitVec w) (x : α) :
    Table.read (Table.write t i x) j = if i = j then x else Table.read t j := by
  unfold Table.read Table.write
  rw [Vector.getElem_set]
  simp only [BitVec.toNat_inj]

@[simp] theorem Table.read_write_same {w : Nat} {α : Type} (t : Table w α) (i : BitVec w) (x : α) :
    Table.read (Table.write t i x) i = x := by simp [Table.read_write]

theorem Table.read_write_other {w : Nat} {α : Type} (t : Table w α) {i j : BitVec w} (x : α) (h : i ≠ j) :
    Table.read (Table.write t i x) j = Table.read t j := by simp [Table.read_write, h]

@[simp] theorem Table.read_fill {w : Nat} {α : Type} (x : α) (i : BitVec w) :
    Table.read (Table.fill w x) i = x := by simp [Table.read, Table.fill]

/-- Two tables that read alike are equal. -/
theorem Table.ext_read {w : Nat} {α : Type} {t u : Table w α} (h : ∀ i, Table.read t i = Table.read u i) : t = u := by
  apply Vector.ext
  intro i hi
  have := h (BitVec.ofNat w i)
  simpa [Table.read, Nat.mod_eq_of_lt hi] using this

/-! ### Byte buffers -/

theorem Memory.read_write (m : Memory) (k j : Nat) (b : Byte) :
    Memory.read (Memory.write m k b) j = if k = j then some b else Memory.read m j := by
  induction m with
  | nil => simp [Memory.write, Memory.read]
  | cons c m ih =>
    simp only [Memory.write]
    split
    · simp [Memory.read]
    · split
      · rename_i h; subst h; simp [Memory.read]; split <;> simp_all
      · simp only [Memory.read, ih]
        by_cases hj : c.1 = j
        · subst hj; simp_all
        · simp [hj]

@[simp] theorem Memory.read_write_same (m : Memory) (k : Nat) (b : Byte) :
    Memory.read (Memory.write m k b) k = some b := by simp [Memory.read_write]

theorem Memory.read_write_other (m : Memory) {k j : Nat} (b : Byte) (h : k ≠ j) :
    Memory.read (Memory.write m k b) j = Memory.read m j := by simp [Memory.read_write, h]

/-- A write adds one entry and no other. -/
theorem Memory.mem_write {m : Memory} {k : Nat} {b : Byte} {c : Host.Cell} (h : c ∈ Memory.write m k b) :
    c = (k, b) ∨ c ∈ m := by
  induction m with
  | nil => simpa [Memory.write] using h
  | cons e m ih =>
    simp only [Memory.write] at h
    split at h
    · simpa using h
    · split at h
      · rcases List.mem_cons.mp h with h | h
        · exact .inl h
        · exact .inr (List.mem_cons_of_mem _ h)
      · rcases List.mem_cons.mp h with h | h
        · exact .inr (h ▸ List.mem_cons_self)
        · exact (ih h).imp id (List.mem_cons_of_mem _)

/-- The empty buffer, that of reset, is canonical. -/
theorem Memory.wf_nil : Memory.wf [] := List.Pairwise.nil

/-- Every write keeps the canonical form. -/
theorem Memory.write_wf {m : Memory} (h : Memory.wf m) (k : Nat) (b : Byte) : Memory.wf (Memory.write m k b) := by
  induction m with
  | nil => simp [Memory.write, Memory.wf]
  | cons c m ih =>
    obtain ⟨hc, hm⟩ := List.pairwise_cons.mp h
    simp only [Memory.write]
    split
    · rename_i hk
      refine List.pairwise_cons.mpr ⟨fun e he => ?_, h⟩
      rcases List.mem_cons.mp he with rfl | he
      · exact hk
      · exact Nat.lt_trans hk (hc e he)
    · split
      · rename_i hk
        exact List.pairwise_cons.mpr ⟨fun e he => hk ▸ hc e he, hm⟩
      · rename_i h₁ h₂
        refine List.pairwise_cons.mpr ⟨fun e he => ?_, ih hm⟩
        rcases Memory.mem_write he with rfl | he
        · show c.1 < k; omega
        · exact hc e he

/-- Bounds on the offsets are kept by a write inside them. -/
theorem Memory.write_bound {m : Memory} {n : Nat} (h : ∀ c ∈ m, c.1 < n) {k : Nat} (hk : k < n) (b : Byte) :
    ∀ c ∈ Memory.write m k b, c.1 < n := fun c hc => by
  rcases Memory.mem_write hc with rfl | hc
  · exact hk
  · exact h c hc

theorem Memory.read_none_of_lt {m : Memory} {k : Nat} (h : ∀ c ∈ m, k < c.1) : Memory.read m k = none := by
  induction m with
  | nil => rfl
  | cons c m ih =>
    have hc := h c List.mem_cons_self
    simp [Memory.read, Nat.ne_of_gt hc, ih fun e he => h e (List.mem_cons_of_mem _ he)]

/-- The form is canonical: two buffers in it that read alike are the same list. -/
theorem Memory.eq_of_read_eq {m n : Memory} (hm : Memory.wf m) (hn : Memory.wf n)
    (h : ∀ k, Memory.read m k = Memory.read n k) : m = n := by
  induction m generalizing n with
  | nil =>
    cases n with
    | nil => rfl
    | cons d n => simpa [Memory.read] using h d.1
  | cons c m ih =>
    obtain ⟨hc, hm⟩ := List.pairwise_cons.mp hm
    cases n with
    | nil => simpa [Memory.read] using h c.1
    | cons d n =>
      obtain ⟨hd, hn⟩ := List.pairwise_cons.mp hn
      have key : c.1 = d.1 := by
        by_contra hne
        rcases Nat.lt_or_gt_of_ne hne with hlt | hlt
        · have := h c.1
          rw [Memory.read_none_of_lt (m := d :: n)] at this
          · simp [Memory.read] at this
          · intro e he
            rcases List.mem_cons.mp he with rfl | he
            · exact hlt
            · exact Nat.lt_trans hlt (hd e he)
        · have := h d.1
          rw [Memory.read_none_of_lt (m := c :: m)] at this
          · simp [Memory.read] at this
          · intro e he
            rcases List.mem_cons.mp he with rfl | he
            · exact hlt
            · exact Nat.lt_trans hlt (hc e he)
      have val : c.2 = d.2 := by simpa [Memory.read, key] using h c.1
      have tail : m = n := ih hm hn fun k => by
        by_cases hk : c.1 = k
        · rw [Memory.read_none_of_lt fun e he => hk ▸ hc e he,
            Memory.read_none_of_lt fun e he => hk ▸ key ▸ hd e he]
        · simpa [Memory.read, hk, key ▸ hk] using h k
      rw [tail, show c = d from Prod.ext key val]

/-! ### Bit-strings -/

@[simp] theorem bitsOf_length (v n : Nat) : (bitsOf v n).length = n := by
  induction n with
  | zero => rfl
  | succ n ih => simp [bitsOf, ih]

theorem codeBits_length (c : CodeEntry) : (codeBits c).length = c.len.toNat := bitsOf_length _ _

theorem valOf_lt (s : List Bool) : valOf s < 2 ^ s.length := by
  induction s with
  | nil => simp [valOf]
  | cons b s ih =>
    have hb : b.toNat ≤ 1 := by cases b <;> simp
    have : b.toNat * 2 ^ s.length ≤ 1 * 2 ^ s.length := Nat.mul_le_mul_right _ hb
    simp only [valOf, List.length_cons, Nat.pow_succ]
    omega

/-- A number is its low n bits and its bit n. -/
theorem mod_two_pow_succ_bit (v n : Nat) : v % 2 ^ (n + 1) = (v.testBit n).toNat * 2 ^ n + v % 2 ^ n := by
  rw [Nat.mod_pow_succ, Nat.testBit_eq_decide_div_mod_eq]
  have h := Nat.mod_two_eq_zero_or_one (v / 2 ^ n)
  rcases h with h | h <;> (simp [h]; try omega)

theorem valOf_bitsOf (v n : Nat) : valOf (bitsOf v n) = v % 2 ^ n := by
  induction n with
  | zero => simp [bitsOf, valOf, Nat.mod_one]
  | succ n ih => simp only [bitsOf, valOf, bitsOf_length, ih, mod_two_pow_succ_bit]

/-- bitsOf only reads the low n bits. -/
theorem bitsOf_mod (v n k : Nat) (h : n ≤ k) : bitsOf (v % 2 ^ k) n = bitsOf v n := by
  induction n with
  | zero => rfl
  | succ n ih =>
    have : n < k := h
    simp [bitsOf, Nat.testBit_mod_two_pow, this, ih (Nat.le_of_succ_le h)]

theorem bitsOf_valOf (s : List Bool) : bitsOf (valOf s) s.length = s := by
  induction s with
  | nil => rfl
  | cons b s ih =>
    have hlt := valOf_lt s
    have h₁ : (b.toNat * 2 ^ s.length + valOf s).testBit s.length = b := by
      rw [Nat.testBit_eq_decide_div_mod_eq, Nat.mul_comm, Nat.mul_add_div (Nat.two_pow_pos _),
        Nat.div_eq_of_lt hlt]
      cases b <;> simp
    have h₂ : (b.toNat * 2 ^ s.length + valOf s) % 2 ^ s.length = valOf s := by
      rw [Nat.mul_comm, Nat.mul_add_mod, Nat.mod_eq_of_lt hlt]
    simp only [valOf, List.length_cons, bitsOf, h₁]
    rw [← bitsOf_mod _ _ _ (Nat.le_refl _), h₂, ih]

end Sys2Proof.Machine
end

