-- ==== Sys2Proof/Laws/State.lean ====
section
/-! SUPPORT. One lemma per field per update of State: what the shared operations write and what they leave. -/

namespace Sys2Proof.Machine

/-! ### complete (60_exceptions R161) -/

@[simp] theorem complete_params (s : State) : (complete s).params = s.params := rfl
@[simp] theorem complete_ft (s : State) : (complete s).ft = s.ft := rfl
@[simp] theorem complete_nodes (s : State) : (complete s).nodes = s.nodes := rfl
@[simp] theorem complete_root (s : State) : (complete s).root = s.root := rfl
@[simp] theorem complete_nodeCount (s : State) : (complete s).nodeCount = s.nodeCount := rfl
@[simp] theorem complete_codes (s : State) : (complete s).codes = s.codes := rfl
@[simp] theorem complete_inBuf (s : State) : (complete s).inBuf = s.inBuf := rfl
@[simp] theorem complete_inLen (s : State) : (complete s).inLen = s.inLen := rfl
@[simp] theorem complete_padIn (s : State) : (complete s).padIn = s.padIn := rfl
@[simp] theorem complete_outBuf (s : State) : (complete s).outBuf = s.outBuf := rfl
@[simp] theorem complete_outLen (s : State) : (complete s).outLen = s.outLen := rfl
@[simp] theorem complete_padOut (s : State) : (complete s).padOut = s.padOut := rfl
@[simp] theorem complete_status (s : State) : (complete s).status = s.status.complete := rfl
@[simp] theorem complete_errInfo (s : State) : (complete s).errInfo = 0 := rfl
@[simp] theorem complete_cmdl (s : State) : (complete s).cmdl = s.cmdl := rfl
@[simp] theorem complete_seq (s : State) : (complete s).seq = .idle := rfl
@[simp] theorem complete_hidden (s : State) : (complete s).hidden = Hidden.empty := rfl
@[simp] theorem complete_epoch (s : State) : (complete s).epoch = s.epoch := rfl
@[simp] theorem complete_draws (s : State) : (complete s).draws = s.draws := rfl
@[simp] theorem complete_env (s : State) : (complete s).env = s.env := rfl

/-! ### raiseError (60_exceptions R162) -/

@[simp] theorem raiseError_params (i : Option Instr) (e : ErrKind) (n : Nat) (s : State) :
    (raiseError i e n s).params = s.params := rfl
@[simp] theorem raiseError_ft (i : Option Instr) (e : ErrKind) (n : Nat) (s : State) :
    (raiseError i e n s).ft = s.ft := rfl
@[simp] theorem raiseError_nodes (i : Option Instr) (e : ErrKind) (n : Nat) (s : State) :
    (raiseError i e n s).nodes = s.nodes := rfl
@[simp] theorem raiseError_root (i : Option Instr) (e : ErrKind) (n : Nat) (s : State) :
    (raiseError i e n s).root = s.root := rfl
@[simp] theorem raiseError_nodeCount (i : Option Instr) (e : ErrKind) (n : Nat) (s : State) :
    (raiseError i e n s).nodeCount = s.nodeCount := rfl
@[simp] theorem raiseError_codes (i : Option Instr) (e : ErrKind) (n : Nat) (s : State) :
    (raiseError i e n s).codes = s.codes := rfl
@[simp] theorem raiseError_inBuf (i : Option Instr) (e : ErrKind) (n : Nat) (s : State) :
    (raiseError i e n s).inBuf = s.inBuf := rfl
@[simp] theorem raiseError_inLen (i : Option Instr) (e : ErrKind) (n : Nat) (s : State) :
    (raiseError i e n s).inLen = s.inLen := rfl
@[simp] theorem raiseError_padIn (i : Option Instr) (e : ErrKind) (n : Nat) (s : State) :
    (raiseError i e n s).padIn = s.padIn := rfl
@[simp] theorem raiseError_outBuf (i : Option Instr) (e : ErrKind) (n : Nat) (s : State) :
    (raiseError i e n s).outBuf = s.outBuf := rfl
@[simp] theorem raiseError_outLen (i : Option Instr) (e : ErrKind) (n : Nat) (s : State) :
    (raiseError i e n s).outLen = if clearsOutput i then 0 else s.outLen := rfl
@[simp] theorem raiseError_padOut (i : Option Instr) (e : ErrKind) (n : Nat) (s : State) :
    (raiseError i e n s).padOut = if clearsOutput i then 0 else s.padOut := rfl
@[simp] theorem raiseError_status (i : Option Instr) (e : ErrKind) (n : Nat) (s : State) :
    (raiseError i e n s).status = s.status.fail e := rfl
@[simp] theorem raiseError_errInfo (i : Option Instr) (e : ErrKind) (n : Nat) (s : State) :
    (raiseError i e n s).errInfo = BitVec.ofNat 32 n := rfl
@[simp] theorem raiseError_cmdl (i : Option Instr) (e : ErrKind) (n : Nat) (s : State) :
    (raiseError i e n s).cmdl = s.cmdl := rfl
@[simp] theorem raiseError_seq (i : Option Instr) (e : ErrKind) (n : Nat) (s : State) :
    (raiseError i e n s).seq = .idle := rfl
@[simp] theorem raiseError_hidden (i : Option Instr) (e : ErrKind) (n : Nat) (s : State) :
    (raiseError i e n s).hidden = Hidden.empty := rfl
@[simp] theorem raiseError_epoch (i : Option Instr) (e : ErrKind) (n : Nat) (s : State) :
    (raiseError i e n s).epoch = s.epoch := rfl
@[simp] theorem raiseError_draws (i : Option Instr) (e : ErrKind) (n : Nat) (s : State) :
    (raiseError i e n s).draws = s.draws := rfl
@[simp] theorem raiseError_env (i : Option Instr) (e : ErrKind) (n : Nat) (s : State) :
    (raiseError i e n s).env = s.env := rfl

/-! ### acceptCommand (40_control R90) -/

@[simp] theorem acceptCommand_params (w : Word) (s : State) : (acceptCommand w s).params = s.params := rfl
@[simp] theorem acceptCommand_ft (w : Word) (s : State) : (acceptCommand w s).ft = s.ft := rfl
@[simp] theorem acceptCommand_nodes (w : Word) (s : State) : (acceptCommand w s).nodes = s.nodes := rfl
@[simp] theorem acceptCommand_root (w : Word) (s : State) : (acceptCommand w s).root = s.root := rfl
@[simp] theorem acceptCommand_nodeCount (w : Word) (s : State) : (acceptCommand w s).nodeCount = s.nodeCount := rfl
@[simp] theorem acceptCommand_codes (w : Word) (s : State) : (acceptCommand w s).codes = s.codes := rfl
@[simp] theorem acceptCommand_inBuf (w : Word) (s : State) : (acceptCommand w s).inBuf = s.inBuf := rfl
@[simp] theorem acceptCommand_inLen (w : Word) (s : State) : (acceptCommand w s).inLen = s.inLen := rfl
@[simp] theorem acceptCommand_padIn (w : Word) (s : State) : (acceptCommand w s).padIn = s.padIn := rfl
@[simp] theorem acceptCommand_outBuf (w : Word) (s : State) : (acceptCommand w s).outBuf = s.outBuf := rfl
@[simp] theorem acceptCommand_outLen (w : Word) (s : State) : (acceptCommand w s).outLen = s.outLen := rfl
@[simp] theorem acceptCommand_padOut (w : Word) (s : State) : (acceptCommand w s).padOut = s.padOut := rfl
@[simp] theorem acceptCommand_status (w : Word) (s : State) : (acceptCommand w s).status = s.status.accept := rfl
@[simp] theorem acceptCommand_errInfo (w : Word) (s : State) : (acceptCommand w s).errInfo = 0 := rfl
@[simp] theorem acceptCommand_cmdl (w : Word) (s : State) : (acceptCommand w s).cmdl = w := rfl
@[simp] theorem acceptCommand_seq (w : Word) (s : State) : (acceptCommand w s).seq = .busy := rfl
@[simp] theorem acceptCommand_hidden (w : Word) (s : State) : (acceptCommand w s).hidden = s.hidden := rfl
@[simp] theorem acceptCommand_epoch (w : Word) (s : State) : (acceptCommand w s).epoch = s.epoch := rfl
@[simp] theorem acceptCommand_draws (w : Word) (s : State) : (acceptCommand w s).draws = s.draws := rfl
@[simp] theorem acceptCommand_env (w : Word) (s : State) : (acceptCommand w s).env = s.env := rfl

/-! ### clearFt (40_control R94) -/

@[simp] theorem clearFt_params (s : State) : (clearFt s).params = s.params := rfl
@[simp] theorem clearFt_ft (s : State) : (clearFt s).ft = Table.fill 8 FtEntry.clear := rfl
@[simp] theorem clearFt_nodes (s : State) : (clearFt s).nodes = s.nodes := rfl
@[simp] theorem clearFt_root (s : State) : (clearFt s).root = s.root := rfl
@[simp] theorem clearFt_nodeCount (s : State) : (clearFt s).nodeCount = s.nodeCount := rfl
@[simp] theorem clearFt_codes (s : State) : (clearFt s).codes = s.codes := rfl
@[simp] theorem clearFt_inBuf (s : State) : (clearFt s).inBuf = s.inBuf := rfl
@[simp] theorem clearFt_inLen (s : State) : (clearFt s).inLen = s.inLen := rfl
@[simp] theorem clearFt_padIn (s : State) : (clearFt s).padIn = s.padIn := rfl
@[simp] theorem clearFt_outBuf (s : State) : (clearFt s).outBuf = s.outBuf := rfl
@[simp] theorem clearFt_outLen (s : State) : (clearFt s).outLen = s.outLen := rfl
@[simp] theorem clearFt_padOut (s : State) : (clearFt s).padOut = s.padOut := rfl
@[simp] theorem clearFt_status (s : State) : (clearFt s).status = s.status := rfl
@[simp] theorem clearFt_errInfo (s : State) : (clearFt s).errInfo = s.errInfo := rfl
@[simp] theorem clearFt_cmdl (s : State) : (clearFt s).cmdl = s.cmdl := rfl
@[simp] theorem clearFt_seq (s : State) : (clearFt s).seq = s.seq := rfl
@[simp] theorem clearFt_hidden (s : State) : (clearFt s).hidden = s.hidden := rfl
@[simp] theorem clearFt_epoch (s : State) : (clearFt s).epoch = s.epoch := rfl
@[simp] theorem clearFt_draws (s : State) : (clearFt s).draws = s.draws := rfl
@[simp] theorem clearFt_env (s : State) : (clearFt s).env = s.env := rfl

/-! ### invalidate (41_tree_builder R102) -/

@[simp] theorem invalidate_params (s : State) : (invalidate s).params = s.params := rfl
@[simp] theorem invalidate_ft (s : State) : (invalidate s).ft = s.ft := rfl
@[simp] theorem invalidate_nodes (s : State) : (invalidate s).nodes = s.nodes := rfl
@[simp] theorem invalidate_root (s : State) : (invalidate s).root = 0 := rfl
@[simp] theorem invalidate_nodeCount (s : State) : (invalidate s).nodeCount = 0 := rfl
@[simp] theorem invalidate_codes (s : State) : (invalidate s).codes = Table.fill 8 CodeEntry.clear := rfl
@[simp] theorem invalidate_inBuf (s : State) : (invalidate s).inBuf = s.inBuf := rfl
@[simp] theorem invalidate_inLen (s : State) : (invalidate s).inLen = s.inLen := rfl
@[simp] theorem invalidate_padIn (s : State) : (invalidate s).padIn = s.padIn := rfl
@[simp] theorem invalidate_outBuf (s : State) : (invalidate s).outBuf = s.outBuf := rfl
@[simp] theorem invalidate_outLen (s : State) : (invalidate s).outLen = s.outLen := rfl
@[simp] theorem invalidate_padOut (s : State) : (invalidate s).padOut = s.padOut := rfl
@[simp] theorem invalidate_status (s : State) :
    (invalidate s).status = { s.status with treeValid := false, codesValid := false } := rfl
@[simp] theorem invalidate_errInfo (s : State) : (invalidate s).errInfo = s.errInfo := rfl
@[simp] theorem invalidate_cmdl (s : State) : (invalidate s).cmdl = s.cmdl := rfl
@[simp] theorem invalidate_seq (s : State) : (invalidate s).seq = s.seq := rfl
@[simp] theorem invalidate_hidden (s : State) : (invalidate s).hidden = s.hidden := rfl
@[simp] theorem invalidate_epoch (s : State) : (invalidate s).epoch = s.epoch := rfl
@[simp] theorem invalidate_draws (s : State) : (invalidate s).draws = s.draws := rfl
@[simp] theorem invalidate_env (s : State) : (invalidate s).env = s.env := rfl

/-! ### State.withDatapath (10_state R38, R39) -/

@[simp] theorem State.withDatapath_params (s : State) (d : Datapath) : (s.withDatapath d).params = s.params := rfl
@[simp] theorem State.withDatapath_ft (s : State) (d : Datapath) : (s.withDatapath d).ft = s.ft := rfl
@[simp] theorem State.withDatapath_nodes (s : State) (d : Datapath) : (s.withDatapath d).nodes = s.nodes := rfl
@[simp] theorem State.withDatapath_root (s : State) (d : Datapath) : (s.withDatapath d).root = s.root := rfl
@[simp] theorem State.withDatapath_nodeCount (s : State) (d : Datapath) :
    (s.withDatapath d).nodeCount = s.nodeCount := rfl
@[simp] theorem State.withDatapath_codes (s : State) (d : Datapath) : (s.withDatapath d).codes = s.codes := rfl
@[simp] theorem State.withDatapath_inBuf (s : State) (d : Datapath) : (s.withDatapath d).inBuf = s.inBuf := rfl
@[simp] theorem State.withDatapath_inLen (s : State) (d : Datapath) : (s.withDatapath d).inLen = s.inLen := rfl
@[simp] theorem State.withDatapath_padIn (s : State) (d : Datapath) : (s.withDatapath d).padIn = s.padIn := rfl
@[simp] theorem State.withDatapath_outBuf (s : State) (d : Datapath) : (s.withDatapath d).outBuf = d.out := rfl
@[simp] theorem State.withDatapath_outLen (s : State) (d : Datapath) : (s.withDatapath d).outLen = s.outLen := rfl
@[simp] theorem State.withDatapath_padOut (s : State) (d : Datapath) : (s.withDatapath d).padOut = s.padOut := rfl
@[simp] theorem State.withDatapath_status (s : State) (d : Datapath) : (s.withDatapath d).status = s.status := rfl
@[simp] theorem State.withDatapath_errInfo (s : State) (d : Datapath) : (s.withDatapath d).errInfo = s.errInfo := rfl
@[simp] theorem State.withDatapath_cmdl (s : State) (d : Datapath) : (s.withDatapath d).cmdl = s.cmdl := rfl
@[simp] theorem State.withDatapath_seq (s : State) (d : Datapath) : (s.withDatapath d).seq = s.seq := rfl
@[simp] theorem State.withDatapath_hidden (s : State) (d : Datapath) : (s.withDatapath d).hidden = d.hidden := rfl
@[simp] theorem State.withDatapath_epoch (s : State) (d : Datapath) : (s.withDatapath d).epoch = s.epoch := rfl
@[simp] theorem State.withDatapath_draws (s : State) (d : Datapath) : (s.withDatapath d).draws = s.draws := rfl
@[simp] theorem State.withDatapath_env (s : State) (d : Datapath) : (s.withDatapath d).env = s.env := rfl

/-! ### withBuilder (41_tree_builder R101) -/

@[simp] theorem withBuilder_params (s : State) (b : Builder) : (withBuilder s b).params = s.params := rfl
@[simp] theorem withBuilder_ft (s : State) (b : Builder) : (withBuilder s b).ft = s.ft := rfl
@[simp] theorem withBuilder_nodes (s : State) (b : Builder) : (withBuilder s b).nodes = b.nodes := rfl
@[simp] theorem withBuilder_root (s : State) (b : Builder) : (withBuilder s b).root = s.root := rfl
@[simp] theorem withBuilder_nodeCount (s : State) (b : Builder) : (withBuilder s b).nodeCount = s.nodeCount := rfl
@[simp] theorem withBuilder_codes (s : State) (b : Builder) : (withBuilder s b).codes = s.codes := rfl
@[simp] theorem withBuilder_inBuf (s : State) (b : Builder) : (withBuilder s b).inBuf = s.inBuf := rfl
@[simp] theorem withBuilder_inLen (s : State) (b : Builder) : (withBuilder s b).inLen = s.inLen := rfl
@[simp] theorem withBuilder_padIn (s : State) (b : Builder) : (withBuilder s b).padIn = s.padIn := rfl
@[simp] theorem withBuilder_outBuf (s : State) (b : Builder) : (withBuilder s b).outBuf = s.outBuf := rfl
@[simp] theorem withBuilder_outLen (s : State) (b : Builder) : (withBuilder s b).outLen = s.outLen := rfl
@[simp] theorem withBuilder_padOut (s : State) (b : Builder) : (withBuilder s b).padOut = s.padOut := rfl
@[simp] theorem withBuilder_status (s : State) (b : Builder) : (withBuilder s b).status = s.status := rfl
@[simp] theorem withBuilder_errInfo (s : State) (b : Builder) : (withBuilder s b).errInfo = s.errInfo := rfl
@[simp] theorem withBuilder_cmdl (s : State) (b : Builder) : (withBuilder s b).cmdl = s.cmdl := rfl
@[simp] theorem withBuilder_seq (s : State) (b : Builder) : (withBuilder s b).seq = s.seq := rfl
@[simp] theorem withBuilder_hidden (s : State) (b : Builder) :
    (withBuilder s b).hidden = { s.hidden with q := b.q } := rfl
@[simp] theorem withBuilder_epoch (s : State) (b : Builder) : (withBuilder s b).epoch = s.epoch := rfl
@[simp] theorem withBuilder_draws (s : State) (b : Builder) : (withBuilder s b).draws = s.draws := rfl
@[simp] theorem withBuilder_env (s : State) (b : Builder) : (withBuilder s b).env = s.env := rfl

/-! ### publishTree (41_tree_builder R109) -/

@[simp] theorem publishTree_params (n : Nat) (s : State) : (publishTree n s).params = s.params := rfl
@[simp] theorem publishTree_ft (n : Nat) (s : State) : (publishTree n s).ft = s.ft := rfl
@[simp] theorem publishTree_nodes (n : Nat) (s : State) : (publishTree n s).nodes = s.nodes := rfl
@[simp] theorem publishTree_root (n : Nat) (s : State) : (publishTree n s).root = BitVec.ofNat 9 (n - 1) := rfl
@[simp] theorem publishTree_nodeCount (n : Nat) (s : State) : (publishTree n s).nodeCount = BitVec.ofNat 10 n := rfl
@[simp] theorem publishTree_codes (n : Nat) (s : State) : (publishTree n s).codes = s.codes := rfl
@[simp] theorem publishTree_inBuf (n : Nat) (s : State) : (publishTree n s).inBuf = s.inBuf := rfl
@[simp] theorem publishTree_inLen (n : Nat) (s : State) : (publishTree n s).inLen = s.inLen := rfl
@[simp] theorem publishTree_padIn (n : Nat) (s : State) : (publishTree n s).padIn = s.padIn := rfl
@[simp] theorem publishTree_outBuf (n : Nat) (s : State) : (publishTree n s).outBuf = s.outBuf := rfl
@[simp] theorem publishTree_outLen (n : Nat) (s : State) : (publishTree n s).outLen = s.outLen := rfl
@[simp] theorem publishTree_padOut (n : Nat) (s : State) : (publishTree n s).padOut = s.padOut := rfl
@[simp] theorem publishTree_status (n : Nat) (s : State) :
    (publishTree n s).status = { s.status with treeValid := true } := rfl
@[simp] theorem publishTree_errInfo (n : Nat) (s : State) : (publishTree n s).errInfo = s.errInfo := rfl
@[simp] theorem publishTree_cmdl (n : Nat) (s : State) : (publishTree n s).cmdl = s.cmdl := rfl
@[simp] theorem publishTree_seq (n : Nat) (s : State) : (publishTree n s).seq = s.seq := rfl
@[simp] theorem publishTree_hidden (n : Nat) (s : State) : (publishTree n s).hidden = s.hidden := rfl
@[simp] theorem publishTree_epoch (n : Nat) (s : State) : (publishTree n s).epoch = s.epoch := rfl
@[simp] theorem publishTree_draws (n : Nat) (s : State) : (publishTree n s).draws = s.draws := rfl
@[simp] theorem publishTree_env (n : Nat) (s : State) : (publishTree n s).env = s.env := rfl

/-! ### publishCodes (42_code_mapper R121) -/

@[simp] theorem publishCodes_params (c : Table 8 CodeEntry) (s : State) : (publishCodes c s).params = s.params := rfl
@[simp] theorem publishCodes_ft (c : Table 8 CodeEntry) (s : State) : (publishCodes c s).ft = s.ft := rfl
@[simp] theorem publishCodes_nodes (c : Table 8 CodeEntry) (s : State) : (publishCodes c s).nodes = s.nodes := rfl
@[simp] theorem publishCodes_root (c : Table 8 CodeEntry) (s : State) : (publishCodes c s).root = s.root := rfl
@[simp] theorem publishCodes_nodeCount (c : Table 8 CodeEntry) (s : State) :
    (publishCodes c s).nodeCount = s.nodeCount := rfl
@[simp] theorem publishCodes_codes (c : Table 8 CodeEntry) (s : State) : (publishCodes c s).codes = c := rfl
@[simp] theorem publishCodes_inBuf (c : Table 8 CodeEntry) (s : State) : (publishCodes c s).inBuf = s.inBuf := rfl
@[simp] theorem publishCodes_inLen (c : Table 8 CodeEntry) (s : State) : (publishCodes c s).inLen = s.inLen := rfl
@[simp] theorem publishCodes_padIn (c : Table 8 CodeEntry) (s : State) : (publishCodes c s).padIn = s.padIn := rfl
@[simp] theorem publishCodes_outBuf (c : Table 8 CodeEntry) (s : State) : (publishCodes c s).outBuf = s.outBuf := rfl
@[simp] theorem publishCodes_outLen (c : Table 8 CodeEntry) (s : State) : (publishCodes c s).outLen = s.outLen := rfl
@[simp] theorem publishCodes_padOut (c : Table 8 CodeEntry) (s : State) : (publishCodes c s).padOut = s.padOut := rfl
@[simp] theorem publishCodes_status (c : Table 8 CodeEntry) (s : State) :
    (publishCodes c s).status = { s.status with codesValid := true } := rfl
@[simp] theorem publishCodes_errInfo (c : Table 8 CodeEntry) (s : State) : (publishCodes c s).errInfo = s.errInfo := rfl
@[simp] theorem publishCodes_cmdl (c : Table 8 CodeEntry) (s : State) : (publishCodes c s).cmdl = s.cmdl := rfl
@[simp] theorem publishCodes_seq (c : Table 8 CodeEntry) (s : State) : (publishCodes c s).seq = s.seq := rfl
@[simp] theorem publishCodes_hidden (c : Table 8 CodeEntry) (s : State) : (publishCodes c s).hidden = s.hidden := rfl
@[simp] theorem publishCodes_epoch (c : Table 8 CodeEntry) (s : State) : (publishCodes c s).epoch = s.epoch := rfl
@[simp] theorem publishCodes_draws (c : Table 8 CodeEntry) (s : State) : (publishCodes c s).draws = s.draws := rfl
@[simp] theorem publishCodes_env (c : Table 8 CodeEntry) (s : State) : (publishCodes c s).env = s.env := rfl

/-! ### publishPacked (43_packer R131) -/

@[simp] theorem publishPacked_params (p : Nat) (s : State) : (publishPacked p s).params = s.params := rfl
@[simp] theorem publishPacked_ft (p : Nat) (s : State) : (publishPacked p s).ft = s.ft := rfl
@[simp] theorem publishPacked_nodes (p : Nat) (s : State) : (publishPacked p s).nodes = s.nodes := rfl
@[simp] theorem publishPacked_root (p : Nat) (s : State) : (publishPacked p s).root = s.root := rfl
@[simp] theorem publishPacked_nodeCount (p : Nat) (s : State) : (publishPacked p s).nodeCount = s.nodeCount := rfl
@[simp] theorem publishPacked_codes (p : Nat) (s : State) : (publishPacked p s).codes = s.codes := rfl
@[simp] theorem publishPacked_inBuf (p : Nat) (s : State) : (publishPacked p s).inBuf = s.inBuf := rfl
@[simp] theorem publishPacked_inLen (p : Nat) (s : State) : (publishPacked p s).inLen = s.inLen := rfl
@[simp] theorem publishPacked_padIn (p : Nat) (s : State) : (publishPacked p s).padIn = s.padIn := rfl
@[simp] theorem publishPacked_outBuf (p : Nat) (s : State) : (publishPacked p s).outBuf = s.outBuf := rfl
@[simp] theorem publishPacked_outLen (p : Nat) (s : State) :
    (publishPacked p s).outLen = BitVec.ofNat 32 s.hidden.opos := rfl
@[simp] theorem publishPacked_padOut (p : Nat) (s : State) : (publishPacked p s).padOut = BitVec.ofNat 3 p := rfl
@[simp] theorem publishPacked_status (p : Nat) (s : State) : (publishPacked p s).status = s.status := rfl
@[simp] theorem publishPacked_errInfo (p : Nat) (s : State) : (publishPacked p s).errInfo = s.errInfo := rfl
@[simp] theorem publishPacked_cmdl (p : Nat) (s : State) : (publishPacked p s).cmdl = s.cmdl := rfl
@[simp] theorem publishPacked_seq (p : Nat) (s : State) : (publishPacked p s).seq = s.seq := rfl
@[simp] theorem publishPacked_hidden (p : Nat) (s : State) : (publishPacked p s).hidden = s.hidden := rfl
@[simp] theorem publishPacked_epoch (p : Nat) (s : State) : (publishPacked p s).epoch = s.epoch := rfl
@[simp] theorem publishPacked_draws (p : Nat) (s : State) : (publishPacked p s).draws = s.draws := rfl
@[simp] theorem publishPacked_env (p : Nat) (s : State) : (publishPacked p s).env = s.env := rfl

/-! ### publishUnpacked (44_unpacker R141) -/

@[simp] theorem publishUnpacked_params (s : State) : (publishUnpacked s).params = s.params := rfl
@[simp] theorem publishUnpacked_ft (s : State) : (publishUnpacked s).ft = s.ft := rfl
@[simp] theorem publishUnpacked_nodes (s : State) : (publishUnpacked s).nodes = s.nodes := rfl
@[simp] theorem publishUnpacked_root (s : State) : (publishUnpacked s).root = s.root := rfl
@[simp] theorem publishUnpacked_nodeCount (s : State) : (publishUnpacked s).nodeCount = s.nodeCount := rfl
@[simp] theorem publishUnpacked_codes (s : State) : (publishUnpacked s).codes = s.codes := rfl
@[simp] theorem publishUnpacked_inBuf (s : State) : (publishUnpacked s).inBuf = s.inBuf := rfl
@[simp] theorem publishUnpacked_inLen (s : State) : (publishUnpacked s).inLen = s.inLen := rfl
@[simp] theorem publishUnpacked_padIn (s : State) : (publishUnpacked s).padIn = s.padIn := rfl
@[simp] theorem publishUnpacked_outBuf (s : State) : (publishUnpacked s).outBuf = s.outBuf := rfl
@[simp] theorem publishUnpacked_outLen (s : State) : (publishUnpacked s).outLen = BitVec.ofNat 32 s.hidden.opos := rfl
@[simp] theorem publishUnpacked_padOut (s : State) : (publishUnpacked s).padOut = 0 := rfl
@[simp] theorem publishUnpacked_status (s : State) : (publishUnpacked s).status = s.status := rfl
@[simp] theorem publishUnpacked_errInfo (s : State) : (publishUnpacked s).errInfo = s.errInfo := rfl
@[simp] theorem publishUnpacked_cmdl (s : State) : (publishUnpacked s).cmdl = s.cmdl := rfl
@[simp] theorem publishUnpacked_seq (s : State) : (publishUnpacked s).seq = s.seq := rfl
@[simp] theorem publishUnpacked_hidden (s : State) : (publishUnpacked s).hidden = s.hidden := rfl
@[simp] theorem publishUnpacked_epoch (s : State) : (publishUnpacked s).epoch = s.epoch := rfl
@[simp] theorem publishUnpacked_draws (s : State) : (publishUnpacked s).draws = s.draws := rfl
@[simp] theorem publishUnpacked_env (s : State) : (publishUnpacked s).env = s.env := rfl

/-! ### setBusErr (20_memory R54, R55, R58) -/

@[simp] theorem setBusErr_params (s : State) : (setBusErr s).params = s.params := rfl
@[simp] theorem setBusErr_ft (s : State) : (setBusErr s).ft = s.ft := rfl
@[simp] theorem setBusErr_nodes (s : State) : (setBusErr s).nodes = s.nodes := rfl
@[simp] theorem setBusErr_root (s : State) : (setBusErr s).root = s.root := rfl
@[simp] theorem setBusErr_nodeCount (s : State) : (setBusErr s).nodeCount = s.nodeCount := rfl
@[simp] theorem setBusErr_codes (s : State) : (setBusErr s).codes = s.codes := rfl
@[simp] theorem setBusErr_inBuf (s : State) : (setBusErr s).inBuf = s.inBuf := rfl
@[simp] theorem setBusErr_inLen (s : State) : (setBusErr s).inLen = s.inLen := rfl
@[simp] theorem setBusErr_padIn (s : State) : (setBusErr s).padIn = s.padIn := rfl
@[simp] theorem setBusErr_outBuf (s : State) : (setBusErr s).outBuf = s.outBuf := rfl
@[simp] theorem setBusErr_outLen (s : State) : (setBusErr s).outLen = s.outLen := rfl
@[simp] theorem setBusErr_padOut (s : State) : (setBusErr s).padOut = s.padOut := rfl
@[simp] theorem setBusErr_status (s : State) : (setBusErr s).status = { s.status with busErr := true } := rfl
@[simp] theorem setBusErr_errInfo (s : State) : (setBusErr s).errInfo = s.errInfo := rfl
@[simp] theorem setBusErr_cmdl (s : State) : (setBusErr s).cmdl = s.cmdl := rfl
@[simp] theorem setBusErr_seq (s : State) : (setBusErr s).seq = s.seq := rfl
@[simp] theorem setBusErr_hidden (s : State) : (setBusErr s).hidden = s.hidden := rfl
@[simp] theorem setBusErr_epoch (s : State) : (setBusErr s).epoch = s.epoch := rfl
@[simp] theorem setBusErr_draws (s : State) : (setBusErr s).draws = s.draws := rfl
@[simp] theorem setBusErr_env (s : State) : (setBusErr s).env = s.env := rfl

/-! ### setWbusy (70 R190) -/

@[simp] theorem setWbusy_params (s : State) : (setWbusy s).params = s.params := rfl
@[simp] theorem setWbusy_ft (s : State) : (setWbusy s).ft = s.ft := rfl
@[simp] theorem setWbusy_nodes (s : State) : (setWbusy s).nodes = s.nodes := rfl
@[simp] theorem setWbusy_root (s : State) : (setWbusy s).root = s.root := rfl
@[simp] theorem setWbusy_nodeCount (s : State) : (setWbusy s).nodeCount = s.nodeCount := rfl
@[simp] theorem setWbusy_codes (s : State) : (setWbusy s).codes = s.codes := rfl
@[simp] theorem setWbusy_inBuf (s : State) : (setWbusy s).inBuf = s.inBuf := rfl
@[simp] theorem setWbusy_inLen (s : State) : (setWbusy s).inLen = s.inLen := rfl
@[simp] theorem setWbusy_padIn (s : State) : (setWbusy s).padIn = s.padIn := rfl
@[simp] theorem setWbusy_outBuf (s : State) : (setWbusy s).outBuf = s.outBuf := rfl
@[simp] theorem setWbusy_outLen (s : State) : (setWbusy s).outLen = s.outLen := rfl
@[simp] theorem setWbusy_padOut (s : State) : (setWbusy s).padOut = s.padOut := rfl
@[simp] theorem setWbusy_status (s : State) : (setWbusy s).status = { s.status with wbusy := true } := rfl
@[simp] theorem setWbusy_errInfo (s : State) : (setWbusy s).errInfo = s.errInfo := rfl
@[simp] theorem setWbusy_cmdl (s : State) : (setWbusy s).cmdl = s.cmdl := rfl
@[simp] theorem setWbusy_seq (s : State) : (setWbusy s).seq = s.seq := rfl
@[simp] theorem setWbusy_hidden (s : State) : (setWbusy s).hidden = s.hidden := rfl
@[simp] theorem setWbusy_epoch (s : State) : (setWbusy s).epoch = s.epoch := rfl
@[simp] theorem setWbusy_draws (s : State) : (setWbusy s).draws = s.draws := rfl
@[simp] theorem setWbusy_env (s : State) : (setWbusy s).env = s.env := rfl

/-! ### writeFtCount (20_memory R47) -/

@[simp] theorem writeFtCount_params (b : Byte) (x : Word) (s : State) : (writeFtCount b x s).params = s.params := rfl
@[simp] theorem writeFtCount_ft (b : Byte) (x : Word) (s : State) :
    (writeFtCount b x s).ft = Table.write s.ft b { Table.read s.ft b with count := x } := rfl
@[simp] theorem writeFtCount_nodes (b : Byte) (x : Word) (s : State) : (writeFtCount b x s).nodes = s.nodes := rfl
@[simp] theorem writeFtCount_root (b : Byte) (x : Word) (s : State) : (writeFtCount b x s).root = s.root := rfl
@[simp] theorem writeFtCount_nodeCount (b : Byte) (x : Word) (s : State) :
    (writeFtCount b x s).nodeCount = s.nodeCount := rfl
@[simp] theorem writeFtCount_codes (b : Byte) (x : Word) (s : State) : (writeFtCount b x s).codes = s.codes := rfl
@[simp] theorem writeFtCount_inBuf (b : Byte) (x : Word) (s : State) : (writeFtCount b x s).inBuf = s.inBuf := rfl
@[simp] theorem writeFtCount_inLen (b : Byte) (x : Word) (s : State) : (writeFtCount b x s).inLen = s.inLen := rfl
@[simp] theorem writeFtCount_padIn (b : Byte) (x : Word) (s : State) : (writeFtCount b x s).padIn = s.padIn := rfl
@[simp] theorem writeFtCount_outBuf (b : Byte) (x : Word) (s : State) : (writeFtCount b x s).outBuf = s.outBuf := rfl
@[simp] theorem writeFtCount_outLen (b : Byte) (x : Word) (s : State) : (writeFtCount b x s).outLen = s.outLen := rfl
@[simp] theorem writeFtCount_padOut (b : Byte) (x : Word) (s : State) : (writeFtCount b x s).padOut = s.padOut := rfl
@[simp] theorem writeFtCount_status (b : Byte) (x : Word) (s : State) : (writeFtCount b x s).status = s.status := rfl
@[simp] theorem writeFtCount_errInfo (b : Byte) (x : Word) (s : State) : (writeFtCount b x s).errInfo = s.errInfo := rfl
@[simp] theorem writeFtCount_cmdl (b : Byte) (x : Word) (s : State) : (writeFtCount b x s).cmdl = s.cmdl := rfl
@[simp] theorem writeFtCount_seq (b : Byte) (x : Word) (s : State) : (writeFtCount b x s).seq = s.seq := rfl
@[simp] theorem writeFtCount_hidden (b : Byte) (x : Word) (s : State) : (writeFtCount b x s).hidden = s.hidden := rfl
@[simp] theorem writeFtCount_epoch (b : Byte) (x : Word) (s : State) : (writeFtCount b x s).epoch = s.epoch := rfl
@[simp] theorem writeFtCount_draws (b : Byte) (x : Word) (s : State) : (writeFtCount b x s).draws = s.draws := rfl
@[simp] theorem writeFtCount_env (b : Byte) (x : Word) (s : State) : (writeFtCount b x s).env = s.env := rfl

/-! ### writeFtPresent (20_memory R47) -/

@[simp] theorem writeFtPresent_params (b : Byte) (x : Word) (s : State) :
    (writeFtPresent b x s).params = s.params := rfl
@[simp] theorem writeFtPresent_ft (b : Byte) (x : Word) (s : State) :
    (writeFtPresent b x s).ft = Table.write s.ft b { Table.read s.ft b with present := x.getLsbD 0 } := rfl
@[simp] theorem writeFtPresent_nodes (b : Byte) (x : Word) (s : State) : (writeFtPresent b x s).nodes = s.nodes := rfl
@[simp] theorem writeFtPresent_root (b : Byte) (x : Word) (s : State) : (writeFtPresent b x s).root = s.root := rfl
@[simp] theorem writeFtPresent_nodeCount (b : Byte) (x : Word) (s : State) :
    (writeFtPresent b x s).nodeCount = s.nodeCount := rfl
@[simp] theorem writeFtPresent_codes (b : Byte) (x : Word) (s : State) : (writeFtPresent b x s).codes = s.codes := rfl
@[simp] theorem writeFtPresent_inBuf (b : Byte) (x : Word) (s : State) : (writeFtPresent b x s).inBuf = s.inBuf := rfl
@[simp] theorem writeFtPresent_inLen (b : Byte) (x : Word) (s : State) : (writeFtPresent b x s).inLen = s.inLen := rfl
@[simp] theorem writeFtPresent_padIn (b : Byte) (x : Word) (s : State) : (writeFtPresent b x s).padIn = s.padIn := rfl
@[simp] theorem writeFtPresent_outBuf (b : Byte) (x : Word) (s : State) :
    (writeFtPresent b x s).outBuf = s.outBuf := rfl
@[simp] theorem writeFtPresent_outLen (b : Byte) (x : Word) (s : State) :
    (writeFtPresent b x s).outLen = s.outLen := rfl
@[simp] theorem writeFtPresent_padOut (b : Byte) (x : Word) (s : State) :
    (writeFtPresent b x s).padOut = s.padOut := rfl
@[simp] theorem writeFtPresent_status (b : Byte) (x : Word) (s : State) :
    (writeFtPresent b x s).status = s.status := rfl
@[simp] theorem writeFtPresent_errInfo (b : Byte) (x : Word) (s : State) :
    (writeFtPresent b x s).errInfo = s.errInfo := rfl
@[simp] theorem writeFtPresent_cmdl (b : Byte) (x : Word) (s : State) : (writeFtPresent b x s).cmdl = s.cmdl := rfl
@[simp] theorem writeFtPresent_seq (b : Byte) (x : Word) (s : State) : (writeFtPresent b x s).seq = s.seq := rfl
@[simp] theorem writeFtPresent_hidden (b : Byte) (x : Word) (s : State) :
    (writeFtPresent b x s).hidden = s.hidden := rfl
@[simp] theorem writeFtPresent_epoch (b : Byte) (x : Word) (s : State) : (writeFtPresent b x s).epoch = s.epoch := rfl
@[simp] theorem writeFtPresent_draws (b : Byte) (x : Word) (s : State) : (writeFtPresent b x s).draws = s.draws := rfl
@[simp] theorem writeFtPresent_env (b : Byte) (x : Word) (s : State) : (writeFtPresent b x s).env = s.env := rfl

/-! ### setProgram (30_encoding R76) -/

@[simp] theorem setProgram_params (l : List HostOp) (s : State) : (setProgram l s).params = s.params := rfl
@[simp] theorem setProgram_ft (l : List HostOp) (s : State) : (setProgram l s).ft = s.ft := rfl
@[simp] theorem setProgram_nodes (l : List HostOp) (s : State) : (setProgram l s).nodes = s.nodes := rfl
@[simp] theorem setProgram_root (l : List HostOp) (s : State) : (setProgram l s).root = s.root := rfl
@[simp] theorem setProgram_nodeCount (l : List HostOp) (s : State) : (setProgram l s).nodeCount = s.nodeCount := rfl
@[simp] theorem setProgram_codes (l : List HostOp) (s : State) : (setProgram l s).codes = s.codes := rfl
@[simp] theorem setProgram_inBuf (l : List HostOp) (s : State) : (setProgram l s).inBuf = s.inBuf := rfl
@[simp] theorem setProgram_inLen (l : List HostOp) (s : State) : (setProgram l s).inLen = s.inLen := rfl
@[simp] theorem setProgram_padIn (l : List HostOp) (s : State) : (setProgram l s).padIn = s.padIn := rfl
@[simp] theorem setProgram_outBuf (l : List HostOp) (s : State) : (setProgram l s).outBuf = s.outBuf := rfl
@[simp] theorem setProgram_outLen (l : List HostOp) (s : State) : (setProgram l s).outLen = s.outLen := rfl
@[simp] theorem setProgram_padOut (l : List HostOp) (s : State) : (setProgram l s).padOut = s.padOut := rfl
@[simp] theorem setProgram_status (l : List HostOp) (s : State) : (setProgram l s).status = s.status := rfl
@[simp] theorem setProgram_errInfo (l : List HostOp) (s : State) : (setProgram l s).errInfo = s.errInfo := rfl
@[simp] theorem setProgram_cmdl (l : List HostOp) (s : State) : (setProgram l s).cmdl = s.cmdl := rfl
@[simp] theorem setProgram_seq (l : List HostOp) (s : State) : (setProgram l s).seq = s.seq := rfl
@[simp] theorem setProgram_hidden (l : List HostOp) (s : State) : (setProgram l s).hidden = s.hidden := rfl
@[simp] theorem setProgram_epoch (l : List HostOp) (s : State) : (setProgram l s).epoch = s.epoch := rfl
@[simp] theorem setProgram_draws (l : List HostOp) (s : State) : (setProgram l s).draws = s.draws := rfl
@[simp] theorem setProgram_env (l : List HostOp) (s : State) : (setProgram l s).env = { s.env with program := l } := rfl

/-! ### recordReply (30_encoding R76) -/

@[simp] theorem recordReply_params (w : Word) (s : State) : (recordReply w s).params = s.params := rfl
@[simp] theorem recordReply_ft (w : Word) (s : State) : (recordReply w s).ft = s.ft := rfl
@[simp] theorem recordReply_nodes (w : Word) (s : State) : (recordReply w s).nodes = s.nodes := rfl
@[simp] theorem recordReply_root (w : Word) (s : State) : (recordReply w s).root = s.root := rfl
@[simp] theorem recordReply_nodeCount (w : Word) (s : State) : (recordReply w s).nodeCount = s.nodeCount := rfl
@[simp] theorem recordReply_codes (w : Word) (s : State) : (recordReply w s).codes = s.codes := rfl
@[simp] theorem recordReply_inBuf (w : Word) (s : State) : (recordReply w s).inBuf = s.inBuf := rfl
@[simp] theorem recordReply_inLen (w : Word) (s : State) : (recordReply w s).inLen = s.inLen := rfl
@[simp] theorem recordReply_padIn (w : Word) (s : State) : (recordReply w s).padIn = s.padIn := rfl
@[simp] theorem recordReply_outBuf (w : Word) (s : State) : (recordReply w s).outBuf = s.outBuf := rfl
@[simp] theorem recordReply_outLen (w : Word) (s : State) : (recordReply w s).outLen = s.outLen := rfl
@[simp] theorem recordReply_padOut (w : Word) (s : State) : (recordReply w s).padOut = s.padOut := rfl
@[simp] theorem recordReply_status (w : Word) (s : State) : (recordReply w s).status = s.status := rfl
@[simp] theorem recordReply_errInfo (w : Word) (s : State) : (recordReply w s).errInfo = s.errInfo := rfl
@[simp] theorem recordReply_cmdl (w : Word) (s : State) : (recordReply w s).cmdl = s.cmdl := rfl
@[simp] theorem recordReply_seq (w : Word) (s : State) : (recordReply w s).seq = s.seq := rfl
@[simp] theorem recordReply_hidden (w : Word) (s : State) : (recordReply w s).hidden = s.hidden := rfl
@[simp] theorem recordReply_epoch (w : Word) (s : State) : (recordReply w s).epoch = s.epoch := rfl
@[simp] theorem recordReply_draws (w : Word) (s : State) : (recordReply w s).draws = s.draws := rfl
@[simp] theorem recordReply_env (w : Word) (s : State) :
    (recordReply w s).env = { s.env with replies := s.env.replies ++ [w] } := rfl

/-! ### failRun (30_encoding R77) -/

@[simp] theorem failRun_params (s : State) : (failRun s).params = s.params := rfl
@[simp] theorem failRun_ft (s : State) : (failRun s).ft = s.ft := rfl
@[simp] theorem failRun_nodes (s : State) : (failRun s).nodes = s.nodes := rfl
@[simp] theorem failRun_root (s : State) : (failRun s).root = s.root := rfl
@[simp] theorem failRun_nodeCount (s : State) : (failRun s).nodeCount = s.nodeCount := rfl
@[simp] theorem failRun_codes (s : State) : (failRun s).codes = s.codes := rfl
@[simp] theorem failRun_inBuf (s : State) : (failRun s).inBuf = s.inBuf := rfl
@[simp] theorem failRun_inLen (s : State) : (failRun s).inLen = s.inLen := rfl
@[simp] theorem failRun_padIn (s : State) : (failRun s).padIn = s.padIn := rfl
@[simp] theorem failRun_outBuf (s : State) : (failRun s).outBuf = s.outBuf := rfl
@[simp] theorem failRun_outLen (s : State) : (failRun s).outLen = s.outLen := rfl
@[simp] theorem failRun_padOut (s : State) : (failRun s).padOut = s.padOut := rfl
@[simp] theorem failRun_status (s : State) : (failRun s).status = s.status := rfl
@[simp] theorem failRun_errInfo (s : State) : (failRun s).errInfo = s.errInfo := rfl
@[simp] theorem failRun_cmdl (s : State) : (failRun s).cmdl = s.cmdl := rfl
@[simp] theorem failRun_seq (s : State) : (failRun s).seq = s.seq := rfl
@[simp] theorem failRun_hidden (s : State) : (failRun s).hidden = s.hidden := rfl
@[simp] theorem failRun_epoch (s : State) : (failRun s).epoch = s.epoch := rfl
@[simp] theorem failRun_draws (s : State) : (failRun s).draws = s.draws := rfl
@[simp] theorem failRun_env (s : State) : (failRun s).env = { s.env with failed := true } := rfl

/-! ### State.withTurns (70 R180) -/

@[simp] theorem State.withTurns_params (s : State) (l : List Turn) : (s.withTurns l).params = s.params := rfl
@[simp] theorem State.withTurns_ft (s : State) (l : List Turn) : (s.withTurns l).ft = s.ft := rfl
@[simp] theorem State.withTurns_nodes (s : State) (l : List Turn) : (s.withTurns l).nodes = s.nodes := rfl
@[simp] theorem State.withTurns_root (s : State) (l : List Turn) : (s.withTurns l).root = s.root := rfl
@[simp] theorem State.withTurns_nodeCount (s : State) (l : List Turn) : (s.withTurns l).nodeCount = s.nodeCount := rfl
@[simp] theorem State.withTurns_codes (s : State) (l : List Turn) : (s.withTurns l).codes = s.codes := rfl
@[simp] theorem State.withTurns_inBuf (s : State) (l : List Turn) : (s.withTurns l).inBuf = s.inBuf := rfl
@[simp] theorem State.withTurns_inLen (s : State) (l : List Turn) : (s.withTurns l).inLen = s.inLen := rfl
@[simp] theorem State.withTurns_padIn (s : State) (l : List Turn) : (s.withTurns l).padIn = s.padIn := rfl
@[simp] theorem State.withTurns_outBuf (s : State) (l : List Turn) : (s.withTurns l).outBuf = s.outBuf := rfl
@[simp] theorem State.withTurns_outLen (s : State) (l : List Turn) : (s.withTurns l).outLen = s.outLen := rfl
@[simp] theorem State.withTurns_padOut (s : State) (l : List Turn) : (s.withTurns l).padOut = s.padOut := rfl
@[simp] theorem State.withTurns_status (s : State) (l : List Turn) : (s.withTurns l).status = s.status := rfl
@[simp] theorem State.withTurns_errInfo (s : State) (l : List Turn) : (s.withTurns l).errInfo = s.errInfo := rfl
@[simp] theorem State.withTurns_cmdl (s : State) (l : List Turn) : (s.withTurns l).cmdl = s.cmdl := rfl
@[simp] theorem State.withTurns_seq (s : State) (l : List Turn) : (s.withTurns l).seq = s.seq := rfl
@[simp] theorem State.withTurns_hidden (s : State) (l : List Turn) : (s.withTurns l).hidden = s.hidden := rfl
@[simp] theorem State.withTurns_epoch (s : State) (l : List Turn) : (s.withTurns l).epoch = s.epoch := rfl
@[simp] theorem State.withTurns_draws (s : State) (l : List Turn) : (s.withTurns l).draws = s.draws := rfl
@[simp] theorem State.withTurns_env (s : State) (l : List Turn) : (s.withTurns l).env = { s.env with turns := l } := rfl

end Sys2Proof.Machine
end

