-- ==== Sys2Proof/Laws/Commands.lean ====
section
/-! SUPPORT. What each shared operation of the commands can do, said once: the endings, the datapath of PACK and UNPACK,
the priority structure and merges of BUILD, the traversal of CODEGEN, and the shape of every meaning. -/

namespace Sys2Proof.Machine

/-! ### Endings -/

@[simp] theorem Halt.bind_done {σ : Type} (s : σ) (f : σ → Halt σ) : (Halt.done s).bind f = f s := rfl

@[simp] theorem Halt.bind_raised {σ : Type} (e : ErrKind) (n : Nat) (s : σ) (f : σ → Halt σ) :
    (Halt.raised e n s).bind f = .raised e n s := rfl

/-- A bind that ends well ran both parts. -/
theorem Halt.bind_eq_done {σ : Type} {h : Halt σ} {f : σ → Halt σ} {t : σ} (hb : h.bind f = .done t) :
    ∃ s, h = .done s ∧ f s = .done t := by
  cases h with
  | done s => exact ⟨s, rfl, hb⟩
  | raised e n s => simp at hb

/-- A bind that raises raised in one of its parts. -/
theorem Halt.bind_eq_raised {σ : Type} {h : Halt σ} {f : σ → Halt σ} {e : ErrKind} {n : Nat} {t : σ}
    (hb : h.bind f = .raised e n t) : h = .raised e n t ∨ ∃ s, h = .done s ∧ f s = .raised e n t := by
  cases h with
  | done s => exact .inr ⟨s, rfl, hb⟩
  | raised e' n' s => exact .inl hb

@[simp] theorem finish_done (i : Instr) (s : State) : finish i (.done s) = complete s := rfl

@[simp] theorem finish_raised (i : Instr) (e : ErrKind) (n : Nat) (s : State) :
    finish i (.raised e n s) = raiseError (some i) e n s := rfl

/-- The code of an error is never 0 and never above 10 (60_exceptions R160). -/
theorem ErrKind.code_range (e : ErrKind) : e.code ≠ 0 ∧ e.code.toNat ≤ 10 := by cases e <;> decide

/-- Every meaning is its pseudocode's ending, but for CODEGEN off a tree. -/
theorem exec_eq_finish {i : Instr} {s t : State} (h : exec i s = .next t) : ∃ body, t = finish i body := by
  cases i with
  | nop => exact ⟨_, (Host.Outcome.next.inj h).symm⟩
  | softReset => exact ⟨_, (Host.Outcome.next.inj h).symm⟩
  | ftClear => exact ⟨_, (Host.Outcome.next.inj h).symm⟩
  | build => exact ⟨_, (Host.Outcome.next.inj h).symm⟩
  | pack => exact ⟨_, (Host.Outcome.next.inj h).symm⟩
  | unpack => exact ⟨_, (Host.Outcome.next.inj h).symm⟩
  | codegen =>
    simp only [exec, execCodegen] at h
    split at h
    · split at h
      · exact ⟨_, (Host.Outcome.next.inj h).symm⟩
      · cases h
    · exact ⟨_, (Host.Outcome.next.inj h).symm⟩

/-! ### The datapath of PACK and UNPACK -/

/-- What the loops of PACK and UNPACK may do to the datapath: OPOS does not fall and stays within the capacity; OUT
changes only from the old OPOS up to the new one, and every byte between is written; OUT stays canonical and inside its
capacity; Q is not touched. -/
structure Stores (cap : Nat) (d d' : Datapath) : Prop where
  opos    : d.hidden.opos ≤ d'.hidden.opos
  bound   : d.hidden.opos ≤ cap → d'.hidden.opos ≤ cap
  frame   : ∀ k, k < d.hidden.opos ∨ d'.hidden.opos ≤ k → Memory.read d'.out k = Memory.read d.out k
  written : ∀ k, d.hidden.opos ≤ k → k < d'.hidden.opos → (Memory.read d'.out k).isSome = true
  wf      : Memory.wf d.out → Memory.wf d'.out
  inside  : d.hidden.opos ≤ cap → (∀ c ∈ d.out, c.1 < cap) → ∀ c ∈ d'.out, c.1 < cap
  q       : d'.hidden.q = d.hidden.q

/-- Changing ACC and CUR alone stores nothing. -/
theorem Stores.of_same {cap : Nat} {d d' : Datapath} (ho : d'.hidden.opos = d.hidden.opos) (hm : d'.out = d.out)
    (hq : d'.hidden.q = d.hidden.q) : Stores cap d d' where
  opos := ho ▸ Nat.le_refl _
  bound := fun h => ho ▸ h
  frame := fun k _ => by rw [hm]
  written := fun k h₁ h₂ => absurd h₁ (by omega)
  wf := fun h => hm ▸ h
  inside := fun _ h => hm ▸ h
  q := hq

/-- The hidden registers ACC and CUR may be anything before: only OPOS, OUT and Q count. -/
theorem Stores.from_same {cap : Nat} {d d₁ d' : Datapath} (h : Stores cap d₁ d')
    (ho : d₁.hidden.opos = d.hidden.opos) (hm : d₁.out = d.out) (hq : d₁.hidden.q = d.hidden.q) :
    Stores cap d d' where
  opos := ho ▸ h.opos
  bound := ho ▸ h.bound
  frame := fun k hk => by rw [h.frame k (by omega), hm]
  written := fun k hk => h.written k (by omega)
  wf := hm ▸ h.wf
  inside := by rw [← ho, ← hm]; exact h.inside
  q := h.q.trans hq

theorem Stores.refl (cap : Nat) (d : Datapath) : Stores cap d d := .of_same rfl rfl rfl

theorem Stores.trans {cap : Nat} {d e f : Datapath} (h₁ : Stores cap d e) (h₂ : Stores cap e f) : Stores cap d f where
  opos := Nat.le_trans h₁.opos h₂.opos
  bound := fun h => h₂.bound (h₁.bound h)
  frame := fun k hk => by
    have o₁ := h₁.opos; have o₂ := h₂.opos
    rw [h₂.frame k (by omega), h₁.frame k (by omega)]
  written := fun k hk hk' => by
    by_cases hm : k < e.hidden.opos
    · rw [h₂.frame k (.inl hm)]; exact h₁.written k hk hm
    · exact h₂.written k (by omega) hk'
  wf := fun h => h₂.wf (h₁.wf h)
  inside := fun h hc => h₂.inside (h₁.bound h) (h₁.inside h hc)
  q := h₂.q.trans h₁.q

/-- emitByte writes OUT[OPOS] and moves OPOS by one, or raises OUT_OVERFLOW and changes nothing. -/
theorem emitByte_cases (cap info : Nat) (b : Byte) (d : Datapath) :
    (d.hidden.opos = cap ∧ emitByte cap info b d = .raised .outOverflow info d)
    ∨ (d.hidden.opos ≠ cap ∧ emitByte cap info b d =
        .done { hidden := { d.hidden with opos := d.hidden.opos + 1 }, out := Memory.write d.out d.hidden.opos b }) := by
  unfold emitByte
  by_cases h : d.hidden.opos = cap
  · exact .inl ⟨h, if_pos h⟩
  · exact .inr ⟨h, if_neg h⟩

theorem emitByte_stores (cap info : Nat) (b : Byte) (d : Datapath) : Stores cap d (emitByte cap info b d).state := by
  rcases emitByte_cases cap info b d with ⟨_, h⟩ | ⟨hne, h⟩ <;> rw [h]
  · exact .refl _ _
  · exact
      { opos := Nat.le_succ _
        bound := fun hb => Nat.lt_of_le_of_ne hb hne
        frame := fun k hk => Memory.read_write_other _ _ (by simp only [Halt.state] at hk; omega)
        written := fun k h₁ h₂ => by
          simp only [Halt.state] at h₂
          have : d.hidden.opos = k := by omega
          subst this; simp [Halt.state]
        wf := fun hw => Memory.write_wf hw _ _
        inside := fun hb hc => Memory.write_bound hc (Nat.lt_of_le_of_ne hb hne) _
        q := rfl }

/-- A bind stores what its parts store. -/
theorem Stores.bind {cap : Nat} {d : Datapath} {h : Halt Datapath} {f : Datapath → Halt Datapath}
    (h₁ : Stores cap d h.state) (h₂ : ∀ e, Stores cap e (f e).state) : Stores cap d (h.bind f).state := by
  cases h with
  | done e => exact h₁.trans (h₂ e)
  | raised _ _ e => exact h₁

theorem drainAcc_stores (cap i fuel : Nat) (d : Datapath) : Stores cap d (drainAcc cap i fuel d).state := by
  induction fuel generalizing d with
  | zero => exact .refl _ _
  | succ fuel ih =>
    unfold drainAcc
    split
    · exact (emitByte_stores ..).bind fun e => (ih _).from_same rfl rfl rfl
    · exact .refl _ _

theorem packLoop_stores (codes : Table 8 CodeEntry) (cap i : Nat) (bs : List Byte) (d : Datapath) :
    Stores cap d (packLoop codes cap i bs d).state := by
  induction bs generalizing i d with
  | nil => exact .refl _ _
  | cons b bs ih =>
    unfold packLoop
    split
    · exact Stores.from_same (d₁ := appendCode (Table.read codes b) d)
        ((drainAcc_stores ..).bind fun e => ih (i + 1) e) rfl rfl rfl
    · exact .refl _ _

theorem packFlush_stores (cap inLen : Nat) (d : Datapath) : Stores cap d (packFlush cap inLen d).state := by
  unfold packFlush
  split
  · exact .refl _ _
  · exact emitByte_stores ..

theorem walkLoop_stores (nodes : Table 9 Node) (root : NodeIdx) (cap k : Nat) (bits : List Bool) (d : Datapath) :
    Stores cap d (walkLoop nodes root cap k bits d).state := by
  induction bits generalizing k d with
  | nil => exact .refl _ _
  | cons bit bits ih =>
    unfold walkLoop
    dsimp only
    split
    · exact .of_same rfl rfl rfl
    · exact Stores.from_same (d₁ := d.at (childOn nodes d.hidden.cur bit))
        ((emitByte_stores ..).bind fun e => (ih (k + 1) (e.at root)).from_same rfl rfl rfl) rfl rfl rfl
    · exact (ih (k + 1) (d.at _)).from_same rfl rfl rfl

/-- What PACK's body can be: the range error, an error of the loop or of the last byte, or the packed output. -/
theorem packBody_cases (s : State) :
    (s.params.inCap < s.inLen.toNat ∧ packBody s = .raised .inLenRange s.inLen.toNat s)
    ∨ (s.inLen.toNat ≤ s.params.inCap ∧
        ((∃ e n d, packBody s = .raised e n (s.withDatapath d) ∧ Stores s.params.outCap (packStart s) d)
        ∨ ∃ d d', packLoop s.codes s.params.outCap 0 (inputBytes s) (packStart s) = .done d
            ∧ packFlush s.params.outCap s.inLen.toNat d = .done d'
            ∧ packBody s = .done (publishPacked (padBits d.hidden.acc.length) (s.withDatapath d'))
            ∧ Stores s.params.outCap (packStart s) d')) := by
  by_cases hr : s.params.inCap < s.inLen.toNat
  · exact .inl ⟨hr, by simp [packBody, hr]⟩
  · refine .inr ⟨Nat.le_of_not_lt hr, ?_⟩
    have hl := packLoop_stores s.codes s.params.outCap 0 (inputBytes s) (packStart s)
    cases hp : packLoop s.codes s.params.outCap 0 (inputBytes s) (packStart s) with
    | raised e n d =>
      rw [hp] at hl
      exact .inl ⟨e, n, d, by simp [packBody, hr, hp], hl⟩
    | done d =>
      rw [hp] at hl
      have hf := packFlush_stores s.params.outCap s.inLen.toNat d
      cases hq : packFlush s.params.outCap s.inLen.toNat d with
      | raised e n d' =>
        rw [hq] at hf
        exact .inl ⟨e, n, d', by simp [packBody, hr, hp, hq], hl.trans hf⟩
      | done d' =>
        rw [hq] at hf
        exact .inr ⟨d, d', rfl, hq, by simp [packBody, hr, hp, hq], hl.trans hf⟩

/-- What UNPACK's body can be: a precheck's error with the state untouched, an error of the walk, or the output. -/
theorem unpackBody_cases (s : State) :
    (∃ e n, unpackBody s = .raised e n s)
    ∨ (∃ e n d, unpackBody s = .raised e n (s.withDatapath d) ∧ Stores s.params.outCap (unpackStart s) d)
    ∨ ∃ d, walkLoop s.nodes s.root s.params.outCap 0 (dataBits s) (unpackStart s) = .done d ∧ d.hidden.cur = s.root
        ∧ unpackBody s = .done (publishUnpacked (s.withDatapath d)) ∧ Stores s.params.outCap (unpackStart s) d := by
  have hw := walkLoop_stores s.nodes s.root s.params.outCap 0 (dataBits s) (unpackStart s)
  unfold unpackBody
  split
  · exact .inl ⟨_, _, rfl⟩
  split
  · exact .inl ⟨_, _, rfl⟩
  split
  · exact .inl ⟨_, _, rfl⟩
  split
  · exact .inl ⟨_, _, rfl⟩
  unfold unpackWalk
  cases hp : walkLoop s.nodes s.root s.params.outCap 0 (dataBits s) (unpackStart s) with
  | raised e n d => rw [hp] at hw; exact .inr (.inl ⟨e, n, d, rfl, hw⟩)
  | done d =>
    rw [hp] at hw
    by_cases hc : d.hidden.cur = s.root
    · exact .inr (.inr ⟨d, rfl, hc, by simp [hc], hw⟩)
    · exact .inr (.inl ⟨.decodePartial, dataLen s, d, by simp [hc], hw⟩)

/-! ### The present set and the leaves of BUILD -/

/-- Every byte value is in the list of all of them. -/
theorem mem_allBytes (b : Byte) : b ∈ allBytes :=
  List.mem_map.mpr ⟨b.toNat, List.mem_range.mpr b.isLt, by simp⟩

/-- The list of all byte values is strictly ascending. -/
theorem allBytes_sorted : allBytes.Pairwise (fun a b => a.toNat < b.toNat) := by
  unfold allBytes
  rw [List.pairwise_map]
  refine List.Pairwise.imp_of_mem ?_ List.pairwise_lt_range
  intro a b ha hb hab
  have ha := List.mem_range.mp ha
  have hb := List.mem_range.mp hb
  simp only [BitVec.toNat_ofNat]
  omega

/-- S holds exactly the present bytes (41_tree_builder R103). -/
theorem mem_presentSet {s : State} {b : Byte} : b ∈ presentSet s ↔ (Table.read s.ft b).present = true := by
  simp [presentSet, mem_allBytes]

/-- S is strictly ascending (41_tree_builder R103). -/
theorem presentSet_sorted (s : State) : (presentSet s).Pairwise (fun a b => a.toNat < b.toNat) :=
  allBytes_sorted.filter _

/-- There are at most 256 present bytes. -/
theorem presentSet_length_le (s : State) : (presentSet s).length ≤ 256 :=
  Nat.le_trans (List.length_filter_le ..) (by simp [allBytes])

/-- BUILD's first step changes no FT entry, so S is that of the state BUILD started in. -/
@[simp] theorem presentSet_invalidate (s : State) : presentSet (invalidate s) = presentSet s := rfl

/-- The arena after the leaves are created from index k on: leaf j at k + j, every other entry as before
(41_tree_builder R106). -/
theorem read_createLeaves (ft : Table 8 FtEntry) (k : Nat) (bs : List Byte) (nodes : Table 9 Node)
    (h : k + bs.length ≤ 512) (i : NodeIdx) :
    Table.read (createLeaves ft k bs nodes) i =
      if k ≤ i.toNat then
        match bs[i.toNat - k]? with
        | some b => leafNode b (Table.read ft b).count
        | none => Table.read nodes i
      else Table.read nodes i := by
  induction bs generalizing k nodes with
  | nil => simp [createLeaves]
  | cons b bs ih =>
    simp only [List.length_cons] at h
    simp only [createLeaves]
    rw [ih (k + 1) _ (by omega), Table.read_write]
    by_cases hk : k = i.toNat
    · have he : BitVec.ofNat 9 k = i := by simp [hk]
      rw [if_neg (by omega), if_pos he, if_pos (by omega)]
      simp [hk]
    · have hne : BitVec.ofNat 9 k ≠ i := fun he => hk (by rw [← he]; simp; omega)
      rw [if_neg hne]
      by_cases hlt : k + 1 ≤ i.toNat
      · rw [if_pos hlt, if_pos (by omega)]
        have : i.toNat - k = (i.toNat - (k + 1)) + 1 := by omega
        rw [this, List.getElem?_cons_succ]
      · rw [if_neg hlt, if_neg (by omega)]

/-! ### The priority structure and the merges of BUILD -/

/-- The key order is total on different indices (41_tree_builder R107). -/
theorem keyLess_total (nodes : Table 9 Node) {i j : NodeIdx} (h : i ≠ j) :
    keyLess nodes i j = true ∨ keyLess nodes j i = true := by
  have : i.toNat ≠ j.toNat := fun e => h (BitVec.eq_of_toNat_eq e)
  simp only [keyLess, Bool.or_eq_true, decide_eq_true_eq, Bool.and_eq_true, beq_iff_eq]
  omega

theorem keyLess_trans (nodes : Table 9 Node) {i j k : NodeIdx} (h₁ : keyLess nodes i j = true)
    (h₂ : keyLess nodes j k = true) : keyLess nodes i k = true := by
  simp only [keyLess, Bool.or_eq_true, decide_eq_true_eq, Bool.and_eq_true, beq_iff_eq] at *
  omega

theorem keyLess_irrefl (nodes : Table 9 Node) (i : NodeIdx) : keyLess nodes i i = false := by simp [keyLess]

/-- KeyMin is none exactly on the empty queue. -/
theorem keyMin_eq_none {nodes : Table 9 Node} {q : List NodeIdx} (h : keyMin nodes q = none) : q = [] := by
  cases q with
  | nil => rfl
  | cons i q =>
    simp only [keyMin] at h
    split at h
    · cases h
    · split at h <;> cases h

/-- KeyMin(Q) is a member of Q whose key is below every other member's (41_tree_builder R107). -/
theorem keyMin_spec {nodes : Table 9 Node} {q : List NodeIdx} {m : NodeIdx} (h : keyMin nodes q = some m) :
    m ∈ q ∧ ∀ j ∈ q, j ≠ m → keyLess nodes m j = true := by
  induction q generalizing m with
  | nil => cases h
  | cons i q ih =>
    simp only [keyMin] at h
    split at h
    · rename_i hn
      cases h
      have := keyMin_eq_none hn
      subst this
      simp
    · rename_i k hk
      obtain ⟨hmem, hmin⟩ := ih hk
      split at h
      · rename_i hlt
        cases h
        refine ⟨List.mem_cons_self, fun j hj hne => ?_⟩
        rcases List.mem_cons.mp hj with rfl | hj
        · exact absurd rfl hne
        · by_cases hjk : j = k
          · exact hjk ▸ hlt
          · exact keyLess_trans nodes hlt (hmin j hj hjk)
      · rename_i hnl
        cases h
        refine ⟨List.mem_cons_of_mem _ hmem, fun j hj hne => ?_⟩
        rcases List.mem_cons.mp hj with rfl | hj
        · exact (keyLess_total nodes (Ne.symm hne)).resolve_right hnl
        · exact hmin j hj hne

/-- Extracting takes the least-key member out of Q. -/
theorem extractMin_spec {nodes : Table 9 Node} {q q' : List NodeIdx} {m : NodeIdx}
    (h : extractMin nodes q = some (m, q')) :
    m ∈ q ∧ (∀ j ∈ q, j ≠ m → keyLess nodes m j = true) ∧ q' = q.erase m ∧ q'.length + 1 = q.length := by
  simp only [extractMin, Option.map_eq_some_iff, Prod.mk.injEq] at h
  obtain ⟨a, ha, rfl, rfl⟩ := h
  obtain ⟨hmem, hmin⟩ := keyMin_spec ha
  have hpos := List.length_pos_of_mem hmem
  exact ⟨hmem, hmin, rfl, by rw [List.length_erase_of_mem hmem]; omega⟩

theorem extractMin_eq_none {nodes : Table 9 Node} {q : List NodeIdx} (h : extractMin nodes q = none) : q = [] :=
  keyMin_eq_none (by simpa [extractMin] using h)

/-- A merge writes one node at `next` and puts it into Q, or raises and writes nothing (41_tree_builder R108, R110). -/
theorem mergeNodes_cases (b : Builder) (a c : NodeIdx) (q : List NodeIdx) :
    (0xFFFFFFFF < nodeWeight b.nodes a + nodeWeight b.nodes c
      ∧ mergeNodes b a c q = .raised .weightOverflow b.next { b with q := q })
    ∨ (nodeWeight b.nodes a + nodeWeight b.nodes c ≤ 0xFFFFFFFF
      ∧ mergeNodes b a c q = .done
          { nodes := Table.write b.nodes (BitVec.ofNat 9 b.next)
              (internalNode a c (BitVec.ofNat 32 (nodeWeight b.nodes a + nodeWeight b.nodes c)))
            q := BitVec.ofNat 9 b.next :: q
            next := b.next + 1 }) := by
  by_cases h : 0xFFFFFFFF < nodeWeight b.nodes a + nodeWeight b.nodes c
  · exact .inl ⟨h, by simp [mergeNodes, h]⟩
  · exact .inr ⟨Nat.le_of_not_lt h, by simp [mergeNodes, h]⟩

/-- One round of the merge loop: fewer than two members end it, two are merged (41_tree_builder R108). -/
theorem mergeLoop_succ (fuel : Nat) (b : Builder) :
    (b.q.length < 2 ∧ mergeLoop (fuel + 1) b = .done b)
    ∨ ∃ a q₁ c q₂, extractMin b.nodes b.q = some (a, q₁) ∧ extractMin b.nodes q₁ = some (c, q₂)
        ∧ mergeLoop (fuel + 1) b = (mergeNodes b a c q₂).bind (mergeLoop fuel) := by
  cases h₁ : extractMin b.nodes b.q with
  | none =>
    have := extractMin_eq_none h₁
    exact .inl ⟨by simp [this], by simp [mergeLoop, h₁]⟩
  | some p =>
    obtain ⟨a, q₁⟩ := p
    cases h₂ : extractMin b.nodes q₁ with
    | none =>
      have h₃ := extractMin_eq_none h₂
      have h₄ := (extractMin_spec h₁).2.2.2
      refine .inl ⟨?_, by simp [mergeLoop, h₁, h₂]⟩
      rw [h₃] at h₄
      simp only [List.length_nil] at h₄
      omega
    | some p =>
      obtain ⟨c, q₂⟩ := p
      exact .inr ⟨a, q₁, c, q₂, rfl, h₂, by simp [mergeLoop, h₁, h₂]⟩

/-- An invariant of the builder that every merge keeps holds after the merge loop, however it ends. -/
theorem mergeLoop_induct {P : Builder → Prop}
    (hstep : ∀ b a q₁ c q₂, P b → extractMin b.nodes b.q = some (a, q₁) → extractMin b.nodes q₁ = some (c, q₂) →
      P (mergeNodes b a c q₂).state)
    (fuel : Nat) (b : Builder) (h : P b) : P (mergeLoop fuel b).state := by
  induction fuel generalizing b with
  | zero => exact h
  | succ fuel ih =>
    rcases mergeLoop_succ fuel b with ⟨_, hl⟩ | ⟨a, q₁, c, q₂, h₁, h₂, hl⟩ <;> rw [hl]
    · exact h
    · have hm := hstep b a q₁ c q₂ h h₁ h₂
      cases hc : mergeNodes b a c q₂ with
      | done b' => rw [hc] at hm; exact ih b' hm
      | raised e n b' => rw [hc] at hm; exact hm

/-- With at least one round for each member of Q, a merge loop that does not raise ends with at most one member. -/
theorem mergeLoop_done_length {fuel : Nat} {b b' : Builder} (hf : b.q.length ≤ fuel) (h : mergeLoop fuel b = .done b') :
    b'.q.length < 2 := by
  induction fuel generalizing b with
  | zero => cases h; omega
  | succ fuel ih =>
    rcases mergeLoop_succ fuel b with ⟨hq, hl⟩ | ⟨a, q₁, c, q₂, h₁, h₂, hl⟩ <;> rw [hl] at h
    · cases h; exact hq
    · obtain ⟨e, he, hl⟩ := Halt.bind_eq_done h
      have l₁ := (extractMin_spec h₁).2.2.2
      have l₂ := (extractMin_spec h₂).2.2.2
      rcases mergeNodes_cases b a c q₂ with ⟨_, hm⟩ | ⟨_, hm⟩ <;> rw [hm] at he <;> cases he
      exact ih (by simp only [List.length_cons]; omega) hl

/-! ### The traversal of CODEGEN -/

theorem visit_internal {nodes : Table 9 Node} {i : NodeIdx} (h : (Table.read nodes i).kind = .internal)
    (levels : Nat) (p : List Bool) (codes : Table 8 CodeEntry) :
    visit nodes (levels + 1) i p codes =
      (visit nodes levels (Table.read nodes i).left (p ++ [false]) codes).bind
        (visit nodes levels (Table.read nodes i).right (p ++ [true])) := by
  simp only [visit, h]
  cases visit nodes levels (Table.read nodes i).left (p ++ [false]) codes <;> rfl

theorem visit_leaf {nodes : Table 9 Node} {i : NodeIdx} (h : (Table.read nodes i).kind = .leaf)
    (levels : Nat) (p : List Bool) (codes : Table 8 CodeEntry) :
    visit nodes (levels + 1) i p codes = some (Table.write codes (Table.read nodes i).sym (codeEntryOf p)) := by
  simp only [visit, h]

theorem visit_sentinel {nodes : Table 9 Node} {i : NodeIdx} (h : (Table.read nodes i).kind = .sentinel)
    (levels : Nat) (p : List Bool) (codes : Table 8 CodeEntry) :
    visit nodes (levels + 1) i p codes = some codes := by
  simp only [visit, h]

/-- A code CODEGEN writes stands for the path it was derived from, if the path fits the len field. -/
theorem codeBits_codeEntryOf {p : List Bool} (h : p.length ≤ 255) : codeBits (codeEntryOf p) = p := by
  have hv : valOf p < 2 ^ 255 := Nat.lt_of_lt_of_le (valOf_lt p) (Nat.pow_le_pow_right (by decide) h)
  have hl : p.length % 2 ^ 8 = p.length := Nat.mod_eq_of_lt (by omega)
  simp only [codeBits, codeEntryOf, BitVec.toNat_ofNat, Nat.mod_eq_of_lt hv, hl]
  exact bitsOf_valOf p

/-- What CODEGEN can answer: NO_TREE, the derived table, or the fault off a tree. -/
theorem execCodegen_cases (s : State) :
    (s.status.treeValid = false ∧ execCodegen s = .next (raiseError (some .codegen) .noTree 0 s))
    ∨ (s.status.treeValid = true ∧ ∃ codes, deriveCodes s.nodes s.root = some codes
        ∧ execCodegen s = .next (complete (publishCodes codes s)))
    ∨ (s.status.treeValid = true ∧ deriveCodes s.nodes s.root = none ∧ execCodegen s = .fault .arenaNotATree) := by
  unfold execCodegen
  cases ht : s.status.treeValid with
  | false => exact .inl ⟨rfl, rfl⟩
  | true =>
    cases hd : deriveCodes s.nodes s.root with
    | none => exact .inr (.inr ⟨rfl, rfl, rfl⟩)
    | some codes => exact .inr (.inl ⟨rfl, codes, rfl, rfl⟩)

end Sys2Proof.Machine
end

