-- ==== Sys2Proof/Laws/Bus.lean ====
section
/-! SUPPORT. What a bus access, a host action and a step can do, said once. -/

namespace Sys2Proof.Machine

/-! ### Addresses -/

/-- addr[1:0] = 0 says that the address is a multiple of 4 (20_memory R54). -/
theorem aligned_iff (addr : Word) : aligned addr = true ↔ addr.toNat % 4 = 0 := by
  simp only [aligned, beq_iff_eq, ← BitVec.toNat_inj, BitVec.extractLsb'_toNat, Nat.shiftRight_zero]
  rfl

/-- CMD and STATUS stand where 20_memory R46 puts them, whatever the capacities. -/
@[simp] theorem locate_cmd (p : Params) : locate p 0x00000000#32 = some .cmd := rfl

@[simp] theorem locate_status (p : Params) : locate p 0x00000004#32 = some .status := rfl

/-- The word offset of an aligned access to IN lies in IN with all four of its bytes (20_memory R46, R50). -/
theorem locate_inWord {p : Params} {addr : Word} {off : Nat} (h : locate p addr = some (.inWord off)) :
    off < p.inCap ∧ addr.toNat = 0x1000000 + off := by
  unfold locate at h
  dsimp only at h
  split at h
  · unfold locateRegister at h; split at h <;> cases h
  split at h
  · simp only [locateFt] at h; split at h <;> cases h
  split at h
  · cases h
  split at h
  · cases h
  split at h
  · cases h
  split at h
  · cases h
  split at h
  · simp only [Option.some.injEq, Loc.inWord.injEq] at h; omega
  split at h
  · cases h
  split at h <;> cases h

/-! ### BusRead and BusWrite -/

/-- A read leaves the state alone, or sets BUSERR, or counts a draw (20_memory R57, R64). -/
theorem busRead_cases (addr : Word) (s : State) :
    ((aligned addr = false ∨ locate s.params addr = none) ∧ busRead addr s = (0, setBusErr s))
    ∨ ∃ l, aligned addr = true ∧ locate s.params addr = some l
        ∧ (((l.readableWhileBusy = true ∨ s.seq = .idle) ∧ busRead addr s = (locValue s l, s))
          ∨ (l.readableWhileBusy = false ∧ s.seq = .busy
              ∧ busRead addr s = (Config.busyRead s.draws, { s with draws := s.draws + 1 }))) := by
  unfold busRead
  cases ha : aligned addr with
  | false => exact .inl ⟨.inl rfl, rfl⟩
  | true =>
    cases hl : locate s.params addr with
    | none => exact .inl ⟨.inr rfl, rfl⟩
    | some l =>
      refine .inr ⟨l, rfl, rfl, ?_⟩
      cases hr : l.readableWhileBusy with
      | true => exact .inl ⟨.inl rfl, by simp [hr]⟩
      | false =>
        cases hs : s.seq with
        | idle => exact .inl ⟨.inr rfl, by simp [hr]⟩
        | busy => exact .inr ⟨rfl, rfl, by simp [hr]⟩

/-- A write sets BUSERR, clears sticky bits, is dropped with WBUSY, or is stored (20_memory R65). -/
theorem busWrite_cases (addr data : Word) (s : State) :
    ((aligned addr = false ∨ locate s.params addr = none) ∧ busWrite addr data s = setBusErr s)
    ∨ ∃ l, aligned addr = true ∧ locate s.params addr = some l
        ∧ ((l = .status ∧ busWrite addr data s = { s with status := s.status.writeOneToClear data })
          ∨ (l.readOnly = true ∧ busWrite addr data s = setBusErr s)
          ∨ (l ≠ .status ∧ l.readOnly = false ∧ s.seq = .busy ∧ busWrite addr data s = setWbusy s)
          ∨ (l ≠ .status ∧ l.readOnly = false ∧ s.seq = .idle ∧ busWrite addr data s = storeAt l data s)) := by
  unfold busWrite
  cases ha : aligned addr with
  | false => exact .inl ⟨.inl rfl, rfl⟩
  | true =>
    cases hl : locate s.params addr with
    | none => exact .inl ⟨.inr rfl, rfl⟩
    | some l =>
      refine .inr ⟨l, rfl, rfl, ?_⟩
      by_cases hs : l = .status
      · exact .inl ⟨hs, by simp [hs]⟩
      · cases hr : l.readOnly with
        | true => exact .inr (.inl ⟨rfl, by simp [hs, hr]⟩)
        | false =>
          cases hq : s.seq with
          | busy => exact .inr (.inr (.inl ⟨hs, rfl, rfl, by simp [hs, hr]⟩))
          | idle => exact .inr (.inr (.inr ⟨hs, rfl, rfl, by simp [hs, hr]⟩))

/-- The bytes of IN after a word write (20_memory R50). -/
theorem read_writeInWord (off k : Nat) (data : Word) (s : State) :
    Memory.read (writeInWord off data s).inBuf k =
      if off ≤ k ∧ k < off + 4 then some (laneByte data (k - off)) else Memory.read s.inBuf k := by
  simp only [writeInWord, Memory.read_write]
  by_cases h : off ≤ k ∧ k < off + 4
  · obtain ⟨j, rfl⟩ := Nat.exists_eq_add_of_le h.1
    have : j < 4 := by omega
    interval_cases j <;> simp
  · have h₀ : off ≠ k := by omega
    have h₁ : off + 1 ≠ k := by omega
    have h₂ : off + 2 ≠ k := by omega
    have h₃ : off + 3 ≠ k := by omega
    simp [h, h₀, h₁, h₂, h₃]

/-- A word write to IN keeps its canonical form. -/
theorem writeInWord_wf {s : State} (h : Memory.wf s.inBuf) (off : Nat) (data : Word) :
    Memory.wf (writeInWord off data s).inBuf :=
  Memory.write_wf (Memory.write_wf (Memory.write_wf (Memory.write_wf h _ _) _ _) _ _) _ _

/-- A word write to IN changes IN alone. -/
theorem writeInWord_frame (off : Nat) (data : Word) (s : State) :
    { writeInWord off data s with inBuf := s.inBuf } = s := rfl

/-! ### Steps -/

/-- What a step can be: a turn of the host, of the block, or a reset; with no turn left, the block's if it is BUSY, the
host's otherwise (70 R180, R183). -/
theorem step_cases (s : State) :
    (∃ turns, s.env.turns = .host :: turns ∧ step s = .next (hostStep (s.withTurns turns)))
    ∨ (∃ turns, s.env.turns = .block :: turns ∧ step s = blockStep (s.withTurns turns))
    ∨ (∃ turns, s.env.turns = .reset :: turns ∧ step s = .next (hardReset (s.withTurns turns)))
    ∨ (s.env.turns = [] ∧ s.seq = .busy ∧ step s = blockStep s)
    ∨ (s.env.turns = [] ∧ s.seq = .idle ∧ step s = .next (hostStep s)) := by
  unfold step
  cases ht : s.env.turns with
  | nil =>
    cases hs : s.seq with
    | busy => exact .inr (.inr (.inr (.inl ⟨rfl, rfl, rfl⟩)))
    | idle => exact .inr (.inr (.inr (.inr ⟨rfl, rfl, rfl⟩)))
  | cons t turns =>
    cases t with
    | host => exact .inl ⟨turns, rfl, rfl⟩
    | block => exact .inr (.inl ⟨turns, rfl, rfl⟩)
    | reset => exact .inr (.inr (.inl ⟨turns, rfl, rfl⟩))

/-- What a block step can be: nothing while IDLE, the meaning of the decoded command, or the report of an illegal word
(40_control R91). -/
theorem blockStep_cases (s : State) :
    (s.seq = .idle ∧ blockStep s = .next s)
    ∨ (∃ i, s.seq = .busy ∧ decode s.cmdl = .ok i ∧ blockStep s = exec i s)
    ∨ (∃ e, s.seq = .busy ∧ decode s.cmdl = .error e
        ∧ blockStep s = .next (raiseError none .illegalCmd s.cmdl.toNat s)) := by
  unfold blockStep
  cases hs : s.seq with
  | idle => exact .inl ⟨rfl, rfl⟩
  | busy =>
    cases hd : decode s.cmdl with
    | ok i => exact .inr (.inl ⟨i, rfl, rfl, rfl⟩)
    | error e => exact .inr (.inr ⟨e, rfl, rfl, rfl⟩)

/-- A property that the bus accesses and the host's own bookkeeping keep is kept by a host step (30_encoding R76, R77). -/
theorem hostStep_induct {P : State → Prop} (s : State) (h : P s)
    (hread : ∀ addr u, P u → P (busRead addr u).2) (hwrite : ∀ addr data u, P u → P (busWrite addr data u))
    (henv : ∀ env u, P u → P { u with env := env }) : P (hostStep s) := by
  unfold hostStep
  split
  · exact h
  · rename_i op rest _
    have hprog : ∀ u, P u → P (setProgram rest u) := fun u hu => henv _ u hu
    have hfail : ∀ u, P u → P (failRun u) := fun u hu => henv _ u hu
    cases op with
    | write addr data => exact hprog _ (hwrite addr data s h)
    | copy addr n =>
      refine hprog _ ?_
      unfold copyReply
      split
      · exact hwrite addr _ s h
      · exact hfail s h
    | read addr => exact hprog _ (henv _ _ (hread addr s h))
    | poll =>
      have hr := hread statusAddr s h
      unfold hostAct
      dsimp only
      split
      · exact hr
      · exact hprog _ hr
    | expect addr value =>
      have hr := hread addr s h
      unfold hostAct
      dsimp only
      refine hprog _ ?_
      split
      · exact hr
      · exact hfail _ hr

end Sys2Proof.Machine
end

