-- ==== Sys2Proof/Laws/PerInstr.lean ====
section
/-! SUPPORT. Statements about every command as syntax, one lemma per constructor. -/

namespace Sys2Proof.Laws

/-- The word of a command has RSVD = 0 and its opcode in OP, and the opcode table's word of 32 bits gives the command
(30_encoding R70, R71). -/
def CommandWord.Statement (i : Instr) : Prop :=
  rsvdField (encode i) = 0 ∧ opField (encode i) = opcode i ∧ decodeTableWord 32 (encode i).toNat = some i
    ∧ i.wellFormed = true

theorem CommandWord.nop : CommandWord.Statement .nop := ⟨rfl, rfl, rfl, rfl⟩

theorem CommandWord.softReset : CommandWord.Statement .softReset := ⟨rfl, rfl, rfl, rfl⟩

theorem CommandWord.ftClear : CommandWord.Statement .ftClear := ⟨rfl, rfl, rfl, rfl⟩

theorem CommandWord.build : CommandWord.Statement .build := ⟨rfl, rfl, rfl, rfl⟩

theorem CommandWord.codegen : CommandWord.Statement .codegen := ⟨rfl, rfl, rfl, rfl⟩

theorem CommandWord.pack : CommandWord.Statement .pack := ⟨rfl, rfl, rfl, rfl⟩

theorem CommandWord.unpack : CommandWord.Statement .unpack := ⟨rfl, rfl, rfl, rfl⟩

end Sys2Proof.Laws
end

