-- ==== Sys2Proof/Tests/Slice0.lean ====
section
/-! SUPPORT. Tests: the smoke tests of WellFormed, words written out from 30_encoding R71, vectors of 95_test_vectors,
and for every statement with hypotheses a concrete state that meets them. -/

namespace Sys2Proof.Tests

open Sys2Proof Sys2Proof.Machine

set_option Elab.async false

/-! ### Helpers: small states -/

/-- Small legal capacities, so that the edges of both buffers are near. -/
def tiny : Params := { inCap := 40, outCap := 4 }

/-- The reset state with small capacities. -/
def fresh : State := State.resetWith tiny

/-- The next state an outcome holds. -/
def answer : Host.Outcome State Fault Refusal → State
  | .next s => s
  | .fault _ => fresh
  | .refused _ => fresh

/-- A reset state with a loaded frequency table, every listed byte present. -/
def loaded (l : List (Byte × Word)) : State :=
  { fresh with ft := l.foldl (fun t e => Table.write t e.1 { present := true, count := e.2 }) fresh.ft }

/-- An arena that starts with the listed nodes. -/
def arena (l : List Node) : Table 9 Node :=
  l.zipIdx.foldl (fun t e => Table.write t (BitVec.ofNat 9 e.2) e.1) (Table.fill 9 Node.blank)

/-- A code table with the listed entries. -/
def codeTable (l : List (Byte × CodeEntry)) : Table 8 CodeEntry :=
  l.foldl (fun t e => Table.write t e.1 e.2) (Table.fill 8 CodeEntry.clear)

/-- STATUS after a CODEGEN that succeeded. -/
def codesDone : Status := { Status.reset with done := true, treeValid := true, codesValid := true }

/-- The tree and codes of {00: 1, 01: 1} (the shape of 95_test_vectors T1.4, T2.2). -/
def twoSym : State :=
  { fresh with
    nodes := arena [leafNode 0 1, leafNode 1 1, internalNode 0 1 2]
    root := 2, nodeCount := 3
    codes := codeTable [(0, { valid := true, len := 1, bits := 0 }), (1, { valid := true, len := 1, bits := 1 })]
    status := codesDone }

/-- The tree and code of {00: 1} (95_test_vectors T1.3, T2.1). -/
def oneSym : State :=
  { fresh with
    nodes := arena [leafNode 0 1, sentinelNode, internalNode 0 1 1]
    root := 2, nodeCount := 3
    codes := codeTable [(0, { valid := true, len := 1, bits := 0 })]
    status := codesDone }

/-- The tree of three bytes (the shape of 95_test_vectors T1.10), without codes. -/
def threeSym : State :=
  { fresh with
    nodes := arena [leafNode 0 1, leafNode 1 1, leafNode 2 2, internalNode 0 1 2, internalNode 2 3 4]
    root := 4, nodeCount := 5
    status := { Status.reset with done := true, treeValid := true } }

/-- A state no run reaches: TREE_VALID = 1 over an arena whose root is its own child. -/
def looped : State := { fresh with nodes := arena [internalNode 0 0 0], status := { Status.reset with treeValid := true } }

/-- A state with input bytes and PAD_IN. -/
def withIn (bytes : List Byte) (pad : BitVec 8) (s : State) : State :=
  { s with
    inBuf := bytes.zipIdx.foldl (fun m e => Memory.write m e.2 e.1) s.inBuf
    inLen := BitVec.ofNat 32 bytes.length
    padIn := pad }

/-- n times the bytes 00 01. -/
def alternating (n : Nat) : List Byte := (List.replicate n [0, 1]).flatten

/-- The state after an accepted command word. -/
def accepted (w : Word) (s : State) : State := acceptCommand w s

/-! ### WellFormed refuses ill-formed terms (00_scope R5, 30_encoding R70, R74) -/

theorem test_capacity_not_a_multiple_of_four : Params.legal { inCap := 6, outCap := 4 } = false := by decide

theorem test_capacity_too_small : Params.legal { inCap := 4, outCap := 0 } = false := by decide

theorem test_capacity_too_large : Params.legal { inCap := 2 ^ 24 + 4, outCap := 4 } = false := by decide

theorem test_capacity_legal : Params.legal { inCap := 4, outCap := 2 ^ 24 } = true := by decide

theorem test_word_with_reserved_bit_is_illegal : commandWordLegal 0x00000110#32 = false := by decide

theorem test_word_with_unassigned_op_is_illegal : commandWordLegal 0x00000003#32 = false := by decide

/-! ### Decode: the word of each command, bit by bit from 30_encoding R70, R71 -/

theorem test_decode_nop : decode 0b000000000000000000000000_00000000#32 = .ok .nop := by decide

theorem test_decode_soft_reset : decode 0b000000000000000000000000_00000001#32 = .ok .softReset := by decide

theorem test_decode_ft_clear : decode 0b000000000000000000000000_00000010#32 = .ok .ftClear := by decide

theorem test_decode_build : decode 0b000000000000000000000000_00010000#32 = .ok .build := by decide

theorem test_decode_codegen : decode 0b000000000000000000000000_00010001#32 = .ok .codegen := by decide

theorem test_decode_pack : decode 0b000000000000000000000000_00100000#32 = .ok .pack := by decide

theorem test_decode_unpack : decode 0b000000000000000000000000_00100001#32 = .ok .unpack := by decide

theorem test_decode_rsvd_bit_31 : decode 0b100000000000000000000000_00100001#32 = .error .reservedBits := by decide

theorem test_table_word_build : decodeTableWord 32 0x10 = some .build := by decide

/-! ### Vectors of 95_test_vectors -/

/-- T0.2. -/
theorem test_nop_leaves_done :
    statusWord (answer (step (State.reset.withFetchWord 32 0x0))).status = 0x00000002#32 := by decide +kernel

/-- T0.3. -/
theorem test_illegal_word_reported :
    (let t := answer (step (State.reset.withFetchWord 32 0x3)); (statusWord t.status, t.errInfo))
      = (0x00000106#32, 0x00000003#32) := by decide +kernel

/-- T0.6: STATUS 0x0000_051E, then SOFT_RESET. -/
theorem test_soft_reset :
    (let t := answer (exec .softReset
        { twoSym with status := { codesDone with err := true, errCode := 5 }, errInfo := 2, padIn := 6 });
      (statusWord t.status, t.errInfo, treeInfoWord t, t.padIn)) = (0x00000002#32, 0, 0, 0) := by decide +kernel

/-- T0.7. -/
theorem test_ft_clear :
    (let t := answer (exec .ftClear (loaded [(0x61, 4)]));
      (busRead 0x00000B08#32 t).1 = 0 ∧ (busRead 0x00000B0C#32 t).1 = 0 ∧ statusWord t.status = 0x00000002#32) := by
  decide +kernel

/-- T1.5 ("abracadabra"). -/
theorem test_build_abracadabra :
    (let t := answer (exec .build (loaded [(0x61, 5), (0x62, 2), (0x63, 1), (0x64, 1), (0x72, 2)]));
      (nodeN t 5, nodeN t 6, nodeN t 7, nodeN t 8, treeInfoWord t, statusWord t.status))
      = (internalNode 2 3 2, internalNode 1 4 4, internalNode 5 6 6, internalNode 0 7 11, 0x00090008#32, 0x0000000A#32) := by
  decide +kernel

/-- T1.14. -/
theorem test_build_weight_overflow :
    (let t := answer (exec .build (loaded [(0, 0xFFFFFFFF), (1, 1)])); (statusWord t.status, t.errInfo, treeInfoWord t))
      = (0x00000306#32, 2, 0) := by decide +kernel

/-- T2.8: 63 has code `0`, 61 `10`, 62 `11` (here with the byte values 02, 00, 01). -/
theorem test_codegen_three :
    (let t := answer (exec .codegen threeSym);
      (codeBits (Table.read t.codes 2), codeBits (Table.read t.codes 0), codeBits (Table.read t.codes 1)))
      = ([false], [true, false], [true, true]) := by decide +kernel

/-- T2.15. -/
theorem test_codegen_no_tree : statusWord (answer (exec .codegen fresh)).status = 0x00000206#32 := by decide +kernel

/-- T3.2: OUT = 40, PAD_OUT 6. -/
theorem test_pack_two_bytes :
    (let t := answer (exec .pack (withIn [0, 1] 0 twoSym)); (t.outLen, t.padOut, (busRead 0x02000000#32 t).1))
      = (1, 6, 0x00000040#32) := by decide +kernel

/-- T3.13: sixteen times "ab" fills OUT_CAP = 4 exactly with 55 55 55 55. -/
theorem test_pack_fills_out :
    (let t := answer (exec .pack (withIn (alternating 16) 0 twoSym));
      (t.outLen, t.padOut, (busRead 0x02000000#32 t).1)) = (4, 0, 0x55555555#32) := by decide +kernel

/-- T4.20: IN = 40, PAD_IN 6 gives "ab". -/
theorem test_unpack_two_bytes :
    (let t := answer (exec .unpack (withIn [0x40] 6 twoSym)); (t.outLen, (busRead 0x02000000#32 t).1))
      = (2, 0x00000100#32) := by decide +kernel

/-- T4.8: seven bytes, then bit 7 reaches the sentinel; OUT_CAP is 8 here. -/
theorem test_unpack_sentinel :
    (let t := answer (exec .unpack (withIn [0x01] 0 { oneSym with params := { inCap := 4, outCap := 8 } }));
      (t.status.errCode, t.errInfo, t.outLen)) = (6, 7, 0) := by decide +kernel

/-- T0.17. -/
theorem test_in_lanes :
    (let t := busWrite 0x01000000#32 0x44332211#32 fresh; (inByte t 0, inByte t 1, inByte t 2, inByte t 3))
      = (0x11, 0x22, 0x33, 0x44) := by decide +kernel

/-- T0.8, T0.9, T0.10. -/
theorem test_bus_errors :
    (statusWord (busRead 0x00000002#32 fresh).2.status, statusWord (busRead 0x00000028#32 fresh).2.status,
      statusWord (busWrite 0x00000008#32 5 fresh).status) = (0x40#32, 0x40#32, 0x40#32) := by decide +kernel

/-- T0.11, T0.12. -/
theorem test_status_write_clears :
    (let s := { fresh with status := { codesDone with busErr := true, wbusy := true } };
      statusWord (busWrite 0x00000004#32 0x40 s).status = 0x0000003A#32)
    ∧ statusWord (busWrite 0x00000004#32 0xFFFFFFFF fresh).status = 0 := by decide +kernel

/-- T0.15, while IDLE and while BUSY. -/
theorem test_cmd_reads_zero :
    (busRead 0x00000000#32 fresh).1 = 0 ∧ (busRead 0x00000000#32 (accepted 0x10 fresh)).1 = 0
    ∧ (busRead 0x00000000#32 (accepted 0x10 fresh)).2.status.busErr = false := by decide +kernel

/-- T0.13, with the host's turn before the block's: the FT write is dropped and STATUS reads BUSY and WBUSY. -/
theorem test_write_while_busy :
    (let s := busWrite 0x00000800#32 9 (accepted 0x10 fresh); (busRead 0x00000004#32 s).1) = 0x00000021#32 := by
  decide +kernel

/-- R49's example: the code `110` reads word 0 = 0x103, word 1 = 6. -/
theorem test_code_window :
    (let s := { fresh with codes := codeTable [(0x62, { valid := true, len := 3, bits := 6 })] };
      ((busRead 0x00005880#32 s).1, (busRead 0x00005884#32 s).1)) = (0x00000103#32, 0x00000006#32) := by decide +kernel

/-- T1.5's window reads: NODE[8].W2 = 0x0007_0000, NODE[4].W0 = 0x0000_7201. -/
theorem test_node_window :
    (let s := { fresh with
                nodes := Table.write (Table.write (Table.fill 9 Node.blank) 8 (internalNode 0 7 11)) 4 (leafNode 0x72 2)
                nodeCount := 9 };
      ((busRead 0x00002088#32 s).1, (busRead 0x00002040#32 s).1)) = (0x00070000#32, 0x00007201#32) := by decide +kernel

/-- R77: RUN writes the word to CMD and polls; LOADIN of three bytes writes one word and IN_LEN (P2). -/
theorem test_host_syntax :
    HostStmt.expand (.run (.mnemonic .unpack)) = [.write 0 0x21, .poll]
      ∧ HostStmt.expand (.loadIn [0x6E, 0x8A, 0xDC]) = [.write 0x01000000 0x00DC8A6E, .write 0x0C 3] := by decide +kernel

/-! ### The invariant on concrete states -/

/-- The shape of every entry of an arena that starts with well-shaped nodes. -/
theorem arena_shape (l : List Node) (h : ∀ n ∈ l, n.shapeOk = true) (i : NodeIdx) :
    (Table.read (arena l) i).shapeOk = true := by
  have key : ∀ (es : List (Node × Nat)) (t : Table 9 Node), (∀ e ∈ es, e.1.shapeOk = true) →
      (∀ i, (Table.read t i).shapeOk = true) →
      ∀ i, (Table.read (es.foldl (fun t e => Table.write t (BitVec.ofNat 9 e.2) e.1) t) i).shapeOk = true := by
    intro es
    induction es with
    | nil => intro t _ ht i; exact ht i
    | cons e es ih =>
      intro t he ht i
      refine ih _ (fun e' h' => he e' (List.mem_cons_of_mem _ h')) (fun j => ?_) i
      rw [Table.read_write]
      split
      · exact he e List.mem_cons_self
      · exact ht j
  refine key _ _ (fun e he => h e.1 ?_) (fun j => ?_) i
  · exact (List.mem_zipIdx' he).2 ▸ List.getElem_mem _
  · rw [Table.read_fill]; rfl

theorem twoSym_tree : TreeOf 2 twoSym := by decide +kernel

theorem oneSym_tree : TreeOf 1 oneSym := by decide +kernel

/-- The invariant of a state with a tree and its codes, the hidden registers empty. -/
theorem inv_of_parts {s : State} {n : Nat} (hn : n ≤ 256) (hp : s.params.legal = true) (hs : statusOk s)
    (ht : TreeOf n s) (hv : s.status.treeValid = true) (hshape : ∀ i, (Table.read s.nodes i).shapeOk = true)
    (hlast : Table.read s.nodes 511 = Node.blank) (hc : codesOk s) (hb : buffersOk s) (hh : s.hidden = Hidden.empty) :
    s.Inv :=
  { params := hp, status := hs, codes := hc, buffers := hb, hidden := hh
    tree := ⟨fun _ => ⟨n, hn, ht⟩, fun h => absurd (hv.symm.trans h) (by decide +kernel), hshape, hlast⟩ }

theorem twoSym_codes : codesOk twoSym := ⟨fun _ => ⟨rfl, rfl⟩, fun h => absurd h (by decide +kernel)⟩

theorem oneSym_codes : codesOk oneSym := ⟨fun _ => ⟨rfl, rfl⟩, fun h => absurd h (by decide +kernel)⟩

theorem twoSym_inv : twoSym.Inv :=
  inv_of_parts (n := 2) (by decide +kernel) (by decide +kernel) (by decide +kernel) twoSym_tree rfl (arena_shape _ (by decide +kernel))
    (by decide +kernel) twoSym_codes (by decide +kernel) rfl

theorem oneSym_inv : oneSym.Inv :=
  inv_of_parts (n := 1) (by decide +kernel) (by decide +kernel) (by decide +kernel) oneSym_tree rfl (arena_shape _ (by decide +kernel))
    (by decide +kernel) oneSym_codes (by decide +kernel) rfl

/-- twoSym while a NOP is running, the host to move twice first. -/
def runningNop : State :=
  (accepted 0 twoSym).withTurns [.host, .host]

theorem runningNop_inv : runningNop.Inv :=
  inv_of_parts (n := 2) (by decide +kernel) (by decide +kernel) (by decide +kernel) twoSym_tree rfl (arena_shape _ (by decide +kernel))
    (by decide +kernel) ⟨fun _ => ⟨rfl, rfl⟩, fun h => absurd h (by decide +kernel)⟩ (by decide +kernel) rfl

/-- A state without a tree: fresh after a NOP. -/
def idleDone : State := { fresh with status := { Status.reset with done := true } }

theorem idleDone_inv : idleDone.Inv where
  params := by decide +kernel
  status := by decide +kernel
  tree := ⟨fun h => absurd h (by decide +kernel), fun _ => ⟨rfl, rfl⟩,
    fun i => by rw [show idleDone.nodes = Table.fill 9 Node.blank from rfl, Table.read_fill]; rfl,
    by decide +kernel⟩
  codes := ⟨fun h => absurd h (by decide +kernel),
    fun _ b => by rw [show idleDone.codes = Table.fill 8 CodeEntry.clear from rfl, Table.read_fill]⟩
  buffers := by decide +kernel
  hidden := rfl

/-! ### Witnesses: states that meet the hypotheses of the statements -/

theorem witness_StepRunsTheLatchedCommand :
    (accepted 0x10 fresh).seq = .busy ∧ decode (accepted 0x10 fresh).cmdl = .ok .build
    ∧ (accepted 0x10 fresh).env.turns = []
    ∧ ((accepted 0x10 fresh).withTurns [.block]).env.turns = .block :: [] := by decide +kernel

theorem witness_IdleBlockHoldsAndHostMoves :
    ((fresh.withTurns [.block]).seq = .idle ∧ (fresh.withTurns [.block]).env.turns = .block :: [])
    ∧ (fresh.seq = .idle ∧ fresh.env.turns = [] ∧ fresh.env.program = [])
    ∧ (let s := (setProgram [.poll] fresh).withTurns [.host];
        s.env.turns = .host :: [] ∧ s.env.program = .poll :: [])
    ∧ ((setProgram [.poll] fresh).env.turns = [] ∧ (setProgram [.poll] fresh).seq = .idle
        ∧ (setProgram [.poll] fresh).env.program = .poll :: []) := by decide +kernel

theorem witness_ResetGivesTheStatedValues :
    ((accepted 0x10 twoSym).withTurns [.reset]).env.turns = .reset :: []
    ∧ (accepted 0x01 twoSym).cmdl = 0x00000001#32 := by decide +kernel

theorem witness_CmdWriteIsAcceptedWhenIdle : fresh.seq = .idle ∧ (accepted 0 fresh).seq = .busy := by decide +kernel

theorem witness_EveryCommandEndsIdleWithItsOwnErrors :
    (exec .nop fresh = .next (answer (exec .nop fresh)) ∧ (answer (exec .nop fresh)).status.err = false)
    ∧ (exec .unpack fresh = .next (answer (exec .unpack fresh)) ∧ (answer (exec .unpack fresh)).status.err = true)
    ∧ (exec .codegen fresh = .next (answer (exec .codegen fresh)) ∧ (answer (exec .codegen fresh)).status.err = true) :=
  ⟨⟨rfl, by decide +kernel⟩, ⟨rfl, by decide +kernel⟩, ⟨rfl, by decide +kernel⟩⟩

/-- The fault an outcome stops with. -/
def faultOf : Host.Outcome State Fault Refusal → Option Fault
  | .next _ => none
  | .fault f => some f
  | .refused _ => none

theorem fault_of_faultOf {o : Host.Outcome State Fault Refusal} {f : Fault} (h : faultOf o = some f) : o = .fault f := by
  cases o <;> simp_all [faultOf]

theorem codegen_runs {s : State} (h : faultOf (exec .codegen s) = none) :
    exec .codegen s = .next (answer (exec .codegen s)) := by
  revert h
  simp only [exec, execCodegen]
  split
  · split
    · intro _; rfl
    · intro h; cases h
  · intro _; rfl

theorem nop_runs (s : State) : exec .nop s = .next (answer (exec .nop s)) := rfl

theorem softReset_runs (s : State) : exec .softReset s = .next (answer (exec .softReset s)) := rfl

theorem ftClear_runs (s : State) : exec .ftClear s = .next (answer (exec .ftClear s)) := rfl

theorem pack_runs (s : State) : exec .pack s = .next (answer (exec .pack s)) := rfl

theorem unpack_runs (s : State) : exec .unpack s = .next (answer (exec .unpack s)) := rfl

theorem build_runs (s : State) : exec .build s = .next (answer (exec .build s)) := rfl

theorem witness_CommandsWriteOnlyTheirTargets :
    ∀ i ∈ [Instr.nop, .softReset, .ftClear, .build, .codegen, .pack, .unpack],
      exec i twoSym = .next (answer (exec i twoSym)) := by
  intro i hi
  simp only [List.mem_cons, List.not_mem_nil, or_false] at hi
  rcases hi with rfl | rfl | rfl | rfl | rfl | rfl | rfl
  · exact nop_runs _
  · exact softReset_runs _
  · exact ftClear_runs _
  · exact build_runs _
  · exact codegen_runs (by decide +kernel)
  · exact pack_runs _
  · exact unpack_runs _

theorem witness_IllegalWordIsReported :
    (accepted 0x80000021 fresh).seq = .busy ∧ decode (accepted 0x80000021 fresh).cmdl = .error .reservedBits
    ∧ decode (accepted 0xFF fresh).cmdl = .error .unassignedOp := by decide +kernel

theorem witness_BuildOfEmptyTableGivesNoTree : ∀ b, (Table.read fresh.ft b).present = false := fun b => by
  rw [show fresh.ft = Table.fill 8 FtEntry.clear from rfl, Table.read_fill]; rfl

theorem loaded_one (b : Byte) : (Table.read (loaded [(0xFF, 7)]).ft b).present = true ↔ b = 0xFF := by
  rw [show (loaded [(0xFF, 7)]).ft = Table.write (Table.fill 8 FtEntry.clear) 0xFF { present := true, count := 7 }
    from rfl, Table.read_write, Table.read_fill]
  split
  · simp_all
  · rename_i h
    simp only [FtEntry.clear, Bool.false_eq_true, false_iff]
    exact fun e => h e.symm

theorem witness_BuildOfOneByteAddsTheSentinel :
    ∀ b', (Table.read (loaded [(0xFF, 7)]).ft b').present = true ↔ b' = 0xFF := loaded_one

/-- The largest legal total (95_test_vectors T1.15), and the smallest that overflows (T1.14). -/
theorem witness_BuildTotals :
    (2 ≤ (presentSet (loaded [(0, 0xFFFFFFFE), (1, 1)])).length
      ∧ presentTotal (loaded [(0, 0xFFFFFFFE), (1, 1)]) = 0xFFFFFFFF)
    ∧ presentTotal (loaded [(0, 0xFFFFFFFF), (1, 1)]) = 0x100000000 := by decide +kernel

/-- BuildMergesTheTwoLeastKeys: n = 3 and i = 3 merges leaf 2 (weight 1) with leaf 1 (weight 2), and leaf 0 (weight 5) is
the node of each clause that is neither child; i = 4 merges leaf 0 and node 3, a node of an earlier merge. -/
theorem witness_BuildMergesTheTwoLeastKeys :
    (let s := loaded [(0, 5), (1, 2), (2, 1)]; let t := answer (exec .build s);
      (presentSet s).length = 3 ∧ t.status.err = false
      ∧ (nodeN t 3).left = 2 ∧ (nodeN t 3).right = 1 ∧ (nodeN t 4).left = 3 ∧ (nodeN t 4).right = 0
      ∧ keyLess t.nodes 2 0 = true ∧ keyLess t.nodes 1 0 = true
      ∧ childOf t 3 2 ∧ childOf t 3 1 ∧ ¬ childOf t 3 0)
    ∧ exec .build (loaded [(0, 5), (1, 2), (2, 1)]) = .next (answer (exec .build (loaded [(0, 5), (1, 2), (2, 1)]))) :=
  ⟨by decide +kernel, build_runs _⟩

theorem witness_BuildOverflowsExactlyAboveTheTotal :
    (answer (exec .build (loaded [(0, 0xFFFFFFFF), (1, 1)]))).status.err = true := by decide +kernel

theorem witness_BuildLeavesNoStaleCode :
    exec .build (withIn [0] 0 twoSym) = .next (answer (exec .build (withIn [0] 0 twoSym)))
    ∧ (let t := answer (exec .build (withIn [0] 0 twoSym)); 0 < t.inLen.toNat ∧ t.inLen.toNat ≤ t.params.inCap) :=
  ⟨build_runs _, by decide +kernel⟩

theorem witness_BuildWritesOnlyTheNodesItCounts :
    let t := answer (exec .build (loaded [(0, 1), (1, 1)]));
    t.status.err = false ∧ t.nodeCount.toNat ≤ (3 : NodeIdx).toNat := by decide +kernel

/-- Two tables with one mapping: the second also counts an absent byte. -/
theorem witness_BuildDependsOnTheMappingAlone :
    let s₁ := fresh; let s₂ := { fresh with ft := Table.write fresh.ft 7 { present := false, count := 9 } };
    (∀ b, (Table.read s₁.ft b).present = (Table.read s₂.ft b).present) ∧ Table.read s₁.ft 7 ≠ Table.read s₂.ft 7 := by
  refine ⟨fun b => ?_, by decide +kernel⟩
  rw [show fresh.ft = Table.fill 8 FtEntry.clear from rfl, Table.read_write, Table.read_fill]
  split <;> rfl

theorem witness_CodegenWithoutTreeReportsNoTree : idleDone.status.treeValid = false ∧ idleDone.Inv :=
  ⟨rfl, idleDone_inv⟩

theorem witness_CodegenWritesTheTreePaths : twoSym.Inv ∧ twoSym.status.treeValid = true := ⟨twoSym_inv, rfl⟩

theorem witness_CodegenGivesTheSentinelNoCode :
    oneSym.Inv ∧ oneSym.status.treeValid = true ∧ (nodeN oneSym 1).kind = .sentinel :=
  ⟨oneSym_inv, rfl, by decide +kernel⟩

theorem witness_CodegenOfALeafRoot :
    let s := { fresh with nodes := arena [leafNode 5 1], status := { Status.reset with treeValid := true } };
    s.status.treeValid = true ∧ (Table.read s.nodes s.root).kind = .leaf := by decide +kernel

/-- The one stop of the model happens: TREE_VALID = 1 over an arena that loops. -/
theorem witness_OnlyCodegenOffATreeStops :
    looped.status.treeValid = true ∧ exec .codegen looped = .fault .arenaNotATree :=
  ⟨rfl, fault_of_faultOf (by decide +kernel)⟩

theorem witness_ValidCodesFormAPrefixCode :
    (twoSym.Inv ∧ twoSym.status.codesValid = true) ∧ (idleDone.Inv ∧ idleDone.status.codesValid = false) :=
  ⟨⟨twoSym_inv, rfl⟩, ⟨idleDone_inv, rfl⟩⟩

theorem witness_ValidCodesAreComplete :
    (twoSym.Inv ∧ twoSym.status.codesValid = true ∧ TreeOf 2 twoSym)
    ∧ (oneSym.Inv ∧ oneSym.status.codesValid = true ∧ TreeOf 1 oneSym) :=
  ⟨⟨twoSym_inv, rfl, twoSym_tree⟩, ⟨oneSym_inv, rfl, oneSym_tree⟩⟩

/-- An output of exactly OUT_CAP bytes. -/
theorem witness_PackWritesTheCodesInOrder :
    let s := withIn (alternating 16) 0 twoSym;
    s.params.legal = true ∧ s.inLen.toNat ≤ s.params.inCap ∧ (∀ i < s.inLen.toNat, coded s i = true)
    ∧ (codeBitCount s + 7) / 8 = s.params.outCap := by decide +kernel

/-- The clauses of PackReportsTheFirstError, each at an edge: IN_LEN = IN_CAP + 1; the uncoded byte after two coded ones;
the fifth full byte, at the last input byte; the padded byte after four full ones. -/
theorem witness_PackReportsTheFirstError :
    (let s := { twoSym with inLen := 41 }; s.params.inCap < s.inLen.toNat)
    ∧ (let s := withIn [0, 1, 2] 0 twoSym;
        s.inLen.toNat ≤ s.params.inCap ∧ 2 < s.inLen.toNat ∧ (∀ j < 2, coded s j = true) ∧ coded s 2 = false
        ∧ bitsBefore s 2 / 8 ≤ s.params.outCap)
    ∧ (let s := withIn (alternating 20) 0 twoSym;
        s.inLen.toNat ≤ s.params.inCap ∧ 39 < s.inLen.toNat ∧ (∀ j ≤ 39, coded s j = true)
        ∧ bitsBefore s 39 / 8 ≤ s.params.outCap ∧ s.params.outCap < bitsBefore s 40 / 8)
    ∧ (let s := withIn (alternating 16 ++ [0]) 0 twoSym;
        s.inLen.toNat ≤ s.params.inCap ∧ (∀ i < s.inLen.toNat, coded s i = true)
        ∧ codeBitCount s / 8 ≤ s.params.outCap ∧ s.params.outCap < (codeBitCount s + 7) / 8) := by decide +kernel

/-- PackStoresOnlyItsOutput: a PACK that succeeds, and one for each of its errors. -/
theorem witness_PackStoresOnlyItsOutput :
    tiny.legal = true
    ∧ (answer (exec .pack (withIn [0, 1] 0 twoSym))).status.err = false
    ∧ (answer (exec .pack (withIn [0, 1, 2] 0 twoSym))).status.errCode = 4
    ∧ (answer (exec .pack (withIn (alternating 16 ++ [0]) 0 twoSym))).status.errCode = 10
    ∧ (answer (exec .pack { twoSym with inLen := 41 })).status.errCode = 9 := by decide +kernel

theorem witness_PackDependsOnItsOperandsAlone :
    let s₁ := withIn [0, 1] 0 twoSym; let s₂ := withIn [0, 1] 5 { twoSym with outLen := 3, errInfo := 8 };
    s₁.params = s₂.params ∧ s₁.codes = s₂.codes ∧ s₁.inLen = s₂.inLen
    ∧ (∀ k < s₁.inLen.toNat, inByte s₁ k = inByte s₂ k) ∧ s₁ ≠ s₂ :=
  ⟨rfl, rfl, rfl, by decide +kernel, fun h => absurd (congrArg State.padIn h) (by decide +kernel)⟩

theorem witness_NoPartialOutputIsVisible :
    tiny.legal = true ∧ (answer (exec .pack { twoSym with inLen := 41 })).status.err = true
    ∧ (answer (exec .unpack fresh)).status.err = true ∧ 4 * 0 < fresh.params.outCap := by decide +kernel

theorem witness_UnpackPrechecksInOrder :
    fresh.status.treeValid = false
    ∧ (let s := { twoSym with inLen := 41 }; s.status.treeValid = true ∧ s.params.inCap < s.inLen.toNat)
    ∧ (let s := withIn [0] 8 twoSym;
        s.status.treeValid = true ∧ s.inLen.toNat ≤ s.params.inCap ∧ 7 < s.padIn.toNat)
    ∧ (let s := withIn [] 1 twoSym;
        s.status.treeValid = true ∧ s.inLen.toNat ≤ s.params.inCap ∧ s.padIn.toNat ≤ 7
        ∧ 8 * s.inLen.toNat < s.padIn.toNat) := by decide +kernel

/-- `0` is the codeword of 00 and `1` that of 01 in twoSym. -/
theorem twoSym_codeword (b : Bool) : isCodeword twoSym.nodes twoSym.root [b] (if b then 1 else 0) := by
  cases b
  · exact ⟨by decide +kernel, 0, ⟨rfl, rfl⟩, rfl, rfl⟩
  · exact ⟨by decide +kernel, 1, ⟨rfl, rfl⟩, rfl, rfl⟩

theorem twoSym_codewords : areCodewords twoSym [[false], [true], [false], [true]] [0, 1, 0, 1] :=
  .cons (twoSym_codeword false) (.cons (twoSym_codeword true)
    (.cons (twoSym_codeword false) (.cons (twoSym_codeword true) .nil)))

/-- Four codewords fill OUT exactly. -/
theorem witness_UnpackEmitsTheDecodedBytes :
    let s := withIn [0x50] 4 twoSym;
    s.params.legal = true ∧ unpackReady s ∧ areCodewords s [[false], [true], [false], [true]] [0, 1, 0, 1]
    ∧ dataBits s = [[false], [true], [false], [true]].flatten ∧ [0, 1, 0, 1].length = s.params.outCap :=
  ⟨by decide +kernel, by decide +kernel, twoSym_codewords, by decide +kernel, rfl⟩

theorem oneSym_codewords : areCodewords oneSym [[false]] [0] :=
  .cons ⟨by decide +kernel, 0, ⟨rfl, rfl⟩, rfl, rfl⟩ .nil

theorem witness_UnpackStopsAtTheSentinel :
    let s := withIn [0x40] 5 oneSym;
    s.params.legal = true ∧ unpackReady s ∧ areCodewords s [[false]] [0]
    ∧ dataBits s = [[false]].flatten ++ [true] ++ [false] ∧ [0].length ≤ s.params.outCap ∧ [true] ≠ []
    ∧ walksTo s.nodes s.root [true] 1 ∧ (Table.read s.nodes 1).kind = .sentinel :=
  ⟨by decide +kernel, by decide +kernel, oneSym_codewords, by decide +kernel, by decide +kernel, by decide +kernel, ⟨rfl, rfl⟩, rfl⟩

theorem witness_UnpackReportsAPartialCode :
    let s := withIn [0x40] 6 threeSym;
    s.params.legal = true ∧ unpackReady s ∧ areCodewords s [[false]] [2]
    ∧ dataBits s = [[false]].flatten ++ [true] ∧ [2].length ≤ s.params.outCap
    ∧ walksTo s.nodes s.root [true] 3 ∧ (Table.read s.nodes 3).kind = .internal ∧ (3 : NodeIdx) ≠ s.root :=
  ⟨by decide +kernel, by decide +kernel, .cons ⟨by decide +kernel, 2, ⟨rfl, rfl⟩, rfl, rfl⟩ .nil, by decide +kernel, by decide +kernel, ⟨rfl, rfl⟩, rfl,
    by decide +kernel⟩

theorem witness_UnpackOverflowsAfterOutCapBytes :
    (let s := withIn [0x50] 3 twoSym;
      s.params.legal = true ∧ unpackReady s ∧ areCodewords s [[false], [true], [false], [true]] [0, 1, 0, 1]
      ∧ [0, 1, 0, 1].length = s.params.outCap
      ∧ dataBits s = [[false], [true], [false], [true]].flatten ++ [false] ++ []
      ∧ isCodeword s.nodes s.root [false] 0)
    ∧ (let s := withIn [0x50] 4 twoSym;
      unpackReady s ∧ dataBits s = [[false], [true], [false], [true]].flatten) :=
  ⟨⟨by decide +kernel, by decide +kernel, twoSym_codewords, rfl, by decide +kernel, twoSym_codeword false⟩,
    by decide +kernel, by decide +kernel⟩

theorem witness_UnpackIgnoresThePaddingBits :
    let s := withIn [0x50] 4 twoSym;
    (∀ k < dataLen s, inBit { s with inBuf := [(0, 0x5F)] } k = inBit s k) ∧ s.inBuf ≠ [(0, 0x5F)] := by decide +kernel

theorem witness_EmptyInputSucceeds :
    (twoSym.status.treeValid = true ∧ twoSym.inLen = 0 ∧ twoSym.padIn = 0)
    ∧ (let s := withIn [0] 7 twoSym; s.padIn.toNat ≤ 7 ∧ 1 ≤ s.inLen.toNat) := by decide +kernel

/-- UnpackStoresOnlyItsOutput: an UNPACK that succeeds, and one for each of its errors. -/
theorem witness_UnpackStoresOnlyItsOutput :
    tiny.legal = true
    ∧ (answer (exec .unpack (withIn [0x50] 4 twoSym))).status.err = false
    ∧ (answer (exec .unpack (withIn [0x40] 6 threeSym))).status.errCode = 5
    ∧ (answer (exec .unpack (withIn [0x40] 5 oneSym))).status.errCode = 6
    ∧ (answer (exec .unpack (withIn [0x50] 3 twoSym))).status.errCode = 10
    ∧ (answer (exec .unpack fresh)).status.errCode = 2
    ∧ (answer (exec .unpack (withIn [0] 8 twoSym))).status.errCode = 7
    ∧ (answer (exec .unpack (withIn [] 1 twoSym))).status.errCode = 8
    ∧ (answer (exec .unpack { twoSym with inLen := 41 })).status.errCode = 9 := by decide +kernel

/-- The input 00 01 with its table. -/
def tripStart : State := withIn [0, 1] 0 (loaded [(0, 1), (1, 1)])

theorem tripStart_present (b : Byte) : (Table.read tripStart.ft b).present = true ↔ b ∈ inputBytes tripStart := by
  rw [show inputBytes tripStart = [0, 1] by decide +kernel,
    show tripStart.ft = Table.write (Table.write (Table.fill 8 FtEntry.clear) 0 { present := true, count := 1 }) 1
      { present := true, count := 1 } from rfl]
  simp only [Table.read_write, Table.read_fill, List.mem_cons, List.not_mem_nil, or_false]
  by_cases h1 : (1 : Byte) = b
  · simp [h1.symm]
  · by_cases h0 : (0 : Byte) = b
    · simp [h0.symm]
    · simp only [h1, h0, if_false, FtEntry.clear, Bool.false_eq_true, false_iff]
      rintro (rfl | rfl)
      · exact h0 rfl
      · exact h1 rfl

theorem witness_PackThenUnpackRoundTrip :
    tripStart.params.legal = true ∧ 0 < tripStart.inLen.toNat ∧ tripStart.inLen.toNat ≤ tripStart.params.inCap
    ∧ (∀ b, (Table.read tripStart.ft b).present = true ↔ b ∈ inputBytes tripStart)
    ∧ presentTotal tripStart ≤ 0xFFFFFFFF
    ∧ (let s₃ := answer (exec .pack (answer (exec .codegen (answer (exec .build tripStart)))));
      let u := { s₃ with inBuf := [(0, 0x40)], inLen := s₃.outLen, padIn := s₃.padOut.zeroExtend 8 };
      s₃.status.errCode ≠ 10 ∧ s₃.outLen.toNat = 1 ∧ inByte u 0 = outByte s₃ 0
      ∧ (answer (exec .unpack u)).status.errCode ≠ 10) :=
  ⟨by decide +kernel, by decide +kernel, by decide +kernel, tripStart_present, by decide +kernel, by decide +kernel⟩

/-- Misaligned; unmapped just above the registers, below FT, above it, above CODE, above IN, above OUT; the last words of
the windows. -/
theorem witness_BadAddressesSetBusErr :
    (0x00000002#32).toNat % 4 ≠ 0
    ∧ (∀ a ∈ [0x28#32, 0x7FC#32, 0x1000#32, 0x8000#32, 0x01000028#32, 0x02000004#32, 0xFFFFFFFC#32], ¬ mappedAddr tiny a)
    ∧ fresh.seq = .idle := by simp [mappedAddr, tiny]; rfl

theorem witness_ReadOnlyWriteSetsBusErr :
    tiny.legal = true
    ∧ ∀ a ∈ [0x8#32, 0x14#32, 0x24#32, 0x2000#32, 0x7FFC#32, 0x02000000#32], a.toNat % 4 = 0 ∧ readOnlyAddr tiny a :=
  ⟨rfl, by simp [readOnlyAddr, tiny]⟩

theorem witness_BusyWritesAreDropped :
    (accepted 0 fresh).seq = .busy
    ∧ ∀ a ∈ [0x0#32, 0xC#32, 0x10#32, 0x800#32, 0xFFC#32, 0x01000000#32, 0x01000024#32],
      a.toNat % 4 = 0 ∧ operandAddr tiny a := by simp [operandAddr, tiny]; rfl

theorem witness_BusyReadsAreFreeValues :
    (accepted 0 fresh).seq = .busy
    ∧ ∀ a ∈ [0x8#32, 0x1C#32, 0x800#32, 0x2000#32, 0x7FFC#32, 0x01000024#32, 0x02000000#32],
      a.toNat % 4 = 0 ∧ mappedAddr tiny a ∧ a.toNat ∉ [0x0, 0x4, 0x20, 0x24] := by simp [mappedAddr, tiny]; rfl

/-- Idle states for the window and register statements; the last words of IN and OUT; a counted node and one above. -/
theorem witness_IdleWindows :
    tiny.legal = true ∧ twoSym.seq = .idle ∧ 4 * 9 < twoSym.params.inCap ∧ 4 * 0 < twoSym.params.outCap
    ∧ (2 : NodeIdx).toNat < twoSym.nodeCount.toNat ∧ twoSym.nodeCount.toNat ≤ (3 : NodeIdx).toNat
    ∧ (1 : Byte) ≠ 0 := by decide +kernel

theorem witness_HostCannotChangeARunningCommand : (accepted 0x20 twoSym).seq = .busy := rfl

theorem witness_PseudoInstructionsDoWhatTheyExpandTo :
    (let s := setProgram [.poll] fresh; s.seq = .idle ∧ s.status.busy = false ∧ s.env.program = .poll :: [])
    ∧ (let s := setProgram [.poll] (accepted 0 fresh); s.status.busy = true ∧ s.env.program = .poll :: [])
    ∧ (let s := setProgram ((HostStmt.run (.mnemonic .build)).expand ++ []) fresh;
      s.seq = .idle ∧ s.env.program = (HostStmt.run (.mnemonic .build)).expand ++ [])
    ∧ (let s := setProgram ((HostStmt.expect .cmd (.number 1)).expand ++ []) fresh;
      s.env.program = (HostStmt.expect .cmd (.number 1)).expand ++ [])
    ∧ tiny.legal = true ∧ fresh.seq = .idle ∧ (List.replicate 40 (1 : Byte)).length ≤ fresh.params.inCap := by decide +kernel

theorem witness_ResetMeetsTheInvariant : tiny.legal = true := by decide +kernel

theorem witness_StepKeepsTheInvariant :
    twoSym.Inv ∧ step twoSym = .next twoSym ∧ runningNop.Inv
    ∧ step runningNop = .next (hostStep (runningNop.withTurns [.host])) := ⟨twoSym_inv, rfl, runningNop_inv, rfl⟩

theorem witness_StepNeverStops : twoSym.Inv := twoSym_inv

theorem witness_BusyCommandCompletesAfterHostTurns :
    runningNop.Inv ∧ runningNop.seq = .busy ∧ runningNop.env.turns = List.replicate 2 .host :=
  ⟨runningNop_inv, rfl, rfl⟩

end Sys2Proof.Tests
end

section
/-! SUPPORT. Walks through the arena, what CODEGEN's traversal writes for them, and the tree of 10_state R40 seen as
walks from ROOT; from these the code-table invariant of 10_state R41. -/

namespace Sys2Proof.Machine

/-! ### Walks that end at a leaf (42_code_mapper R121) -/

/-- The bit-string p, possibly empty, leads from node i to a leaf of byte b. -/
def leadsToLeaf (nodes : Table 9 Node) (i : NodeIdx) (p : List Bool) (b : Byte) : Prop :=
  ∃ k, walksTo nodes i p k ∧ (Table.read nodes k).kind = .leaf ∧ (Table.read nodes k).sym = b

theorem isCodeword_iff_leadsToLeaf {nodes : Table 9 Node} {root : NodeIdx} {p : List Bool} {b : Byte} :
    isCodeword nodes root p b ↔ p ≠ [] ∧ leadsToLeaf nodes root p b := Iff.rfl

@[simp] theorem walksTo_nil {nodes : Table 9 Node} {i k : NodeIdx} : walksTo nodes i [] k ↔ i = k := Iff.rfl

@[simp] theorem walksTo_cons {nodes : Table 9 Node} {i k : NodeIdx} {bit : Bool} {p : List Bool} :
    walksTo nodes i (bit :: p) k ↔ (Table.read nodes i).kind = .internal ∧ walksTo nodes (childOn nodes i bit) p k :=
  Iff.rfl

theorem walksTo_append {nodes : Table 9 Node} {i k : NodeIdx} {p q : List Bool} :
    walksTo nodes i (p ++ q) k ↔ ∃ m, walksTo nodes i p m ∧ walksTo nodes m q k := by
  induction p generalizing i with
  | nil => simp
  | cons bit p ih => simp [ih, and_assoc]

theorem leadsToLeaf_of_leaf {nodes : Table 9 Node} {i : NodeIdx} {p : List Bool} {b : Byte}
    (h : (Table.read nodes i).kind = .leaf) : leadsToLeaf nodes i p b ↔ p = [] ∧ (Table.read nodes i).sym = b := by
  cases p <;> simp [leadsToLeaf, h]

theorem not_leadsToLeaf_of_sentinel {nodes : Table 9 Node} {i : NodeIdx} {p : List Bool} {b : Byte}
    (h : (Table.read nodes i).kind = .sentinel) : ¬ leadsToLeaf nodes i p b := by
  cases p <;> simp [leadsToLeaf, h]

theorem not_leadsToLeaf_nil_of_internal {nodes : Table 9 Node} {i : NodeIdx} {b : Byte}
    (h : (Table.read nodes i).kind = .internal) : ¬ leadsToLeaf nodes i [] b := by
  simp [leadsToLeaf, h]

theorem leadsToLeaf_cons {nodes : Table 9 Node} {i : NodeIdx} {bit : Bool} {p : List Bool} {b : Byte} :
    leadsToLeaf nodes i (bit :: p) b ↔
      (Table.read nodes i).kind = .internal ∧ leadsToLeaf nodes (childOn nodes i bit) p b := by
  simp [leadsToLeaf, and_assoc]

/-- No walk goes on past a leaf: of two walks to leaves, one a prefix of the other, both end at the same byte
(42_code_mapper R126). -/
theorem leadsToLeaf_prefix_unique {nodes : Table 9 Node} {i : NodeIdx} {p q : List Bool} {b₁ b₂ : Byte}
    (hp : leadsToLeaf nodes i p b₁) (hq : leadsToLeaf nodes i q b₂) (hpq : p <+: q) : b₁ = b₂ := by
  induction p generalizing i q with
  | nil =>
    obtain ⟨k, rfl, hleaf, hsym⟩ := hp
    obtain ⟨_, hsym'⟩ := (leadsToLeaf_of_leaf hleaf).mp hq
    exact hsym.symm.trans hsym'
  | cons bit p ih =>
    obtain ⟨r, rfl⟩ := hpq
    exact ih (leadsToLeaf_cons.mp hp).2 (leadsToLeaf_cons.mp hq).2 (List.prefix_append p r)

/-! ### The table CODEGEN derives (42_code_mapper R121) -/

/-- What a traversal from node i with the path p so far leaves in one entry, over any arena: the entry is as before and
no walk from i ends at a leaf of the byte, or it is the code of p followed by such a walk. -/
theorem visit_read {nodes : Table 9 Node} {levels : Nat} {i : NodeIdx} {p : List Bool}
    {codes codes' : Table 8 CodeEntry}
    (h : visit nodes levels i p codes = some codes') (b : Byte) :
    ((∀ q, ¬ leadsToLeaf nodes i q b) ∧ Table.read codes' b = Table.read codes b)
    ∨ ∃ q, q.length < levels ∧ leadsToLeaf nodes i q b ∧ Table.read codes' b = codeEntryOf (p ++ q) := by
  induction levels generalizing i p codes codes' with
  | zero => cases h
  | succ levels ih =>
    cases hk : (Table.read nodes i).kind with
    | sentinel =>
      cases (visit_sentinel hk levels p codes).symm.trans h
      exact .inl ⟨fun _ => not_leadsToLeaf_of_sentinel hk, rfl⟩
    | leaf =>
      cases (visit_leaf hk levels p codes).symm.trans h
      by_cases hb : (Table.read nodes i).sym = b
      · exact .inr ⟨[], by simp, (leadsToLeaf_of_leaf hk).mpr ⟨rfl, hb⟩, by simp [hb]⟩
      · exact .inl ⟨fun _ hq => hb ((leadsToLeaf_of_leaf hk).mp hq).2, Table.read_write_other _ _ hb⟩
    | internal =>
      rw [visit_internal hk] at h
      obtain ⟨mid, hleft, hright⟩ := Option.bind_eq_some_iff.mp h
      have extend : ∀ bit q, q.length < levels → leadsToLeaf nodes (childOn nodes i bit) q b →
          Table.read codes' b = codeEntryOf (p ++ [bit] ++ q) →
          ∃ q, q.length < levels + 1 ∧ leadsToLeaf nodes i q b ∧ Table.read codes' b = codeEntryOf (p ++ q) :=
        fun bit q hlen hq hread =>
          ⟨bit :: q, Nat.succ_lt_succ hlen, leadsToLeaf_cons.mpr ⟨hk, hq⟩, by simpa using hread⟩
      rcases ih hright with ⟨noRight, hr⟩ | ⟨q, hlen, hq, hr⟩
      · rcases ih hleft with ⟨noLeft, hl⟩ | ⟨q, hlen, hq, hl⟩
        · refine .inl ⟨fun q hq => ?_, hr.trans hl⟩
          match q with
          | [] => exact not_leadsToLeaf_nil_of_internal hk hq
          | false :: q => exact noLeft q (leadsToLeaf_cons.mp hq).2
          | true :: q => exact noRight q (leadsToLeaf_cons.mp hq).2
        · exact .inr (extend false q hlen hq (hr.trans hl))
      · exact .inr (extend true q hlen hq hr)

/-- The entry CODEGEN derives for a byte below an INTERNAL root: clear if the byte has no codeword, else the code of one
that fits the len field. -/
theorem deriveCodes_read {nodes : Table 9 Node} {root : NodeIdx} {codes : Table 8 CodeEntry}
    (hroot : (Table.read nodes root).kind = .internal) (h : deriveCodes nodes root = some codes) (b : Byte) :
    ((∀ p, ¬ isCodeword nodes root p b) ∧ Table.read codes b = CodeEntry.clear)
    ∨ ∃ p, p.length ≤ 255 ∧ isCodeword nodes root p b ∧ Table.read codes b = codeEntryOf p := by
  have hv : visit nodes 256 root [] (Table.fill 8 CodeEntry.clear) = some codes := by
    simpa only [deriveCodes, hroot] using h
  rcases visit_read hv b with ⟨noWalk, hr⟩ | ⟨p, hlen, hp, hr⟩
  · exact .inl ⟨fun p hp => noWalk p (isCodeword_iff_leadsToLeaf.mp hp).2, by simpa using hr⟩
  · have hne : p ≠ [] := by
      rintro rfl
      exact not_leadsToLeaf_nil_of_internal hroot hp
    exact .inr ⟨p, Nat.le_of_lt_succ hlen, isCodeword_iff_leadsToLeaf.mpr ⟨hne, hp⟩, hr⟩

/-- The valid entries are the bytes with a codeword. -/
theorem deriveCodes_valid_iff {nodes : Table 9 Node} {root : NodeIdx} {codes : Table 8 CodeEntry}
    (hroot : (Table.read nodes root).kind = .internal) (h : deriveCodes nodes root = some codes) (b : Byte) :
    (Table.read codes b).valid = true ↔ ∃ p, isCodeword nodes root p b := by
  rcases deriveCodes_read hroot h b with ⟨noCode, hr⟩ | ⟨p, -, hp, hr⟩
  · simp [hr, CodeEntry.clear, noCode]
  · simp only [hr, codeEntryOf, true_iff]
    exact ⟨p, hp⟩

/-- The code of a valid entry is a codeword of its byte. -/
theorem deriveCodes_isCodeword {nodes : Table 9 Node} {root : NodeIdx} {codes : Table 8 CodeEntry}
    (hroot : (Table.read nodes root).kind = .internal) (h : deriveCodes nodes root = some codes) {b : Byte}
    (hb : (Table.read codes b).valid = true) : isCodeword nodes root (codeBits (Table.read codes b)) b := by
  rcases deriveCodes_read hroot h b with ⟨-, hr⟩ | ⟨p, hlen, hp, hr⟩
  · simp [hr, CodeEntry.clear] at hb
  · rwa [hr, codeBits_codeEntryOf hlen]

/-! ### The tree of 10_state R40 as walks from ROOT -/

@[simp] theorem nodeN_toNat (s : State) (i : NodeIdx) : nodeN s i.toNat = Table.read s.nodes i := by simp [nodeN]

theorem TreeOf.root_succ {n : Nat} {s : State} (h : TreeOf n s) : s.root.toNat + 1 = s.nodeCount.toNat := by
  rcases h with ⟨-, hcount, hroot, -⟩ | ⟨hn, -, hcount, hroot, -⟩ <;> omega

/-- The counted INTERNAL nodes are the ones R40 describes. -/
theorem TreeOf.internalAt_of_kind {n : Nat} {s : State} (h : TreeOf n s) {i : Nat} (hi : i < s.nodeCount.toNat)
    (hk : (nodeN s i).kind = .internal) : internalAt s i := by
  rcases h with ⟨-, hcount, -, hleaf, hsentinel, hinternal, -⟩ | ⟨hn, -, hcount, -, hleaf, -, hinternal, -⟩
  · match i with
    | 0 => simp [hleaf] at hk
    | 1 => simp [hsentinel] at hk
    | 2 => exact hinternal
    | i + 3 => omega
  · have hge : n ≤ i := by
      by_contra hlt
      simp [hleaf i (by omega)] at hk
    simpa [Nat.add_sub_cancel' hge] using hinternal (i - n) (by omega)

theorem TreeOf.root_internal {n : Nat} {s : State} (h : TreeOf n s) : (Table.read s.nodes s.root).kind = .internal := by
  rw [← nodeN_toNat]
  rcases h with ⟨-, -, hroot, -, -, ⟨hk, -⟩, -⟩ | ⟨hn, -, -, hroot, -, -, hinternal, -⟩
  · rwa [hroot]
  · have hlast : n + (n - 2) = s.root.toNat := by omega
    exact hlast ▸ (hinternal (n - 2) (by omega)).1

/-- Every index below ROOT is a child of a later counted node. -/
theorem TreeOf.exists_parent {n : Nat} {s : State} (h : TreeOf n s) {j : Nat} (hj : j < s.root.toNat) :
    ∃ i, j < i ∧ i ≤ s.root.toNat ∧ childOf s i j := by
  have hcount := h.root_succ
  have key : ∃ i ≤ s.root.toNat, childOf s i j := by
    rcases h with ⟨-, -, hroot, -, -, ⟨hk, -⟩, hl, hr⟩ | ⟨hn, -, -, hroot, -, -, -, hparent⟩
    · refine ⟨2, by omega, hk, ?_⟩
      rw [hl, hr]
      show 0 = j ∨ 1 = j
      omega
    · obtain ⟨k, hk, hchild, -⟩ := hparent j (by omega)
      exact ⟨n + k, by omega, hchild⟩
  obtain ⟨i, hi, hchild⟩ := key
  obtain ⟨-, hl, hr, -⟩ := h.internalAt_of_kind (by omega) hchild.1
  exact ⟨i, by rcases hchild.2 with e | e <;> omega, hi, hchild⟩

/-- A child is one walk step away. -/
theorem walksTo_of_childOf {s : State} {i j : NodeIdx} (h : childOf s i.toNat j.toNat) :
    ∃ bit, walksTo s.nodes i [bit] j := by
  obtain ⟨hk, hlr⟩ := h
  rw [nodeN_toNat] at hk hlr
  rcases hlr with hl | hr
  · exact ⟨false, hk, BitVec.eq_of_toNat_eq hl⟩
  · exact ⟨true, hk, BitVec.eq_of_toNat_eq hr⟩

/-- Walks from a counted node stay among the counted nodes. -/
theorem TreeOf.walksTo_lt {n : Nat} {s : State} (h : TreeOf n s) {i k : NodeIdx} {p : List Bool}
    (hi : i.toNat < s.nodeCount.toNat) (hw : walksTo s.nodes i p k) : k.toNat < s.nodeCount.toNat := by
  induction p generalizing i with
  | nil => exact hw ▸ hi
  | cons bit p ih =>
    obtain ⟨hk, hw⟩ := hw
    obtain ⟨-, hl, hr, -⟩ := h.internalAt_of_kind hi (by rwa [nodeN_toNat])
    rw [nodeN_toNat] at hl hr
    refine ih ?_ hw
    cases bit with
    | false => exact hl.trans hi
    | true => exact hr.trans hi

/-- Every counted node is reached from ROOT: its parent is, and comes later in the arena. -/
theorem TreeOf.exists_walksTo {n : Nat} {s : State} (h : TreeOf n s) {j : NodeIdx}
    (hj : j.toNat < s.nodeCount.toNat) : ∃ p, walksTo s.nodes s.root p j := by
  have hcount := h.root_succ
  induction hd : s.root.toNat - j.toNat using Nat.strong_induction_on generalizing j with
  | _ d ih =>
    by_cases hroot : j = s.root
    · exact ⟨[], hroot.symm⟩
    · have hlt : j.toNat < s.root.toNat := by
        have : j.toNat ≠ s.root.toNat := fun e => hroot (BitVec.eq_of_toNat_eq e)
        omega
      obtain ⟨i, hji, hir, hchild⟩ := h.exists_parent hlt
      have hi : (BitVec.ofNat 9 i).toNat = i := Nat.mod_eq_of_lt (by omega)
      obtain ⟨p, hp⟩ := ih _ (by omega) (j := BitVec.ofNat 9 i) (by omega) rfl
      obtain ⟨bit, hbit⟩ := walksTo_of_childOf (i := BitVec.ofNat 9 i) (j := j) (by rwa [hi])
      exact ⟨p ++ [bit], walksTo_append.mpr ⟨_, hp, hbit⟩⟩

/-- The bytes with a codeword are the bytes of the counted leaves. -/
theorem TreeOf.exists_isCodeword_iff {n : Nat} {s : State} (h : TreeOf n s) (b : Byte) :
    (∃ p, isCodeword s.nodes s.root p b) ↔
      ∃ i < s.nodeCount.toNat, (nodeN s i).kind = .leaf ∧ (nodeN s i).sym = b := by
  have hcount := h.root_succ
  constructor
  · rintro ⟨p, -, k, hw, hleaf, hsym⟩
    exact ⟨k.toNat, h.walksTo_lt (by omega) hw, by rwa [nodeN_toNat], by rwa [nodeN_toNat]⟩
  · rintro ⟨i, hi, hleaf, hsym⟩
    have hlt : (BitVec.ofNat 9 i).toNat = i := Nat.mod_eq_of_lt (by omega)
    obtain ⟨p, hw⟩ := h.exists_walksTo (j := BitVec.ofNat 9 i) (by omega)
    have hp : leadsToLeaf s.nodes s.root p b := ⟨_, hw, hleaf, hsym⟩
    refine ⟨p, isCodeword_iff_leadsToLeaf.mpr ⟨?_, hp⟩⟩
    rintro rfl
    exact not_leadsToLeaf_nil_of_internal h.root_internal hp

/-! ### The code-table invariant (10_state R41) -/

/-- Settles O27: the codes are walks from ROOT to leaves, and a walk cannot go on past a leaf. -/
theorem validCodesFormAPrefixCode : Obligations.ValidCodesFormAPrefixCode := by
  intro s hinv
  refine ⟨fun hvalid => ?_, hinv.codes.2⟩
  obtain ⟨htree, hcodes⟩ := hinv.codes.1 hvalid
  obtain ⟨n, -, hn⟩ := hinv.tree.1 htree
  have codeword {b : Byte} (hb : (Table.read s.codes b).valid = true) :=
    isCodeword_iff_leadsToLeaf.mp (deriveCodes_isCodeword hn.root_internal hcodes hb)
  refine ⟨htree, fun b => ?_, fun b₁ b₂ hne h₁ h₂ hprefix => ?_, fun b hb => ⟨?_, ?_⟩⟩
  · exact (deriveCodes_valid_iff hn.root_internal hcodes b).trans (hn.exists_isCodeword_iff b)
  · exact hne (leadsToLeaf_prefix_unique (codeword h₁).2 (codeword h₂).2 hprefix)
  · rw [← codeBits_length]
    exact List.length_pos_of_ne_nil (codeword hb).1
  · exact Nat.le_of_lt_succ (Table.read s.codes b).len.isLt

end Sys2Proof.Machine
end

section
/-! SUPPORT. The address map read off by address: which location stands at which aligned address, what an access to it
does, and what the words of the windows hold; from these the statements of 20_memory about bad addresses, read-only
locations and the FT, NODE, CODE, IN and OUT windows. -/

namespace Sys2Proof.Machine

/-! ### Which location stands where (20_memory R46) -/

/-- The location l stands at the 4-aligned address addr. -/
structure StandsAt (p : Params) (addr : Word) (l : Loc) : Prop where
  fourAligned : addr.toNat % 4 = 0
  located : locate p addr = some l

theorem Params.inCap_le_of_legal {p : Params} (h : p.legal = true) : p.inCap ≤ 2 ^ 24 := by
  simp only [Params.legal, capacityLegal, Bool.and_eq_true, decide_eq_true_eq] at h
  exact h.1.2

theorem Params.outCap_le_of_legal {p : Params} (h : p.legal = true) : p.outCap ≤ 2 ^ 24 := by
  simp only [Params.legal, capacityLegal, Bool.and_eq_true, decide_eq_true_eq] at h
  exact h.2.2

theorem StandsAt.register {p : Params} {addr : Word} {l : Loc} (ha : addr.toNat % 4 = 0) (hb : addr.toNat < 0x800)
    (hl : locateRegister addr.toNat = some l) : StandsAt p addr l :=
  ⟨ha, by simp only [locate, if_pos hb, hl]⟩

theorem StandsAt.ftCount {p : Params} {addr : Word} {b : Nat} (h : addr.toNat = 0x800 + 8 * b) (hb : b < 256) :
    StandsAt p addr (.ftCount (BitVec.ofNat 8 b)) := by
  have hentry : (0x800 + 8 * b - 0x800) / 8 = b := by omega
  refine ⟨by omega, ?_⟩
  simp (disch := omega) only [locate, locateFt, h, if_neg, if_pos, hentry]

theorem StandsAt.ftPresent {p : Params} {addr : Word} {b : Nat} (h : addr.toNat = 0x804 + 8 * b) (hb : b < 256) :
    StandsAt p addr (.ftPresent (BitVec.ofNat 8 b)) := by
  have hentry : (0x804 + 8 * b - 0x800) / 8 = b := by omega
  refine ⟨by omega, ?_⟩
  simp (disch := omega) only [locate, locateFt, h, if_neg, if_pos, hentry]

theorem StandsAt.node {p : Params} {addr : Word} {i w : Nat} (h : addr.toNat = 0x2000 + 16 * i + 4 * w) (hi : i < 512)
    (hw : w < 4) : StandsAt p addr (.node (BitVec.ofNat 9 i) (BitVec.ofNat 2 w)) := by
  have hentry : (0x2000 + 16 * i + 4 * w - 0x2000) / 16 = i := by omega
  have hword : (0x2000 + 16 * i + 4 * w - 0x2000) / 4 % 4 = w := by omega
  refine ⟨by omega, ?_⟩
  simp (disch := omega) only [locate, h, if_neg, if_pos, hentry, hword]

theorem StandsAt.code {p : Params} {addr : Word} {b w : Nat} (h : addr.toNat = 0x4000 + 64 * b + 4 * w) (hb : b < 256)
    (hw : w < 16) : StandsAt p addr (.code (BitVec.ofNat 8 b) (BitVec.ofNat 4 w)) := by
  have hentry : (0x4000 + 64 * b + 4 * w - 0x4000) / 64 = b := by omega
  have hword : (0x4000 + 64 * b + 4 * w - 0x4000) / 4 % 16 = w := by omega
  refine ⟨by omega, ?_⟩
  simp (disch := omega) only [locate, h, if_neg, if_pos, hentry, hword]

theorem StandsAt.inWord {p : Params} {addr : Word} {j : Nat} (h : addr.toNat = 0x1000000 + 4 * j)
    (hj : 4 * j < p.inCap) : StandsAt p addr (.inWord (4 * j)) := by
  refine ⟨by omega, ?_⟩
  simp (disch := omega) only [locate, h, if_neg, if_pos, Nat.add_sub_cancel_left]

/-- OUT stands above IN only when IN_CAP does not reach it: an illegal capacity could. -/
theorem StandsAt.outWord {p : Params} {addr : Word} {j : Nat} (hp : p.legal = true)
    (h : addr.toNat = 0x2000000 + 4 * j) (hj : 4 * j < p.outCap) : StandsAt p addr (.outWord (4 * j)) := by
  have hcap := Params.inCap_le_of_legal hp
  refine ⟨by omega, ?_⟩
  simp (disch := omega) only [locate, h, if_neg, if_pos, Nat.add_sub_cancel_left]

theorem locateRegister_eq_none_iff {n : Nat} (hn : n % 4 = 0) : locateRegister n = none ↔ 0x28 ≤ n := by
  unfold locateRegister
  split <;> simp only [reduceCtorEq, false_iff, true_iff, imp_false] at * <;> omega

theorem locateRegister_readOnly {n : Nat} (hn : n % 4 = 0) (h : n = 0x8 ∨ 0x14 ≤ n ∧ n < 0x28) :
    ∃ l, locateRegister n = some l ∧ l.readOnly = true := by
  have : n = 0x8 ∨ n = 0x14 ∨ n = 0x18 ∨ n = 0x1C ∨ n = 0x20 ∨ n = 0x24 := by omega
  obtain rfl | rfl | rfl | rfl | rfl | rfl := this <;> exact ⟨_, rfl, rfl⟩

/-- An aligned address holds no location exactly when it lies in none of the mapped ranges (20_memory R55). -/
theorem locate_eq_none_iff {p : Params} {addr : Word} (ha : addr.toNat % 4 = 0) :
    locate p addr = none ↔ ¬ mappedAddr p addr := by
  simp only [locate, mappedAddr]
  split
  · rw [locateRegister_eq_none_iff ha]
    omega
  · split_ifs <;> simp <;> omega

/-- The two ways an address is bad (20_memory R54, R55). -/
theorem aligned_false_or_locate_none_iff {p : Params} {addr : Word} :
    aligned addr = false ∨ locate p addr = none ↔ addr.toNat % 4 ≠ 0 ∨ ¬ mappedAddr p addr := by
  rw [Bool.eq_false_iff, Ne, aligned_iff]
  by_cases ha : addr.toNat % 4 = 0
  · simp [ha, locate_eq_none_iff ha]
  · simp [ha]

/-- A read-only location stands at each aligned address of the read-only ranges (20_memory R46, R58). -/
theorem StandsAt.exists_readOnly {p : Params} {addr : Word} (hp : p.legal = true) (ha : addr.toNat % 4 = 0)
    (h : readOnlyAddr p addr) : ∃ l, StandsAt p addr l ∧ l.readOnly = true := by
  rw [readOnlyAddr, ← or_assoc] at h
  obtain hreg | ⟨hlo, hhi⟩ | ⟨hlo, hhi⟩ := h
  · obtain ⟨l, hl, hro⟩ := locateRegister_readOnly ha hreg
    exact ⟨l, .register ha (by omega) hl, hro⟩
  · by_cases hcode : addr.toNat < 0x4000
    · exact ⟨_, .node (i := (addr.toNat - 0x2000) / 16) (w := (addr.toNat - 0x2000) / 4 % 4)
        (by omega) (by omega) (by omega), rfl⟩
    · exact ⟨_, .code (b := (addr.toNat - 0x4000) / 64) (w := (addr.toNat - 0x4000) / 4 % 16)
        (by omega) (by omega) (by omega), rfl⟩
  · exact ⟨_, .outWord (j := (addr.toNat - 0x2000000) / 4) hp (by omega) (by omega), rfl⟩

/-! ### What an access does (20_memory R64, R65) -/

theorem busRead_of_bad {s : State} {addr : Word} (h : addr.toNat % 4 ≠ 0 ∨ ¬ mappedAddr s.params addr) :
    busRead addr s = (0, setBusErr s) := by
  rw [← aligned_false_or_locate_none_iff] at h
  obtain ⟨-, hread⟩ | ⟨l, ha, hl, -⟩ := busRead_cases addr s
  · exact hread
  · simp [ha, hl] at h

theorem busWrite_of_bad {s : State} {addr data : Word} (h : addr.toNat % 4 ≠ 0 ∨ ¬ mappedAddr s.params addr) :
    busWrite addr data s = setBusErr s := by
  rw [← aligned_false_or_locate_none_iff] at h
  obtain ⟨-, hwrite⟩ | ⟨l, ha, hl, -⟩ := busWrite_cases addr data s
  · exact hwrite
  · simp [ha, hl] at h

theorem StandsAt.not_bad {p : Params} {addr : Word} {l : Loc} (h : StandsAt p addr l) :
    ¬ (aligned addr = false ∨ locate p addr = none) := by
  simp [(aligned_iff addr).mpr h.fourAligned, h.located]

theorem StandsAt.busRead_idle {s : State} {addr : Word} {l : Loc} (h : StandsAt s.params addr l) (hs : s.seq = .idle) :
    busRead addr s = (locValue s l, s) := by
  obtain ⟨hbad, -⟩ | ⟨l', -, hl, ⟨-, hread⟩ | ⟨-, hbusy, -⟩⟩ := busRead_cases addr s
  · exact absurd hbad h.not_bad
  · cases h.located.symm.trans hl
    exact hread
  · simp [hs] at hbusy

theorem StandsAt.busWrite_readOnly {s : State} {addr data : Word} {l : Loc} (h : StandsAt s.params addr l)
    (hro : l.readOnly = true) : busWrite addr data s = setBusErr s := by
  obtain ⟨-, hwrite⟩ | ⟨l', -, hl, hcases⟩ := busWrite_cases addr data s
  · exact hwrite
  cases h.located.symm.trans hl
  obtain ⟨rfl, -⟩ | ⟨-, hwrite⟩ | ⟨-, hrw, -⟩ | ⟨-, hrw, -⟩ := hcases
  · cases hro
  · exact hwrite
  all_goals simp [hro] at hrw

theorem StandsAt.busWrite_idle {s : State} {addr data : Word} {l : Loc} (h : StandsAt s.params addr l)
    (hrw : l.readOnly = false) (hl : l ≠ .status) (hs : s.seq = .idle) :
    busWrite addr data s = storeAt l data s := by
  obtain ⟨hbad, -⟩ | ⟨l', -, hl', hcases⟩ := busWrite_cases addr data s
  · exact absurd hbad h.not_bad
  cases h.located.symm.trans hl'
  obtain ⟨hstatus, -⟩ | ⟨hro, -⟩ | ⟨-, -, hbusy, -⟩ | ⟨-, -, -, hwrite⟩ := hcases
  · exact absurd hstatus hl
  · simp [hrw] at hro
  · simp [hs] at hbusy
  · exact hwrite

/-! ### The words of the windows (20_memory R47 to R52) -/

theorem nodeWord_of_nodeCount_le {s : State} {i : NodeIdx} (h : s.nodeCount.toNat ≤ i.toNat) (w : BitVec 2) :
    nodeWord s i w = 0 := by simp only [nodeWord, if_pos h]

/-- Word 3 of an entry of the NODE window is reserved. -/
@[simp] theorem nodeWord_three (s : State) (i : NodeIdx) : nodeWord s i 3#2 = 0 := by simp [nodeWord]

theorem nodeWord_zero_fields {s : State} {i : NodeIdx} (h : i.toNat < s.nodeCount.toNat) :
    (nodeWord s i 0).extractLsb' 0 2 = (Table.read s.nodes i).kind.code ∧ (nodeWord s i 0).extractLsb' 2 6 = 0
    ∧ (nodeWord s i 0).extractLsb' 8 8 = (Table.read s.nodes i).sym ∧ (nodeWord s i 0).extractLsb' 16 16 = 0 := by
  have hword : nodeWord s i 0 = 0#16 ++ (Table.read s.nodes i).sym ++ 0#6 ++ (Table.read s.nodes i).kind.code :=
    if_neg (Nat.not_le.mpr h)
  rw [hword]
  simp (disch := omega) only [BitVec.extractLsb'_append_eq_of_le, BitVec.extractLsb'_append_eq_of_add_le,
    Nat.reduceSub, BitVec.extractLsb'_eq_self, BitVec.extractLsb'_zero, BitVec.ofNat_eq_ofNat, and_self]

theorem nodeWord_one {s : State} {i : NodeIdx} (h : i.toNat < s.nodeCount.toNat) :
    nodeWord s i 1 = (Table.read s.nodes i).weight := if_neg (Nat.not_le.mpr h)

theorem nodeWord_two_fields {s : State} {i : NodeIdx} (h : i.toNat < s.nodeCount.toNat) :
    (nodeWord s i 2).extractLsb' 0 9 = (Table.read s.nodes i).left ∧ (nodeWord s i 2).extractLsb' 9 7 = 0
    ∧ (nodeWord s i 2).extractLsb' 16 9 = (Table.read s.nodes i).right ∧ (nodeWord s i 2).extractLsb' 25 7 = 0 := by
  have hword : nodeWord s i 2 = 0#7 ++ (Table.read s.nodes i).right ++ 0#7 ++ (Table.read s.nodes i).left :=
    if_neg (Nat.not_le.mpr h)
  rw [hword]
  simp (disch := omega) only [BitVec.extractLsb'_append_eq_of_le, BitVec.extractLsb'_append_eq_of_add_le,
    Nat.reduceSub, BitVec.extractLsb'_eq_self, BitVec.extractLsb'_zero, BitVec.ofNat_eq_ofNat, and_self]

theorem codeWord_zero_fields (s : State) (b : Byte) :
    (codeWord s b 0).extractLsb' 0 8 = (Table.read s.codes b).len
    ∧ (codeWord s b 0).getLsbD 8 = (Table.read s.codes b).valid ∧ (codeWord s b 0).extractLsb' 9 23 = 0 := by
  have hword : codeWord s b 0 = 0#23 ++ BitVec.ofBool (Table.read s.codes b).valid ++ (Table.read s.codes b).len := rfl
  rw [hword]
  refine ⟨BitVec.extractLsb'_append_eq_right, ?_, ?_⟩
  · simp only [BitVec.getLsbD_append]
    simp
  · simp (disch := omega) only [BitVec.extractLsb'_append_eq_of_le, BitVec.extractLsb'_zero,
      BitVec.ofNat_eq_ofNat]

/-- Words 1 to 8 of an entry of the CODE window are the code value, low word first. -/
theorem getLsbD_codeWord {s : State} {b : Byte} {w : BitVec 4} {j : Nat} (h₁ : 1 ≤ w.toNat) (h₈ : w.toNat ≤ 8)
    (hj : j < 32) :
    (codeWord s b w).getLsbD j = (Table.read s.codes b).bits.getLsbD (32 * (w.toNat - 1) + j) := by
  simp only [codeWord, if_neg (Nat.ne_of_gt h₁), if_pos h₈, BitVec.getLsbD_extractLsb', hj, decide_true, Bool.true_and]

/-- Words 9 to 15 of an entry of the CODE window are reserved. -/
theorem codeWord_reserved {s : State} {b : Byte} {w : BitVec 4} (h : 9 ≤ w.toNat) : codeWord s b w = 0 := by
  simp (disch := omega) only [codeWord, if_neg]

theorem toNat_append_eq_add {m n : Nat} (x : BitVec m) (y : BitVec n) :
    (x ++ y).toNat = x.toNat * 2 ^ n + y.toNat := by
  rw [BitVec.toNat_append, ← Nat.shiftLeft_add_eq_or_of_lt y.isLt, Nat.shiftLeft_eq]

theorem laneWord_toNat (b₀ b₁ b₂ b₃ : Byte) : (laneWord b₀ b₁ b₂ b₃).toNat =
    b₀.toNat + b₁.toNat * 2 ^ 8 + b₂.toNat * 2 ^ 16 + b₃.toNat * 2 ^ 24 := by
  simp only [laneWord, toNat_append_eq_add]
  omega

theorem inByte_writeInWord (off k : Nat) (data : Word) (s : State) :
    inByte (writeInWord off data s) k = if off ≤ k ∧ k < off + 4 then laneByte data (k - off) else inByte s k := by
  simp only [inByte, read_writeInWord]
  split <;> rfl

theorem outVisible_toNat (s : State) (k : Nat) :
    (outVisible s k).toNat = if k < s.outLen.toNat then (outByte s k).toNat else 0 := by
  rw [outVisible, ← ite_not, apply_ite BitVec.toNat]
  simp only [Nat.not_le, BitVec.ofNat_eq_ofNat, BitVec.toNat_zero]

/-! ### Reads of the windows while the block is idle -/

theorem busRead_nodeWindow {s : State} {i w : Nat} (hs : s.seq = .idle) (hi : i < 512) (hw : w < 4) :
    busRead (BitVec.ofNat 32 (0x2000 + 16 * i + 4 * w)) s = (nodeWord s (BitVec.ofNat 9 i) (BitVec.ofNat 2 w), s) :=
  (StandsAt.node (Nat.mod_eq_of_lt (by omega)) hi hw).busRead_idle hs

theorem busRead_codeWindow {s : State} {b w : Nat} (hs : s.seq = .idle) (hb : b < 256) (hw : w < 16) :
    busRead (BitVec.ofNat 32 (0x4000 + 64 * b + 4 * w)) s = (codeWord s (BitVec.ofNat 8 b) (BitVec.ofNat 4 w), s) :=
  (StandsAt.code (Nat.mod_eq_of_lt (by omega)) hb hw).busRead_idle hs

/-! ### Bad addresses and read-only locations (20_memory R54, R55, R58) -/

/-- Settles O43: a bad address holds no location, and a reserved word of a window is a location whose value is 0. -/
theorem badAddressesSetBusErr : Obligations.BadAddressesSetBusErr := by
  refine ⟨fun s addr data h => ⟨busRead_of_bad h, busWrite_of_bad h⟩, fun s hs => ⟨fun i hi => ?_, ?_⟩⟩
  · exact (busRead_nodeWindow (w := 3) hs hi (by decide)).trans (by simp)
  · intro b hb w hw hres
    rw [busRead_codeWindow hs hb hw, codeWord_reserved]
    rwa [BitVec.toNat_ofNat, Nat.mod_eq_of_lt hw]

/-- Settles O44: a read-only location stands at each such address, and a write to it only sets BUSERR. -/
theorem readOnlyWriteSetsBusErr : Obligations.ReadOnlyWriteSetsBusErr := by
  intro s addr data hp ha h
  obtain ⟨l, hl, hro⟩ := StandsAt.exists_readOnly hp ha h
  exact hl.busWrite_readOnly hro

/-! ### The windows (20_memory R47 to R51) -/

/-- Settles O49: the word at either address of entry b is one field of it, read and written through Table.read and
Table.write. -/
theorem ftWindowReadsAndWritesOneField : Obligations.FtWindowReadsAndWritesOneField := by
  intro s b data hs
  have hb := b.isLt
  constructor
  · have hat : StandsAt s.params (BitVec.ofNat 32 (0x800 + 8 * b.toNat)) (.ftCount b) := by
      simpa using StandsAt.ftCount (b := b.toNat) (Nat.mod_eq_of_lt (by omega)) hb
    dsimp only
    rw [hat.busRead_idle hs, hat.busWrite_idle rfl nofun hs]
    exact ⟨rfl, Table.read_write_same .., fun b' hb' => Table.read_write_other _ _ hb'.symm, rfl⟩
  · have hat : StandsAt s.params (BitVec.ofNat 32 (0x804 + 8 * b.toNat)) (.ftPresent b) := by
      simpa using StandsAt.ftPresent (b := b.toNat) (Nat.mod_eq_of_lt (by omega)) hb
    dsimp only
    rw [hat.busRead_idle hs, hat.busWrite_idle rfl nofun hs]
    refine ⟨?_, Table.read_write_same .., fun b' hb' => Table.read_write_other _ _ hb'.symm, rfl⟩
    simp only [locValue]
    cases (Table.read s.ft b).present <;> rfl

/-- Settles O50: every word of the window is nodeWord of the entry, whose fields stand at the places of R48. -/
theorem nodeWindowShowsTheArena : Obligations.NodeWindowShowsTheArena := by
  intro s i hs n word
  have hword {w : Nat} (hw : w < 4) : word w = nodeWord s i (BitVec.ofNat 2 w) := by
    simp [word, busRead_nodeWindow hs i.isLt hw]
  refine ⟨fun h w hw => (hword hw).trans (nodeWord_of_nodeCount_le h _), fun h => ?_⟩
  obtain ⟨hkind, hpad₂, hsym, hpad₁₆⟩ := nodeWord_zero_fields h
  obtain ⟨hleft, hpad₉, hright, hpad₂₅⟩ := nodeWord_two_fields h
  rw [hword (w := 0) (by decide), hword (w := 1) (by decide), hword (w := 2) (by decide), hword (w := 3) (by decide)]
  exact ⟨hkind.trans (by cases n.kind <;> rfl), hpad₂, hsym, hpad₁₆, nodeWord_one h, hleft, hpad₉, hright, hpad₂₅,
    nodeWord_three s i⟩

/-- Settles O51: every word of the window is codeWord of the entry. -/
theorem codeWindowShowsTheCodes : Obligations.CodeWindowShowsTheCodes := by
  intro s b hs c word
  have hword {w : Nat} (hw : w < 16) : word w = codeWord s b (BitVec.ofNat 4 w) := by
    simp [word, busRead_codeWindow hs b.isLt hw]
  have hval {w : Nat} (hw : w < 16) : (BitVec.ofNat 4 w).toNat = w := Nat.mod_eq_of_lt hw
  obtain ⟨hlen, hvalid, hpad⟩ := codeWord_zero_fields s b
  rw [hword (w := 0) (by decide)]
  refine ⟨hlen, hvalid, hpad, fun w h₁ h₈ j hj => ?_, fun w h₉ h₁₅ => ?_⟩
  · have hlt : w < 16 := by omega
    rw [hword hlt, getLsbD_codeWord (by rwa [hval hlt]) (by rwa [hval hlt]) hj, hval hlt]
  · have hlt : w < 16 := by omega
    rw [hword hlt, codeWord_reserved (by rwa [hval hlt])]

/-- Settles O52: the word at offset 4j is the location of the four bytes from there on; a write is writeInWord. -/
theorem inWindowReadsAndWritesFourBytes : Obligations.InWindowReadsAndWritesFourBytes := by
  intro s j data hp hs hj
  have hcap := Params.inCap_le_of_legal hp
  have hat : StandsAt s.params (BitVec.ofNat 32 (0x01000000 + 4 * j)) (.inWord (4 * j)) :=
    .inWord (Nat.mod_eq_of_lt (by omega)) hj
  dsimp only
  rw [hat.busRead_idle hs, hat.busWrite_idle rfl nofun hs]
  refine ⟨rfl, laneWord_toNat .., ?_, ?_, ?_, ?_, fun k hk => ?_, writeInWord_frame ..⟩
  iterate 4 · simp [storeAt, inByte_writeInWord, laneByte]
  · have : ¬ (4 * j ≤ k ∧ k < 4 * j + 4) := by omega
    simp [storeAt, inByte_writeInWord, this]

/-- Settles O53: the word at offset 4j is made of four visible bytes, which are 0 from OUT_LEN on. -/
theorem outWindowHidesBytesFromOutLen : Obligations.OutWindowHidesBytesFromOutLen := by
  intro s j hp hs hj shown r
  have hcap := Params.outCap_le_of_legal hp
  have hr : r = (outWordAt s (4 * j), s) :=
    (StandsAt.outWord hp (Nat.mod_eq_of_lt (by omega)) hj).busRead_idle hs
  have hsum : r.1.toNat = shown (4 * j) + shown (4 * j + 1) * 2 ^ 8 + shown (4 * j + 2) * 2 ^ 16
      + shown (4 * j + 3) * 2 ^ 24 := by
    simp only [hr, outWordAt, laneWord_toNat, outVisible_toNat, shown]
  refine ⟨by rw [hr], hsum, fun h => BitVec.eq_of_toNat_eq ?_⟩
  simpa [shown, h] using hsum

end Sys2Proof.Machine
end

section
/-! SUPPORT. What the decoder answers (30_encoding R70, R71, R73, R74): the two fields of a word as numbers, the words of
the seven commands, and the words that are ILLEGAL. -/

namespace Sys2Proof

/-! ### The fields of a word (30_encoding R70) -/

theorem opField_toNat (w : Word) : (opField w).toNat = w.toNat % 256 := by
  simp [opField]

theorem rsvdField_toNat (w : Word) : (rsvdField w).toNat = w.toNat / 256 := by
  have hlt : w.toNat / 256 < 2 ^ 24 := by omega
  simpa [rsvdField, Nat.shiftRight_eq_div_pow] using hlt

theorem rsvdField_eq_zero_iff {w : Word} : rsvdField w = 0 ↔ w.toNat / 256 = 0 := by
  rw [← BitVec.toNat_inj, rsvdField_toNat, BitVec.ofNat_eq_ofNat, BitVec.toNat_zero]

theorem rsvdField_append_opField (w : Word) : rsvdField w ++ opField w = w := by
  apply BitVec.eq_of_toNat_eq
  rw [Machine.toNat_append_eq_add, rsvdField_toNat, opField_toNat]
  omega

theorem eq_encode_of_fields {w : Word} {i : Instr} (hrsvd : rsvdField w = 0) (hop : opField w = opcode i) :
    w = encode i := by
  rw [← rsvdField_append_opField w, hrsvd, hop]
  rfl

/-! ### The opcode map (30_encoding R71) -/

theorem eq_opcode_of_decodeOp {op : Byte} {i : Instr} (h : decodeOp op = .ok i) : op = opcode i := by
  unfold decodeOp at h
  split at h <;> cases h <;> exact BitVec.eq_of_toNat_eq ‹_›

theorem exists_decodeOp_eq_error_iff {op : Byte} :
    (∃ e, decodeOp op = .error e) ↔ op.toNat ∉ [0x00, 0x01, 0x02, 0x10, 0x11, 0x20, 0x21] := by
  unfold decodeOp
  split <;> simp_all

/-! ### The decode of a word (30_encoding R73, R74) -/

theorem decode_of_reserved {w : Word} (h : rsvdField w ≠ 0) : decode w = .error .reservedBits := if_pos h

theorem decode_of_rsvdField_eq_zero {w : Word} (h : rsvdField w = 0) : decode w = decodeOp (opField w) :=
  if_neg (not_not.mpr h)

theorem decode_encode (i : Instr) : decode (encode i) = .ok i := by
  cases i <;> rfl

/-- The only word that decodes to a command is its encoding. -/
theorem decode_eq_ok_iff {w : Word} {i : Instr} : decode w = .ok i ↔ w = encode i := by
  refine ⟨fun h => ?_, fun h => h ▸ decode_encode i⟩
  by_cases hrsvd : rsvdField w = 0
  · rw [decode_of_rsvdField_eq_zero hrsvd] at h
    exact eq_encode_of_fields hrsvd (eq_opcode_of_decodeOp h)
  · cases (decode_of_reserved hrsvd).symm.trans h

theorem exists_decode_eq_error_iff {w : Word} : (∃ e, decode w = .error e) ↔
    w.toNat / 256 ≠ 0 ∨ w.toNat % 256 ∉ [0x00, 0x01, 0x02, 0x10, 0x11, 0x20, 0x21] := by
  rw [← opField_toNat, ← exists_decodeOp_eq_error_iff, ne_eq, ← rsvdField_eq_zero_iff]
  by_cases hrsvd : rsvdField w = 0
  · rw [decode_of_rsvdField_eq_zero hrsvd, or_iff_right (not_not.mpr hrsvd)]
  · exact iff_of_true ⟨_, decode_of_reserved hrsvd⟩ (.inl hrsvd)

/-- Settles O1: each command is decoded from its encoding alone, and a word is ILLEGAL for one of its two fields. -/
theorem decodeAcceptsExactlyTheSevenWords : Obligations.DecodeAcceptsExactlyTheSevenWords := fun _ =>
  ⟨decode_eq_ok_iff, decode_eq_ok_iff, decode_eq_ok_iff, decode_eq_ok_iff, decode_eq_ok_iff, decode_eq_ok_iff,
    decode_eq_ok_iff, exists_decode_eq_error_iff⟩

end Sys2Proof
end

section
/-! SUPPORT. Command acceptance, the housekeeping commands and the illegal word (40_control R90 to R95): what a write to
CMD does, what each of the commands leaves, and what an illegal word reports. -/

namespace Sys2Proof.Machine

/-! ### A write to CMD (40_control R90) -/

theorem StandsAt.cmd (p : Params) : StandsAt p 0x00000000#32 .cmd := .register rfl (by decide) rfl

/-- While BUSY a write to a writable location other than STATUS is dropped (70 R190). -/
theorem StandsAt.busWrite_busy {s : State} {addr data : Word} {l : Loc} (h : StandsAt s.params addr l)
    (hrw : l.readOnly = false) (hl : l ≠ .status) (hs : s.seq = .busy) : busWrite addr data s = setWbusy s := by
  obtain ⟨hbad, -⟩ | ⟨l', -, hl', hcases⟩ := busWrite_cases addr data s
  · exact absurd hbad h.not_bad
  cases h.located.symm.trans hl'
  obtain ⟨hstatus, -⟩ | ⟨hro, -⟩ | ⟨-, -, -, hwrite⟩ | ⟨-, -, hidle, -⟩ := hcases
  · exact absurd hstatus hl
  · simp [hrw] at hro
  · exact hwrite
  · simp [hs] at hidle

/-- Settles O6: a write to CMD, at address 0, is acceptCommand while IDLE and is dropped while BUSY. -/
theorem cmdWriteIsAcceptedWhenIdle : Obligations.CmdWriteIsAcceptedWhenIdle := fun s w =>
  ⟨fun hs => (StandsAt.cmd s.params).busWrite_idle rfl nofun hs,
    fun hs => by rw [(StandsAt.cmd s.params).busWrite_busy rfl nofun hs, setWbusy_cmdl]⟩

/-! ### The housekeeping commands (40_control R92 to R94) -/

theorem exec_nop (s : State) : exec .nop s = .next (complete s) := rfl

theorem exec_softReset (s : State) : exec .softReset s = .next (complete (softResetBody s)) := rfl

theorem exec_ftClear (s : State) : exec .ftClear s = .next (complete (clearFt s)) := rfl

/-- The word of T0.2 (95_test_vectors): STATUS with DONE set and every other field as after reset. -/
theorem statusWord_reset_done : statusWord { Status.reset with done := true } = 0x00000002#32 := rfl

/-- The body writes its reset value to every field that is not taken from s here; the report and the hidden registers
are complete()'s. -/
theorem complete_softResetBody (s : State) : complete (softResetBody s) =
    { State.resetWith s.params with
      status := { Status.reset with done := true }
      nodes := s.nodes, inBuf := s.inBuf, outBuf := s.outBuf, cmdl := s.cmdl
      epoch := s.epoch, draws := s.draws, env := s.env } := rfl

theorem treeInfoWord_eq_zero {s : State} (hcount : s.nodeCount = 0) (hroot : s.root = 0) : treeInfoWord s = 0 := by
  rw [treeInfoWord, hcount, hroot]
  rfl

theorem presentSet_eq_nil_iff {s : State} : presentSet s = [] ↔ ∀ b, (Table.read s.ft b).present = false := by
  simp [List.eq_nil_iff_forall_not_mem, mem_presentSet]

/-- Settles O10: NOP is complete() alone; of the reset STATUS, acceptance and completion change DONE only. -/
theorem nopOnlyCompletes : Obligations.NopOnlyCompletes := by
  refine ⟨exec_nop, fun p => ⟨_, exec_nop _, ?_⟩⟩
  rw [complete_status, acceptCommand_status]
  exact statusWord_reset_done

/-- Settles O11: the end state is that of complete_softResetBody, from which its three words are read. -/
theorem softResetIsResetButDone : Obligations.SoftResetIsResetButDone := fun s =>
  ⟨_, exec_softReset s, complete_softResetBody s, statusWord_reset_done, treeInfoWord_eq_zero rfl rfl, rfl⟩

/-- Settles O12: FT_CLEAR is clearFt and complete(); the cleared table reads absent everywhere. -/
theorem ftClearEmptiesTheTable : Obligations.FtClearEmptiesTheTable := by
  intro s
  have hread (b : Byte) : Table.read (complete (clearFt s)).ft b = FtEntry.clear := by simp
  refine ⟨_, exec_ftClear s, hread, rfl, presentSet_eq_nil_iff.mpr fun b => ?_⟩
  rw [hread]
  rfl

/-! ### The illegal word (40_control R95) -/

/-- The block's turn on an illegal word reports the word itself. -/
theorem blockStep_of_illegal {s : State} {e : Illegal} (hs : s.seq = .busy) (hd : decode s.cmdl = .error e) :
    blockStep s = .next (raiseError none .illegalCmd s.cmdl.toNat s) := by
  obtain ⟨hidle, -⟩ | ⟨i, -, hok, -⟩ | ⟨_, -, -, hstep⟩ := blockStep_cases s
  · simp [hs] at hidle
  · simp [hd] at hok
  · exact hstep

/-- Outside PACK and UNPACK an error writes the report alone (60_exceptions R162); ERR_INFO is 32 bits, so it holds the
whole word. -/
theorem raiseError_illegalCmd (w : Word) (s : State) : raiseError none .illegalCmd w.toNat s =
    { s with
      status := { s.status with busy := false, done := true, err := true, errCode := 1 }
      errInfo := w, seq := .idle, hidden := Hidden.empty } := by
  simp [raiseError, clearsOutput, Status.fail, ErrKind.code]

/-- Settles O13: an illegal word is reported by raiseError; 0x0000_0110 has a reserved bit set, 0x0000_0003 an opcode
that is not assigned. -/
theorem illegalWordIsReported : Obligations.IllegalWordIsReported := by
  refine ⟨fun s e hs hd => ?_, ⟨_, decode_of_reserved (by decide)⟩, fun p => ?_⟩
  · rw [blockStep_of_illegal hs hd, raiseError_illegalCmd]
  · have hdecode : decode 0x00000003#32 = .error .unassignedOp := rfl
    exact ⟨_, blockStep_of_illegal (acceptCommand_seq ..) hdecode, rfl, rfl, rfl⟩

end Sys2Proof.Machine
end

section
/-! SUPPORT. The merge loop of BUILD (41_tree_builder R106 to R109): which two nodes a merge takes, the invariant that
every merge keeps, and how the loop ends. -/

namespace Sys2Proof.Machine

/-! ### The two nodes a merge takes (41_tree_builder R107, R108) -/

/-- Node j stands below index i, and none of the merges n..i-1 took it. -/
def Unmerged (n : Nat) (t : State) (i : Nat) (j : NodeIdx) : Prop :=
  j.toNat < i ∧ ∀ i', n ≤ i' → i' < i → ¬ childOf t i' j.toNat

/-- a and c are the two nodes of least key among the unmerged ones, a first: those that the merge i takes. -/
structure LeastPair (n : Nat) (t : State) (i : Nat) (a c : NodeIdx) : Prop where
  left        : Unmerged n t i a
  right       : Unmerged n t i c
  ne          : a ≠ c
  left_least  : ∀ j, Unmerged n t i j → j ≠ a → keyLess t.nodes a j = true
  right_least : ∀ j, Unmerged n t i j → j ≠ a → j ≠ c → keyLess t.nodes c j = true

/-- Node i is what the merge i of BUILD makes: INTERNAL, over the two least keys, of the sum of their weights. -/
structure MergedAt (n : Nat) (t : State) (i : Nat) : Prop where
  kind   : (nodeN t i).kind = .internal
  weight : (nodeN t i).weight.toNat = nodeWeight t.nodes (nodeN t i).left + nodeWeight t.nodes (nodeN t i).right
  pair   : LeastPair n t i (nodeN t i).left (nodeN t i).right

theorem MergedAt.internalAt {n : Nat} {t : State} {i : Nat} (h : MergedAt n t i) : internalAt t i :=
  ⟨h.kind, h.pair.left.1, h.pair.right.1, h.pair.ne, h.weight⟩

theorem childOf_iff {t : State} {i : Nat} {j : NodeIdx} (h : (nodeN t i).kind = .internal) :
    childOf t i j.toNat ↔ j = (nodeN t i).left ∨ j = (nodeN t i).right := by
  simp only [childOf, h, true_and, BitVec.toNat_inj, eq_comm]

/-! What is said of merge i looks at nothing above it, so later merges cannot undo it. -/

section
variable {n i : Nat} {t u : State} (hagree : ∀ j < i, nodeN u j = nodeN t j)
include hagree

theorem nodeWeight_congr {j : NodeIdx} (hj : j.toNat < i) : nodeWeight u.nodes j = nodeWeight t.nodes j := by
  simpa [nodeWeight] using congrArg (fun m => m.weight.toNat) (hagree j.toNat hj)

theorem keyLess_congr {j k : NodeIdx} (hj : j.toNat < i) (hk : k.toNat < i) :
    keyLess u.nodes j k = keyLess t.nodes j k := by
  simp only [keyLess, nodeWeight_congr hagree hj, nodeWeight_congr hagree hk]

theorem unmerged_congr {j : NodeIdx} : Unmerged n u i j ↔ Unmerged n t i j :=
  and_congr_right' <| forall_congr' fun i' => imp_congr_right fun _ => forall_congr' fun hi' => by
    simp only [childOf, hagree i' hi']

theorem LeastPair.congr {a c : NodeIdx} (h : LeastPair n t i a c) : LeastPair n u i a c where
  left := (unmerged_congr hagree).mpr h.left
  right := (unmerged_congr hagree).mpr h.right
  ne := h.ne
  left_least j hj hne := by
    rw [keyLess_congr hagree h.left.1 hj.1]
    exact h.left_least j ((unmerged_congr hagree).mp hj) hne
  right_least j hj hna hnc := by
    rw [keyLess_congr hagree h.right.1 hj.1]
    exact h.right_least j ((unmerged_congr hagree).mp hj) hna hnc

theorem MergedAt.congr (hi : nodeN u i = nodeN t i) (h : MergedAt n t i) : MergedAt n u i := by
  obtain ⟨hkind, hweight, hpair⟩ := h
  refine ⟨hi ▸ hkind, ?_, hi ▸ hpair.congr hagree⟩
  rw [hi, nodeWeight_congr hagree hpair.left.1, nodeWeight_congr hagree hpair.right.1, hweight]

end

/-- Merge i adds its node to the unmerged ones and takes its two children from them. -/
theorem unmerged_succ {n i : Nat} {t : State} (hn : n ≤ i) (hmerged : ∀ i', n ≤ i' → i' ≤ i → MergedAt n t i')
    {j : NodeIdx} :
    Unmerged n t (i + 1) j ↔
      j.toNat = i ∨ Unmerged n t i j ∧ j ≠ (nodeN t i).left ∧ j ≠ (nodeN t i).right := by
  have hchild := childOf_iff (j := j) (hmerged i hn le_rfl).kind
  constructor
  · rintro ⟨hlt, hfree⟩
    rcases Nat.lt_succ_iff_lt_or_eq.mp hlt with hlt | heq
    · have hne := hfree i hn (Nat.lt_succ_self i)
      rw [hchild, not_or] at hne
      exact .inr ⟨⟨hlt, fun i' hi hi' => hfree i' hi (Nat.lt_succ_of_lt hi')⟩, hne⟩
    · exact .inl heq
  · rintro (heq | ⟨⟨hlt, hfree⟩, hne⟩)
    · refine ⟨by omega, fun i' hi hi' hch => ?_⟩
      obtain ⟨-, hl, hr, -⟩ := (hmerged i' hi (by omega)).internalAt
      rcases hch.2 with e | e <;> omega
    · refine ⟨by omega, fun i' hi hi' => ?_⟩
      rcases Nat.lt_succ_iff_lt_or_eq.mp hi' with hi' | rfl
      · exact hfree i' hi hi'
      · rwa [hchild, not_or]

/-! ### A round of the merge loop -/

/-- What one round takes out of Q: its two least keys, q₂ being the rest. -/
structure Extracts (nodes : Table 9 Node) (q : List NodeIdx) (a c : NodeIdx) (q₂ : List NodeIdx) : Prop where
  perm        : q.Perm (a :: c :: q₂)
  left_least  : ∀ j ∈ q, j ≠ a → keyLess nodes a j = true
  right_least : ∀ j ∈ q, j ≠ a → j ≠ c → keyLess nodes c j = true

theorem Extracts.of_extractMin {nodes : Table 9 Node} {q q₁ q₂ : List NodeIdx} {a c : NodeIdx}
    (h₁ : extractMin nodes q = some (a, q₁)) (h₂ : extractMin nodes q₁ = some (c, q₂)) : Extracts nodes q a c q₂ := by
  obtain ⟨ha, hleast₁, rfl, -⟩ := extractMin_spec h₁
  obtain ⟨hc, hleast₂, rfl, -⟩ := extractMin_spec h₂
  exact
    { perm := (List.perm_cons_erase ha).trans ((List.perm_cons_erase hc).cons a)
      left_least := hleast₁
      right_least := fun j hj hna hnc => hleast₂ j ((List.mem_erase_of_ne hna).mpr hj) hnc }

section
variable {nodes : Table 9 Node} {q q₂ : List NodeIdx} {a c : NodeIdx} (hx : Extracts nodes q a c q₂)
include hx

theorem Extracts.mem_iff {j : NodeIdx} : j ∈ q ↔ j = a ∨ j = c ∨ j ∈ q₂ := by
  rw [hx.perm.mem_iff, List.mem_cons, List.mem_cons]

theorem Extracts.left_mem : a ∈ q := hx.mem_iff.mpr (.inl rfl)

theorem Extracts.right_mem : c ∈ q := hx.mem_iff.mpr (.inr (.inl rfl))

theorem Extracts.rest_mem {j : NodeIdx} (hj : j ∈ q₂) : j ∈ q := hx.mem_iff.mpr (.inr (.inr hj))

theorem Extracts.length_eq : q.length = q₂.length + 2 := hx.perm.length_eq

theorem Extracts.nodup (hq : q.Nodup) : a ≠ c ∧ a ∉ q₂ ∧ c ∉ q₂ ∧ q₂.Nodup := by
  simpa [and_assoc] using hx.perm.nodup_iff.mp hq

end

/-- The builder after a merge whose sum fits (41_tree_builder R108). -/
def Builder.merged (b : Builder) (a c : NodeIdx) (q : List NodeIdx) : Builder :=
  { nodes := Table.write b.nodes (BitVec.ofNat 9 b.next)
      (internalNode a c (BitVec.ofNat 32 (nodeWeight b.nodes a + nodeWeight b.nodes c)))
    q := BitVec.ofNat 9 b.next :: q
    next := b.next + 1 }

/-- How the merge loop ends, with a round for each member of Q: with fewer than two members, or at a merge whose sum
does not fit; in both cases every merge before kept P. -/
theorem mergeLoop_ending {P : Builder → Prop}
    (hstep : ∀ b a c q, P b → Extracts b.nodes b.q a c q →
      nodeWeight b.nodes a + nodeWeight b.nodes c ≤ 0xFFFFFFFF → P (b.merged a c q))
    {fuel : Nat} {b : Builder} (hfuel : b.q.length ≤ fuel) (h : P b) :
    (∃ b', mergeLoop fuel b = .done b' ∧ P b' ∧ b'.q.length < 2)
    ∨ ∃ b' a c q, mergeLoop fuel b = .raised .weightOverflow b'.next { b' with q := q } ∧ P b'
        ∧ Extracts b'.nodes b'.q a c q ∧ 0xFFFFFFFF < nodeWeight b'.nodes a + nodeWeight b'.nodes c := by
  induction fuel generalizing b with
  | zero => exact .inl ⟨b, rfl, h, by omega⟩
  | succ fuel ih =>
    obtain ⟨hq, hl⟩ | ⟨a, q₁, c, q₂, h₁, h₂, hl⟩ := mergeLoop_succ fuel b
    · exact .inl ⟨b, hl, h, hq⟩
    · have hx := Extracts.of_extractMin h₁ h₂
      rw [hl]
      obtain ⟨hover, hm⟩ | ⟨hfit, hm⟩ := mergeNodes_cases b a c q₂
      · exact .inr ⟨b, a, c, q₂, by rw [hm, Halt.bind_raised], h, hx, hover⟩
      · have hlen : (b.merged a c q₂).q.length ≤ fuel := by
          have hlen := hx.length_eq
          simp only [List.length_cons, Builder.merged]
          omega
        rw [hm, Halt.bind_done]
        exact ih hlen (hstep b a c q₂ h hx hfit)

/-! ### What every merge keeps (41_tree_builder R106 to R109) -/

/-- The invariant of the merge loop on the present bytes of s: Q holds the unmerged nodes, each internal node so far is
what its merge makes, the leaves and the entries from `next` on are as they were made, and the weights in Q sum to T. -/
structure MergeInv (s : State) (b : Builder) : Prop where
  nonempty  : 0 < b.q.length
  count     : b.q.length + b.next = 2 * (presentSet s).length
  le_next   : (presentSet s).length ≤ b.next
  nodup     : b.q.Nodup
  mem_q     : ∀ j, j ∈ b.q ↔ Unmerged (presentSet s).length (withBuilder s b) b.next j
  merged    : ∀ i, (presentSet s).length ≤ i → i < b.next → MergedAt (presentSet s).length (withBuilder s b) i
  leaf      : ∀ k x, (presentSet s)[k]? = some x → nodeN (withBuilder s b) k = leafNode x (Table.read s.ft x).count
  untouched : ∀ i : NodeIdx, b.next ≤ i.toNat → Table.read b.nodes i = Table.read s.nodes i
  total     : (b.q.map (nodeWeight b.nodes)).sum = presentTotal s

theorem toNat_ofNat_index {k : Nat} (h : k < 512) : (BitVec.ofNat 9 k).toNat = k := Nat.mod_eq_of_lt h

theorem mem_initial_q {s : State} {j : NodeIdx} :
    j ∈ (initialBuilder (presentSet s) s).q ↔ j.toNat < (presentSet s).length := by
  have hle := presentSet_length_le s
  simp only [initialBuilder, List.mem_map, List.mem_range]
  constructor
  · rintro ⟨k, hk, rfl⟩
    rwa [toNat_ofNat_index (by omega)]
  · exact fun hj => ⟨j.toNat, hj, by simp⟩

theorem initialBuilder_leaf {s : State} {k : Nat} {x : Byte} (h : (presentSet s)[k]? = some x) :
    Table.read (initialBuilder (presentSet s) s).nodes (BitVec.ofNat 9 k) = leafNode x (Table.read s.ft x).count := by
  have hle := presentSet_length_le s
  obtain ⟨hk, -⟩ := List.getElem?_eq_some_iff.mp h
  rw [initialBuilder, read_createLeaves _ _ _ _ (by omega)]
  simp [toNat_ofNat_index (show k < 512 by omega), h]

theorem MergeInv.initial {s : State} (h : 0 < (presentSet s).length) :
    MergeInv s (initialBuilder (presentSet s) s) := by
  have hle := presentSet_length_le s
  refine
    { nonempty := by simpa [initialBuilder] using h
      count := by simp [initialBuilder]; omega
      le_next := le_rfl
      nodup := ?_
      mem_q := fun j => mem_initial_q.trans ⟨fun hj => ⟨hj, fun i hi hi' => absurd hi' (Nat.not_lt.mpr hi)⟩, And.left⟩
      merged := fun i hi hi' => absurd hi' (Nat.not_lt.mpr hi)
      leaf := fun k x => initialBuilder_leaf
      untouched := fun i hi => ?_
      total := ?_ }
  · refine List.Nodup.map_on (fun i hi j hj hij => ?_) List.nodup_range
    rw [List.mem_range] at hi hj
    rw [← toNat_ofNat_index (show i < 512 by omega), hij, toNat_ofNat_index (by omega)]
  · rw [initialBuilder, read_createLeaves _ _ _ _ (by omega), if_pos (Nat.zero_le _)]
    rw [Nat.sub_zero, List.getElem?_eq_none hi]
  · refine congrArg List.sum (List.ext_getElem (by simp [initialBuilder]) fun k _ hk => ?_)
    rw [List.length_map] at hk
    have hleaf := initialBuilder_leaf (List.getElem?_eq_getElem hk)
    simp only [initialBuilder] at hleaf
    simp [initialBuilder, nodeWeight, hleaf, leafNode]

theorem MergeInv.next_lt {s : State} {b : Builder} (h : MergeInv s b) : b.next < 512 := by
  have hle := presentSet_length_le s
  have hcount := h.count
  have hpos := h.nonempty
  omega

theorem MergeInv.leastPair {s : State} {b : Builder} {a c : NodeIdx} {q : List NodeIdx} (h : MergeInv s b)
    (hx : Extracts b.nodes b.q a c q) : LeastPair (presentSet s).length (withBuilder s b) b.next a c where
  left := (h.mem_q a).mp hx.left_mem
  right := (h.mem_q c).mp hx.right_mem
  ne := (hx.nodup h.nodup).1
  left_least j hj := hx.left_least j ((h.mem_q j).mpr hj)
  right_least j hj := hx.right_least j ((h.mem_q j).mpr hj)

theorem nodeN_merged_next {s : State} {b : Builder} {a c : NodeIdx} {q : List NodeIdx} :
    nodeN (withBuilder s (b.merged a c q)) b.next =
      internalNode a c (BitVec.ofNat 32 (nodeWeight b.nodes a + nodeWeight b.nodes c)) := by
  simp [nodeN, Builder.merged]

theorem weight_merged_next {s : State} {b : Builder} {a c : NodeIdx} {q : List NodeIdx}
    (hfit : nodeWeight b.nodes a + nodeWeight b.nodes c ≤ 0xFFFFFFFF) :
    (nodeN (withBuilder s (b.merged a c q)) b.next).weight.toNat = nodeWeight b.nodes a + nodeWeight b.nodes c := by
  rw [nodeN_merged_next]
  exact Nat.mod_eq_of_lt (by omega)

theorem read_merged_of_ne {b : Builder} {a c i : NodeIdx} {q : List NodeIdx} (hb : b.next < 512)
    (hi : i.toNat ≠ b.next) : Table.read (b.merged a c q).nodes i = Table.read b.nodes i :=
  Table.read_write_other _ _ fun e => hi (by rw [← e, toNat_ofNat_index hb])

theorem nodeN_merged_of_lt {s : State} {b : Builder} {a c : NodeIdx} {q : List NodeIdx} (hb : b.next < 512) {k : Nat}
    (hk : k < b.next) : nodeN (withBuilder s (b.merged a c q)) k = nodeN (withBuilder s b) k :=
  read_merged_of_ne (q := q) hb (by rw [toNat_ofNat_index (by omega)]; omega)

section
variable {s : State} {b : Builder} {a c : NodeIdx} {q : List NodeIdx} (h : MergeInv s b)
  (hx : Extracts b.nodes b.q a c q) (hfit : nodeWeight b.nodes a + nodeWeight b.nodes c ≤ 0xFFFFFFFF)
include h

theorem MergeInv.nodeWeight_merged {j : NodeIdx} (hj : j.toNat < b.next) :
    nodeWeight (b.merged a c q).nodes j = nodeWeight b.nodes j :=
  nodeWeight_congr (t := withBuilder s b) (u := withBuilder s (b.merged a c q))
    (fun _ => nodeN_merged_of_lt h.next_lt) hj

include hx

theorem MergeInv.mem_rest_iff {j : NodeIdx} : j ∈ q ↔ j ∈ b.q ∧ j ≠ a ∧ j ≠ c := by
  obtain ⟨-, ha, hc, -⟩ := hx.nodup h.nodup
  rw [hx.mem_iff]
  constructor
  · exact fun hj => ⟨.inr (.inr hj), fun e => ha (e ▸ hj), fun e => hc (e ▸ hj)⟩
  · rintro ⟨hj, hna, hnc⟩
    exact (hj.resolve_left hna).resolve_left hnc

theorem MergeInv.rest_lt {j : NodeIdx} (hj : j ∈ q) : j.toNat < b.next :=
  ((h.mem_q j).mp (hx.rest_mem hj)).1

theorem MergeInv.total_eq : presentTotal s =
    nodeWeight b.nodes a + nodeWeight b.nodes c + (q.map (nodeWeight b.nodes)).sum := by
  rw [← h.total, (hx.perm.map _).sum_eq, List.map_cons, List.map_cons, List.sum_cons, List.sum_cons, Nat.add_assoc]

include hfit

/-- The new node is what merge `next` makes, and the earlier ones are untouched. -/
theorem MergeInv.mergedAt_merged {i : Nat} (hi : (presentSet s).length ≤ i) (hi' : i ≤ b.next) :
    MergedAt (presentSet s).length (withBuilder s (b.merged a c q)) i := by
  have hagree (k : Nat) (hk : k < b.next) : nodeN (withBuilder s (b.merged a c q)) k = nodeN (withBuilder s b) k :=
    nodeN_merged_of_lt h.next_lt hk
  rcases Nat.lt_or_eq_of_le hi' with hlt | rfl
  · exact (h.merged i hi hlt).congr (fun k hk => hagree k (hk.trans hlt)) (hagree i hlt)
  · have hpair := h.leastPair hx
    refine ⟨by rw [nodeN_merged_next]; rfl, ?_, by rw [nodeN_merged_next]; exact hpair.congr hagree⟩
    rw [weight_merged_next hfit, nodeN_merged_next]
    show _ = nodeWeight (b.merged a c q).nodes a + nodeWeight (b.merged a c q).nodes c
    rw [h.nodeWeight_merged hpair.left.1, h.nodeWeight_merged hpair.right.1]

theorem MergeInv.total_merged : ((b.merged a c q).q.map (nodeWeight (b.merged a c q).nodes)).sum = presentTotal s := by
  have hrest : q.map (nodeWeight (b.merged a c q).nodes) = q.map (nodeWeight b.nodes) :=
    List.map_congr_left fun j hj => h.nodeWeight_merged (h.rest_lt hx hj)
  have hnew : nodeWeight (b.merged a c q).nodes (BitVec.ofNat 9 b.next) = nodeWeight b.nodes a + nodeWeight b.nodes c :=
    weight_merged_next (s := s) (q := q) hfit
  rw [h.total_eq hx, ← hnew, ← hrest]
  rfl

/-- A merge whose sum fits keeps the invariant. -/
theorem MergeInv.merge : MergeInv s (b.merged a c q) := by
  have hb := h.next_lt
  refine
    { nonempty := Nat.succ_pos _
      count := ?_
      le_next := h.le_next.trans (Nat.le_succ _)
      nodup := ?_
      mem_q := fun j => ?_
      merged := fun i hi hi' => h.mergedAt_merged hx hfit hi (Nat.le_of_lt_succ hi')
      leaf := fun k x hk => ?_
      untouched := fun i hi => ?_
      total := h.total_merged hx hfit }
  · have hcount := h.count
    have hlen := hx.length_eq
    simp only [List.length_cons, Builder.merged]
    omega
  · obtain ⟨-, -, -, hrest⟩ := hx.nodup h.nodup
    exact List.nodup_cons.mpr ⟨fun hj => (h.rest_lt hx hj).ne (toNat_ofNat_index hb), hrest⟩
  · show j ∈ BitVec.ofNat 9 b.next :: q ↔ Unmerged _ _ (b.next + 1) j
    rw [unmerged_succ h.le_next fun _ => h.mergedAt_merged hx hfit, nodeN_merged_next,
      unmerged_congr fun _ => nodeN_merged_of_lt hb, ← h.mem_q, List.mem_cons, h.mem_rest_iff hx, ← BitVec.toNat_inj,
      toNat_ofNat_index hb]
    rfl
  · have hlt : k < b.next := (List.getElem?_eq_some_iff.mp hk).1.trans_le h.le_next
    rw [nodeN_merged_of_lt hb hlt, h.leaf k x hk]
  · have hlt : b.next < i.toNat := hi
    rw [read_merged_of_ne hb (by omega), h.untouched i (by omega)]

end

end Sys2Proof.Machine
end

section
/-! SUPPORT. How BUILD answers (41_tree_builder R103 to R110): its three cases, the tree that a merge loop run to its end
leaves, and the error that it reports otherwise. -/

namespace Sys2Proof.Machine

/-! ### The three cases of BUILD (41_tree_builder R103 to R106) -/

theorem exec_build_of_nil {s : State} (h : presentSet s = []) : exec .build s = .next (complete (invalidate s)) := by
  simp [exec, execBuild, buildBody, h]

theorem exec_build_of_singleton {s : State} {b : Byte} (h : presentSet s = [b]) :
    exec .build s = .next (complete (buildSingle b (invalidate s))) := by
  simp [exec, execBuild, buildBody, h]

theorem exec_build_of_two_le {s : State} (h : 2 ≤ (presentSet s).length) :
    exec .build s = .next (finish .build (buildMany (presentSet s) (invalidate s))) := by
  match hp : presentSet s with
  | [] | [_] => simp [hp] at h
  | _ :: _ :: _ => simp [exec, execBuild, buildBody, hp]

/-! ### How BUILD of two or more bytes ends (41_tree_builder R109, R110) -/

/-- The end state of BUILD when the merge loop ran to its end. -/
def builtState (s : State) (b : Builder) : State := complete (publishTree b.next (withBuilder (invalidate s) b))

/-- The end state of BUILD when the merge loop raised. -/
def failedState (s : State) (e : ErrKind) (info : Nat) (b : Builder) : State :=
  raiseError (some .build) e info (withBuilder (invalidate s) b)

theorem exec_build_of_done {s : State} {b : Builder} (h : 2 ≤ (presentSet s).length)
    (hl : mergeLoop (presentSet s).length (initialBuilder (presentSet s) (invalidate s)) = .done b) :
    exec .build s = .next (builtState s b) := by
  rw [exec_build_of_two_le h, buildMany, hl]
  rfl

theorem exec_build_of_raised {s : State} {b : Builder} {e : ErrKind} {info : Nat} (h : 2 ≤ (presentSet s).length)
    (hl : mergeLoop (presentSet s).length (initialBuilder (presentSet s) (invalidate s)) = .raised e info b) :
    exec .build s = .next (failedState s e info b) := by
  rw [exec_build_of_two_le h, buildMany, hl]
  rfl

/-- BUILD of two or more bytes ends with one node in Q, or at a merge whose sum does not fit; every merge before kept
the invariant. -/
theorem exec_build_ending {s : State} (h : 2 ≤ (presentSet s).length) :
    (∃ b, exec .build s = .next (builtState s b) ∧ MergeInv (invalidate s) b ∧ b.q.length = 1)
    ∨ ∃ b a c q, exec .build s = .next (failedState s .weightOverflow b.next { b with q := q })
        ∧ MergeInv (invalidate s) b ∧ Extracts b.nodes b.q a c q
        ∧ 0xFFFFFFFF < nodeWeight b.nodes a + nodeWeight b.nodes c := by
  have hstart : MergeInv (invalidate s) (initialBuilder (presentSet s) (invalidate s)) :=
    MergeInv.initial (by rw [presentSet_invalidate]; omega)
  rcases mergeLoop_ending (fun _ _ _ _ hb hx hfit => hb.merge hx hfit) (fuel := (presentSet s).length)
      (by simp [initialBuilder]) hstart with ⟨b, hl, hinv, hq⟩ | ⟨b, a, c, q, hl, hrest⟩
  · have hpos := hinv.nonempty
    exact .inl ⟨b, exec_build_of_done h hl, hinv, by omega⟩
  · exact .inr ⟨b, a, c, q, exec_build_of_raised h hl, hrest⟩

/-- A sum that does not fit is a part of T. -/
theorem MergeInv.lt_total_of_overflow {s : State} {b : Builder} {a c : NodeIdx} {q : List NodeIdx} (h : MergeInv s b)
    (hx : Extracts b.nodes b.q a c q) (hover : 0xFFFFFFFF < nodeWeight b.nodes a + nodeWeight b.nodes c) :
    0xFFFFFFFF < presentTotal s := by
  rw [h.total_eq hx]
  omega

/-- With one node left, T is its weight. -/
theorem MergeInv.total_le {s : State} {b : Builder} (h : MergeInv s b) (hq : b.q.length = 1) :
    presentTotal s ≤ 0xFFFFFFFF := by
  obtain ⟨r, hr⟩ := List.length_eq_one_iff.mp hq
  rw [← h.total, hr, List.map_singleton, List.sum_singleton]
  exact Nat.le_of_lt_succ (Table.read b.nodes r).weight.isLt

/-! ### The tree that is left (10_state R40, 41_tree_builder R109) -/

section
variable {s : State} {b : Builder} (h : MergeInv s b) (hq : b.q.length = 1)
include h hq

theorem MergeInv.next_eq : b.next = 2 * (presentSet s).length - 1 := by
  have hcount := h.count
  omega

/-- The last node made is the one left in Q, so every other was taken by a merge. -/
theorem MergeInv.exists_parent {j : Nat} (hj : j < 2 * (presentSet s).length - 2) :
    ∃ i, (presentSet s).length ≤ i ∧ i < b.next ∧ childOf (withBuilder s b) i j := by
  have hnext := h.next_eq hq
  have hb := h.next_lt
  obtain ⟨r, hr⟩ := List.length_eq_one_iff.mp hq
  have hlast : Unmerged (presentSet s).length (withBuilder s b) b.next (BitVec.ofNat 9 (b.next - 1)) := by
    rw [Unmerged, toNat_ofNat_index (by omega)]
    refine ⟨by omega, fun i hi hi' hch => ?_⟩
    obtain ⟨-, hl, hr, -⟩ := (h.merged i hi hi').internalAt
    rcases hch.2 with e | e <;> omega
  have hother : ¬ Unmerged (presentSet s).length (withBuilder s b) b.next (BitVec.ofNat 9 j) := by
    rw [← h.mem_q, hr, List.mem_singleton] at hlast ⊢
    rintro rfl
    have := congrArg BitVec.toNat hlast
    rw [toNat_ofNat_index (by omega), toNat_ofNat_index (by omega)] at this
    omega
  rw [Unmerged, toNat_ofNat_index (by omega)] at hother
  push Not at hother
  exact hother (by omega)

end

/-- A node is taken by one merge at most. -/
theorem MergeInv.parent_unique {s : State} {b : Builder} (h : MergeInv s b) {i i' j : Nat}
    (hi : (presentSet s).length ≤ i) (hi' : (presentSet s).length ≤ i') (hb : i < b.next) (hb' : i' < b.next)
    (hc : childOf (withBuilder s b) i j) (hc' : childOf (withBuilder s b) i' j) : i = i' := by
  wlog hlt : i < i' generalizing i i'
  · rcases Nat.lt_or_eq_of_le (Nat.le_of_not_lt hlt) with hgt | heq
    · exact (this hi' hi hb' hb hc' hc hgt).symm
    · exact heq.symm
  have hpair := (h.merged i' hi' hb').pair
  rcases hc'.2 with e | e
  · exact absurd (e ▸ hc) (hpair.left.2 i hi hlt)
  · exact absurd (e ▸ hc) (hpair.right.2 i hi hlt)

theorem MergeInv.manyTree {s : State} {b : Builder} (h : MergeInv (invalidate s) b) (hq : b.q.length = 1) :
    ManyTree (presentSet s).length (builtState s b) := by
  have hnext : b.next = 2 * (presentSet s).length - 1 := h.next_eq hq
  have hle : (presentSet s).length ≤ b.next := h.le_next
  have hle' := presentSet_length_le s
  have leaf {i : Nat} (hi : i < (presentSet s).length) : nodeN (builtState s b) i =
      leafNode (presentSet s)[i] (Table.read s.ft (presentSet s)[i]).count :=
    h.leaf i _ (List.getElem?_eq_getElem hi)
  refine ⟨?_, ?_, fun i hi => by rw [leaf hi]; rfl, fun i hi => ?_, fun k hk => ?_, fun j hj => ?_⟩
  · exact (Nat.mod_eq_of_lt (by omega)).trans hnext
  · exact (toNat_ofNat_index (by omega)).trans (by omega)
  · rw [leaf (i := i) (by omega), leaf (i := i + 1) (by omega)]
    exact List.pairwise_iff_getElem.mp (presentSet_sorted s) i (i + 1) _ _ (Nat.lt_succ_self i)
  · have hlt : (presentSet s).length + k < b.next := by omega
    exact (h.merged _ (Nat.le_add_right _ k) hlt).internalAt
  · obtain ⟨i, hi, hi', hch⟩ := h.exists_parent hq hj
    obtain ⟨k, rfl⟩ := Nat.exists_eq_add_of_le hi
    have hk : k < (presentSet s).length - 1 := by
      rw [presentSet_invalidate] at hi'
      omega
    refine ⟨k, hk, hch, fun k' hk' hch' => Nat.add_left_cancel (n := (presentSet s).length) ?_⟩
    have hlt : (presentSet s).length + k' < b.next := by omega
    exact h.parent_unique (Nat.le_add_right _ k') hi hlt hi' hch' hch

/-- Settles O16: the merge loop keeps MergeInv, a sum that does not fit is a part of T, and one node left in Q is the
root of the tree. -/
theorem buildMakesTheTree : Obligations.BuildMakesTheTree := by
  intro s hn htotal
  obtain ⟨b, hexec, hinv, hq⟩ | ⟨b, a, c, q, -, hinv, hx, hover⟩ := exec_build_ending hn
  · have htree := hinv.manyTree hq
    have hnext : b.next = 2 * (presentSet s).length - 1 := hinv.next_eq hq
    have hle := presentSet_length_le s
    refine ⟨_, hexec, rfl, rfl, htree.1, htree.2.1, hinv.leaf, .inr ⟨hn, hle, htree⟩, hinv.untouched 511 ?_⟩
    show b.next ≤ 511
    omega
  · exact absurd htotal (Nat.not_le.mpr (hinv.lt_total_of_overflow hx hover))

/-! ### The error (41_tree_builder R110) -/

theorem presentTotal_le_of_length_lt_two {s : State} (h : (presentSet s).length < 2) : presentTotal s ≤ 0xFFFFFFFF := by
  unfold presentTotal
  match presentSet s, h with
  | [], _ => exact Nat.zero_le _
  | [x], _ => exact Nat.le_of_lt_succ (Table.read s.ft x).count.isLt

/-- Below two bytes BUILD reports no error. -/
theorem exec_build_of_length_lt_two {s : State} (h : (presentSet s).length < 2) :
    ∃ t, exec .build s = .next t ∧ t.status.err = false := by
  match hp : presentSet s, h with
  | [], _ => exact ⟨_, exec_build_of_nil hp, rfl⟩
  | [x], _ => exact ⟨_, exec_build_of_singleton hp, rfl⟩

/-- Settles O18: BUILD raises at the first merge whose sum does not fit, where MergeInv still holds; otherwise T is the
weight of the root. -/
theorem buildOverflowsExactlyAboveTheTotal : Obligations.BuildOverflowsExactlyAboveTheTotal := by
  intro s
  rcases Nat.lt_or_ge (presentSet s).length 2 with hlt | hn
  · obtain ⟨t, hexec, herr⟩ := exec_build_of_length_lt_two hlt
    have htotal := presentTotal_le_of_length_lt_two hlt
    exact ⟨t, hexec, by simp [herr, htotal], by simp [herr]⟩
  obtain ⟨b, hexec, hinv, hq⟩ | ⟨b, a, c, q, hexec, hinv, hx, hover⟩ := exec_build_ending hn
  · have htotal : presentTotal s ≤ 0xFFFFFFFF := hinv.total_le hq
    have herr : (builtState s b).status.err = false := rfl
    exact ⟨_, hexec, by simp [herr, htotal], by simp [herr]⟩
  · have htotal : 0xFFFFFFFF < presentTotal s := hinv.lt_total_of_overflow hx hover
    refine ⟨_, hexec, iff_of_true rfl htotal, fun _ => ?_⟩
    have hlt := hinv.next_lt
    have hinfo : (failedState s .weightOverflow b.next { b with q := q }).errInfo.toNat = b.next :=
      Nat.mod_eq_of_lt (show b.next < 2 ^ 32 by omega)
    have hcount : b.q.length + b.next = 2 * (presentSet s).length := hinv.count
    have hlen := hx.length_eq
    obtain ⟨hleft, hright, hne, hleast, hnext⟩ := hinv.leastPair hx
    rw [hinfo]
    refine ⟨rfl, rfl, rfl, rfl, rfl, fun x => Table.read_fill _ x, hinv.le_next, by omega,
      fun i hi hi' => (hinv.merged i hi hi').internalAt, ⟨a, c, hleft, hright, hne, hleast, hnext, hover⟩, ?_⟩
    exact hinv.untouched _ (toNat_ofNat_index hlt).ge

/-! ### Below two bytes (41_tree_builder R104, R105) -/

theorem exec_codegen_of_no_tree {s : State} (h : s.status.treeValid = false) :
    exec .codegen s = .next (raiseError (some .codegen) .noTree 0 s) := by
  simp [exec, execCodegen, h]

theorem exec_unpack_of_no_tree {s : State} (h : s.status.treeValid = false) :
    exec .unpack s = .next (raiseError (some .unpack) .noTree 0 s) := by
  simp [exec, execUnpack, unpackBody, h]

/-- Settles O14: BUILD is then its invalidation alone, which leaves TREE_VALID 0. -/
theorem buildOfEmptyTableGivesNoTree : Obligations.BuildOfEmptyTableGivesNoTree := fun s hft =>
  ⟨complete (invalidate s), exec_build_of_nil (presentSet_eq_nil_iff.mpr hft), rfl, rfl, rfl, rfl, rfl,
    ⟨_, exec_codegen_of_no_tree rfl, rfl, rfl⟩, ⟨_, exec_unpack_of_no_tree rfl, rfl, rfl⟩⟩

theorem presentSet_nodup (s : State) : (presentSet s).Nodup :=
  (presentSet_sorted s).imp fun hlt => ne_of_apply_ne BitVec.toNat (Nat.ne_of_lt hlt)

theorem presentSet_eq_singleton {s : State} {b : Byte} (h : ∀ b', (Table.read s.ft b').present = true ↔ b' = b) :
    presentSet s = [b] :=
  List.perm_singleton.mp <| (List.perm_ext_iff_of_nodup (presentSet_nodup s) (List.nodup_singleton b)).mpr fun b' => by
    rw [mem_presentSet, h, List.mem_singleton]

/-- The three nodes of one present byte, and what lies above them (41_tree_builder R105). -/
theorem read_buildSingle (b : Byte) (s : State) (i : NodeIdx) : Table.read (buildSingle b s).nodes i =
    if 2 = i then internalNode 0 1 (Table.read s.ft b).count
    else if 1 = i then sentinelNode
    else if 0 = i then leafNode b (Table.read s.ft b).count
    else Table.read s.nodes i := by
  simp only [buildSingle, Table.read_write]

/-- Settles O15: the arena is that of read_buildSingle. -/
theorem buildOfOneByteAddsTheSentinel : Obligations.BuildOfOneByteAddsTheSentinel := fun s b hft =>
  ⟨_, exec_build_of_singleton (presentSet_eq_singleton hft), read_buildSingle b (invalidate s) 0,
    read_buildSingle b (invalidate s) 1, read_buildSingle b (invalidate s) 2, rfl, rfl, rfl, rfl⟩

end Sys2Proof.Machine
end

section
/-! SUPPORT. Determinism of BUILD (41_tree_builder R112): two builders that differ only in arena entries not written yet
go through the same merges. -/

namespace Sys2Proof.Machine

/-! ### Like builders -/

/-- The two builders differ in no more than arena entries that nothing has written yet. -/
structure Builder.Alike (b₁ b₂ : Builder) : Prop where
  next  : b₁.next = b₂.next
  q     : b₁.q = b₂.q
  q_lt  : ∀ j ∈ b₁.q, j.toNat < b₁.next
  nodes : ∀ i : NodeIdx, i.toNat < b₁.next → Table.read b₁.nodes i = Table.read b₂.nodes i

/-- Both loops ran to their ends with like builders, or both raised the same error. -/
inductive EndAlike : Halt Builder → Halt Builder → Prop where
  | done {b₁ b₂ : Builder} (h : b₁.Alike b₂) : EndAlike (.done b₁) (.done b₂)
  | raised (e : ErrKind) (info : Nat) (b₁ b₂ : Builder) : EndAlike (.raised e info b₁) (.raised e info b₂)

theorem EndAlike.bind {h₁ h₂ : Halt Builder} (h : EndAlike h₁ h₂) {f : Builder → Halt Builder}
    (hf : ∀ b₁ b₂ : Builder, b₁.Alike b₂ → EndAlike (f b₁) (f b₂)) : EndAlike (h₁.bind f) (h₂.bind f) := by
  cases h with
  | done h => exact hf _ _ h
  | raised e info b₁ b₂ => exact .raised e info b₁ b₂

theorem keyMin_congr {nodes₁ nodes₂ : Table 9 Node} {q : List NodeIdx}
    (h : ∀ j ∈ q, nodeWeight nodes₁ j = nodeWeight nodes₂ j) : keyMin nodes₁ q = keyMin nodes₂ q := by
  induction q with
  | nil => rfl
  | cons i q ih =>
    simp only [keyMin, ih fun j hj => h j (List.mem_cons_of_mem i hj)]
    cases hk : keyMin nodes₂ q with
    | none => rfl
    | some j =>
      have hj : nodeWeight nodes₁ j = nodeWeight nodes₂ j := h j (List.mem_cons_of_mem i (keyMin_spec hk).1)
      have hless : keyLess nodes₁ i j = keyLess nodes₂ i j := by simp only [keyLess, hj, h i List.mem_cons_self]
      simp only [hless]

section
variable {b₁ b₂ : Builder} (h : b₁.Alike b₂)
include h

theorem Builder.Alike.nodeWeight_eq {j : NodeIdx} (hj : j ∈ b₁.q) : nodeWeight b₁.nodes j = nodeWeight b₂.nodes j :=
  congrArg (fun m => m.weight.toNat) (h.nodes j (h.q_lt j hj))

theorem Builder.Alike.extractMin_eq {q : List NodeIdx} (hq : ∀ j ∈ q, j ∈ b₁.q) :
    extractMin b₂.nodes q = extractMin b₁.nodes q := by
  rw [extractMin, extractMin, keyMin_congr fun j hj => h.nodeWeight_eq (hq j hj)]

theorem Builder.Alike.mergeNodes_alike {a c : NodeIdx} {q : List NodeIdx} (hx : Extracts b₁.nodes b₁.q a c q) :
    EndAlike (mergeNodes b₁ a c q) (mergeNodes b₂ a c q) := by
  simp only [mergeNodes, ← h.next, ← h.nodeWeight_eq hx.left_mem, ← h.nodeWeight_eq hx.right_mem]
  split
  · exact .raised _ _ _ _
  · refine .done ⟨rfl, rfl, fun j hj => ?_, fun i hi => ?_⟩
    · rcases List.mem_cons.mp hj with rfl | hj
      · exact Nat.lt_succ_of_le (Nat.mod_le _ _)
      · exact Nat.lt_succ_of_lt (h.q_lt j (hx.rest_mem hj))
    · simp only [Table.read_write]
      split
      · rfl
      · rename_i hne
        refine h.nodes i (Nat.lt_of_le_of_ne (Nat.le_of_lt_succ hi) fun heq => hne ?_)
        simp [← heq]

end

theorem mergeLoop_alike {b₁ b₂ : Builder} (h : b₁.Alike b₂) (fuel : Nat) :
    EndAlike (mergeLoop fuel b₁) (mergeLoop fuel b₂) := by
  induction fuel generalizing b₁ b₂ with
  | zero => exact .done h
  | succ fuel ih =>
    have hmin₁ : extractMin b₂.nodes b₂.q = extractMin b₁.nodes b₁.q := by rw [← h.q, h.extractMin_eq fun _ hj => hj]
    obtain ⟨hlen, hl⟩ | ⟨a, q₁, c, q₂, h₁, h₂, hl⟩ := mergeLoop_succ fuel b₁
    · obtain ⟨-, hl'⟩ | ⟨a, q₁, c, q₂, h₁, h₂, -⟩ := mergeLoop_succ fuel b₂
      · rw [hl, hl']
        exact .done h
      · have hlen₂ := (Extracts.of_extractMin h₁ h₂).length_eq
        rw [← h.q] at hlen₂
        omega
    · have hsub : ∀ j ∈ q₁, j ∈ b₁.q := fun j hj => by
        obtain ⟨-, -, rfl, -⟩ := extractMin_spec h₁
        exact List.mem_of_mem_erase hj
      have hl' : mergeLoop (fuel + 1) b₂ = (mergeNodes b₂ a c q₂).bind (mergeLoop fuel) := by
        simp [mergeLoop, hmin₁, h₁, h.extractMin_eq hsub, h₂]
      rw [hl, hl']
      exact (h.mergeNodes_alike (Extracts.of_extractMin h₁ h₂)).bind fun _ _ => ih

/-! ### Tables of one mapping -/

/-- Two frequency tables of one mapping: the same bytes are present, with the same counts. -/
structure SameMapping (s₁ s₂ : State) : Prop where
  present : ∀ b, (Table.read s₁.ft b).present = (Table.read s₂.ft b).present
  count   : ∀ b, (Table.read s₁.ft b).present = true → (Table.read s₁.ft b).count = (Table.read s₂.ft b).count

theorem SameMapping.presentSet_eq {s₁ s₂ : State} (h : SameMapping s₁ s₂) : presentSet s₂ = presentSet s₁ :=
  List.filter_congr fun b _ => (h.present b).symm

theorem SameMapping.initialBuilder_alike {s₁ s₂ : State} (h : SameMapping s₁ s₂) :
    (initialBuilder (presentSet s₁) (invalidate s₁)).Alike (initialBuilder (presentSet s₂) (invalidate s₂)) where
  next := by rw [h.presentSet_eq]; rfl
  q := by rw [h.presentSet_eq]; rfl
  q_lt j := (mem_initial_q (s := invalidate s₁)).mp
  nodes i hi := by
    have hmem : (presentSet s₁)[i.toNat]? = some (presentSet s₁)[i.toNat] := List.getElem?_eq_getElem hi
    have hleaf₁ := initialBuilder_leaf (s := invalidate s₁) hmem
    have hleaf₂ := initialBuilder_leaf (s := invalidate s₂) ((congrArg (·[i.toNat]?) h.presentSet_eq).trans hmem)
    have hcount := h.count _ (mem_presentSet.mp (List.mem_of_getElem? hmem))
    simp only [presentSet_invalidate, BitVec.ofNat_toNat, BitVec.setWidth_eq, invalidate_ft] at hleaf₁ hleaf₂
    rw [hleaf₁, hleaf₂, hcount]

/-- Settles O21: the merge loop is run on like builders, so it ends alike. -/
theorem buildDependsOnTheMappingAlone : Obligations.BuildDependsOnTheMappingAlone := by
  intro s₁ s₂ t₁ t₂ hpresent hcount h₁ h₂
  have hmap : SameMapping s₁ s₂ := ⟨hpresent, hcount⟩
  have hS := hmap.presentSet_eq
  match hp : presentSet s₁ with
  | [] =>
    cases (exec_build_of_nil hp).symm.trans h₁
    cases (exec_build_of_nil (hS.trans hp)).symm.trans h₂
    exact ⟨rfl, rfl, rfl, rfl, rfl, fun i hi => absurd hi (Nat.not_lt_zero _)⟩
  | [b] =>
    cases (exec_build_of_singleton hp).symm.trans h₁
    cases (exec_build_of_singleton (hS.trans hp)).symm.trans h₂
    refine ⟨rfl, rfl, rfl, rfl, rfl, fun i hi => ?_⟩
    have hb := hcount b (mem_presentSet.mp (by simp [hp]))
    have hi : i = 0 ∨ i = 1 ∨ i = 2 := by
      have hlt : i.toNat < 3 := hi
      bv_omega
    simp only [complete_nodes, read_buildSingle, invalidate_ft, hb]
    rcases hi with rfl | rfl | rfl <;> rfl
  | b :: b' :: bs =>
    have hn₁ : 2 ≤ (presentSet s₁).length := by simp [hp]
    have hn₂ : 2 ≤ (presentSet s₂).length := hS ▸ hn₁
    have halike := mergeLoop_alike hmap.initialBuilder_alike (presentSet s₁).length
    generalize hl₁ : mergeLoop (presentSet s₁).length (initialBuilder (presentSet s₁) (invalidate s₁)) = e₁ at halike
    generalize hl₂ : mergeLoop (presentSet s₁).length (initialBuilder (presentSet s₂) (invalidate s₂)) = e₂ at halike
    rw [← hS] at hl₂
    cases halike with
    | done hb =>
      cases (exec_build_of_done hn₁ hl₁).symm.trans h₁
      cases (exec_build_of_done hn₂ hl₂).symm.trans h₂
      exact ⟨congrArg (fun n => BitVec.ofNat 9 (n - 1)) hb.next, congrArg (BitVec.ofNat 10) hb.next, rfl, rfl, rfl,
        fun i hi => hb.nodes i (hi.trans_le (Nat.mod_le _ _))⟩
    | raised e info b₁ b₂ =>
      cases (exec_build_of_raised hn₁ hl₁).symm.trans h₁
      cases (exec_build_of_raised hn₂ hl₂).symm.trans h₂
      exact ⟨rfl, rfl, rfl, rfl, rfl, fun i hi => absurd hi (Nat.not_lt_zero _)⟩

end Sys2Proof.Machine
end

section
/-! SUPPORT. CODEGEN (42_code_mapper R121 to R125): when its traversal ends, how deep the tree of 10_state R40 can be,
and what the derived table holds. -/

namespace Sys2Proof.Machine

/-! ### When the traversal ends (42_code_mapper R121) -/

/-- Below an INTERNAL node a walk is a step to a child and a walk from there. -/
theorem exists_walksTo_succ_iff {nodes : Table 9 Node} {i : NodeIdx} (h : (Table.read nodes i).kind = .internal)
    {levels : Nat} : (∃ q k, q.length = levels + 1 ∧ walksTo nodes i q k) ↔
      ∃ bit q k, q.length = levels ∧ walksTo nodes (childOn nodes i bit) q k := by
  constructor
  · rintro ⟨_ | ⟨bit, q⟩, k, hlen, hw⟩
    · cases hlen
    · exact ⟨bit, q, k, Nat.succ.inj hlen, hw.2⟩
  · rintro ⟨bit, q, k, hlen, hw⟩
    exact ⟨bit :: q, k, congrArg (· + 1) hlen, h, hw⟩

/-- A leaf and the sentinel end every walk. -/
theorem not_exists_walksTo_succ {nodes : Table 9 Node} {i : NodeIdx} (h : (Table.read nodes i).kind ≠ .internal)
    {levels : Nat} : ¬ ∃ q k, q.length = levels + 1 ∧ walksTo nodes i q k := by
  rintro ⟨_ | ⟨bit, q⟩, k, hlen, hw⟩
  · cases hlen
  · exact h hw.1

/-- The traversal gives up exactly when some walk uses up all its levels. -/
theorem visit_eq_none_iff {nodes : Table 9 Node} {levels : Nat} {i : NodeIdx} {p : List Bool}
    {codes : Table 8 CodeEntry} :
    visit nodes levels i p codes = none ↔ ∃ q k, q.length = levels ∧ walksTo nodes i q k := by
  induction levels generalizing i p codes with
  | zero => exact iff_of_true rfl ⟨[], i, rfl, rfl⟩
  | succ levels ih =>
    cases hk : (Table.read nodes i).kind with
    | sentinel => exact iff_of_false (by simp [visit_sentinel hk]) (not_exists_walksTo_succ (by simp [hk]))
    | leaf => exact iff_of_false (by simp [visit_leaf hk]) (not_exists_walksTo_succ (by simp [hk]))
    | internal =>
      rw [exists_walksTo_succ_iff hk, Bool.exists_bool, visit_internal hk]
      cases hl : visit nodes levels (Table.read nodes i).left (p ++ [false]) codes with
      | none => exact iff_of_true rfl (.inl (ih.mp hl))
      | some mid =>
        have noLeft : ¬ ∃ q k, q.length = levels ∧ walksTo nodes (childOn nodes i false) q k :=
          fun hw => nomatch (ih.mpr hw).symm.trans hl
        exact ih.trans (or_iff_right noLeft).symm

theorem deriveCodes_eq_none_iff {nodes : Table 9 Node} {root : NodeIdx}
    (hroot : (Table.read nodes root).kind = .internal) :
    deriveCodes nodes root = none ↔ ∃ p k, p.length = 256 ∧ walksTo nodes root p k := by
  simpa only [deriveCodes, hroot] using visit_eq_none_iff

/-! ### The depth of the tree (42_code_mapper R122) -/

/-- The INTERNAL nodes of the tree stand behind its n leaves. -/
theorem TreeOf.le_of_kind {n : Nat} {s : State} (h : TreeOf n s) {i : Nat} (hk : (nodeN s i).kind = .internal) :
    n ≤ i := by
  by_contra hlt
  have hleaf : (nodeN s i).kind = .leaf := by
    rcases h with ⟨rfl, -, -, hleaf, -⟩ | ⟨-, -, -, -, hleaf, -⟩
    · rwa [Nat.lt_one_iff.mp (Nat.not_le.mp hlt)]
    · exact hleaf i (Nat.not_le.mp hlt)
  simp [hleaf] at hk

/-- A walk goes through INTERNAL nodes at falling indices, none of them below n. -/
theorem TreeOf.length_le_of_walksTo {n : Nat} {s : State} (h : TreeOf n s) {i k : NodeIdx} {p : List Bool}
    (hi : i.toNat < s.nodeCount.toNat) (hw : walksTo s.nodes i p k) : p.length ≤ i.toNat + 1 - n := by
  induction p generalizing i with
  | nil => exact Nat.zero_le _
  | cons bit p ih =>
    obtain ⟨hk, hw⟩ := hw
    rw [← nodeN_toNat] at hk
    have hn : n ≤ i.toNat := h.le_of_kind hk
    have hchild : (childOn s.nodes i bit).toNat < i.toNat := by
      obtain ⟨-, hl, hr, -⟩ := h.internalAt_of_kind hi hk
      rw [nodeN_toNat] at hl hr
      cases bit with
      | false => exact hl
      | true => exact hr
    have hlen := ih (hchild.trans hi) hw
    rw [List.length_cons]
    omega

/-- No path of the tree is longer than 255 edges. -/
theorem TreeOf.length_le {n : Nat} {s : State} (h : TreeOf n s) {k : NodeIdx} {p : List Bool}
    (hw : walksTo s.nodes s.root p k) : p.length ≤ 255 := by
  have hroot := h.root_succ
  have hlen := h.length_le_of_walksTo (by omega) hw
  rcases h with ⟨rfl, hcount, -⟩ | ⟨hn, hn', hcount, -⟩ <;> omega

theorem TreeOf.exists_deriveCodes {n : Nat} {s : State} (h : TreeOf n s) :
    ∃ codes, deriveCodes s.nodes s.root = some codes := by
  rw [← Option.ne_none_iff_exists', Ne, deriveCodes_eq_none_iff h.root_internal]
  rintro ⟨p, k, hlen, hw⟩
  have := h.length_le hw
  omega

/-! ### CODEGEN with a tree (42_code_mapper R121) -/

theorem exec_codegen_of_derived {s : State} {codes : Table 8 CodeEntry} (ht : s.status.treeValid = true)
    (hd : deriveCodes s.nodes s.root = some codes) : exec .codegen s = .next (complete (publishCodes codes s)) := by
  simp [exec, execCodegen, ht, hd]

theorem State.Inv.exec_codegen {s : State} (h : s.Inv) (ht : s.status.treeValid = true) :
    ∃ n codes, TreeOf n s ∧ deriveCodes s.nodes s.root = some codes
      ∧ exec .codegen s = .next (complete (publishCodes codes s)) := by
  obtain ⟨n, -, hn⟩ := h.tree.1 ht
  obtain ⟨codes, hd⟩ := hn.exists_deriveCodes
  exact ⟨n, codes, hn, hd, exec_codegen_of_derived ht hd⟩

theorem codeEntryOf_len {p : List Bool} (h : p.length ≤ 255) : (codeEntryOf p).len.toNat = p.length := by
  rw [← codeBits_length, codeBits_codeEntryOf h]

theorem codeEntryOf_bits_lt (p : List Bool) : (codeEntryOf p).bits.toNat < 2 ^ p.length :=
  (Nat.mod_le _ _).trans_lt (valOf_lt p)

/-- The length of a valid code is that of its codeword, which an INTERNAL root makes at least 1
(42_code_mapper R122). -/
theorem deriveCodes_bounds {nodes : Table 9 Node} {root : NodeIdx} {codes : Table 8 CodeEntry}
    (hroot : (Table.read nodes root).kind = .internal) (h : deriveCodes nodes root = some codes) {b : Byte}
    (hb : (Table.read codes b).valid = true) :
    1 ≤ (Table.read codes b).len.toNat ∧ (Table.read codes b).len.toNat ≤ 255
      ∧ (Table.read codes b).bits.toNat < 2 ^ (Table.read codes b).len.toNat := by
  rcases deriveCodes_read hroot h b with ⟨-, hr⟩ | ⟨p, hlen, hp, hr⟩
  · simp [hr, CodeEntry.clear] at hb
  · rw [hr, codeEntryOf_len hlen]
    exact ⟨List.length_pos_of_ne_nil hp.1, hlen, codeEntryOf_bits_lt p⟩

theorem deriveCodes_eq_clear {nodes : Table 9 Node} {root : NodeIdx} {codes : Table 8 CodeEntry}
    (hroot : (Table.read nodes root).kind = .internal) (h : deriveCodes nodes root = some codes) {b : Byte}
    (hb : (Table.read codes b).valid = false) : Table.read codes b = CodeEntry.clear := by
  rcases deriveCodes_read hroot h b with ⟨-, hr⟩ | ⟨p, -, -, hr⟩
  · exact hr
  · simp [hr, codeEntryOf] at hb

/-- Settles O23: the tree is at most 255 edges deep, so its table is derived, and each entry is clear or the code of a
codeword. -/
theorem codegenWritesTheTreePaths : Obligations.CodegenWritesTheTreePaths := by
  intro s hinv ht
  obtain ⟨n, codes, hn, hd, hexec⟩ := hinv.exec_codegen ht
  have hroot := hn.root_internal
  exact ⟨_, hexec, rfl, rfl, deriveCodes_valid_iff hroot hd,
    fun b hb => ⟨deriveCodes_isCodeword hroot hd hb, deriveCodes_bounds hroot hd hb⟩,
    fun b hb => deriveCodes_eq_clear hroot hd hb⟩

/-! ### The sentinel (42_code_mapper R123) -/

/-- Only the tree of one byte has a sentinel: node 1 of the others is a leaf. -/
theorem TreeOf.singleTree_of_sentinel {n : Nat} {s : State} (h : TreeOf n s) (hs : (nodeN s 1).kind = .sentinel) :
    SingleTree s := by
  rcases h with ⟨-, hsingle⟩ | ⟨hn, -, -, -, hleaf, -⟩
  · exact hsingle
  · simp [hleaf 1 hn] at hs

/-- The path `0` leads to the leaf, the path `1` to the sentinel, and no other path leads on. -/
theorem SingleTree.isCodeword_iff {s : State} (h : SingleTree s) {p : List Bool} {b : Byte} :
    isCodeword s.nodes s.root p b ↔ p = [false] ∧ (nodeN s 0).sym = b := by
  obtain ⟨-, hroot, hleaf, hsentinel, ⟨hk, -⟩, hl, hr⟩ := h
  rw [← hroot, nodeN_toNat] at hk hl hr
  rw [isCodeword_iff_leadsToLeaf]
  match p with
  | [] => simp
  | false :: p =>
    have hstep : leadsToLeaf s.nodes (childOn s.nodes s.root false) p b ↔ p = [] ∧ (nodeN s 0).sym = b := by
      rw [show childOn s.nodes s.root false = 0#9 from hl]
      exact leadsToLeaf_of_leaf hleaf
    simp [leadsToLeaf_cons, hk, hstep]
  | true :: p =>
    have hstep : ¬ leadsToLeaf s.nodes (childOn s.nodes s.root true) p b := by
      rw [show childOn s.nodes s.root true = 1#9 from hr]
      exact not_leadsToLeaf_of_sentinel hsentinel
    simp [leadsToLeaf_cons, hstep]

/-- Settles O24: by SingleTree.isCodeword_iff the leaf's byte has the codeword `0` and no other byte has one. -/
theorem codegenGivesTheSentinelNoCode : Obligations.CodegenGivesTheSentinelNoCode := by
  intro s hinv ht hs
  obtain ⟨n, codes, hn, hd, hexec⟩ := hinv.exec_codegen ht
  have hcode {p : List Bool} {b : Byte} := (hn.singleTree_of_sentinel hs).isCodeword_iff (p := p) (b := b)
  refine ⟨_, hexec, rfl, fun b => ?_⟩
  rcases deriveCodes_read hn.root_internal hd b with ⟨noCode, hr⟩ | ⟨p, -, hp, hr⟩
  · rw [if_neg fun hb => noCode [false] (hcode.mpr ⟨rfl, hb.symm⟩)]
    exact hr
  · obtain ⟨rfl, hsym⟩ := hcode.mp hp
    rw [if_pos hsym.symm]
    exact hr

/-! ### A root that is a leaf (42_code_mapper R124) -/

theorem deriveCodes_of_leaf {nodes : Table 9 Node} {root : NodeIdx} (h : (Table.read nodes root).kind = .leaf) :
    deriveCodes nodes root =
      some (Table.write (Table.fill 8 CodeEntry.clear) (Table.read nodes root).sym (codeEntryOf [false])) := by
  simp only [deriveCodes, h]

/-- Settles O25: the table of a root that is a leaf is clear but for one entry, and the root of R40 is INTERNAL. -/
theorem codegenOfALeafRoot : Obligations.CodegenOfALeafRoot := by
  refine ⟨fun s ht hleaf => ⟨_, exec_codegen_of_derived ht (deriveCodes_of_leaf hleaf), rfl, rfl, fun b => ?_⟩,
    fun s hinv ht => ?_⟩
  · rw [complete_codes, publishCodes_codes, Table.read_write, Table.read_fill]
    exact if_congr eq_comm rfl rfl
  · obtain ⟨n, -, hn⟩ := hinv.tree.1 ht
    exact hn.root_internal

/-! ### CODEGEN without a tree (42_code_mapper R125) -/

/-- Settles O22: CODEGEN is then raiseError alone, and valid codes would need a tree. -/
theorem codegenWithoutTreeReportsNoTree : Obligations.CodegenWithoutTreeReportsNoTree := by
  intro s ht
  refine ⟨exec_codegen_of_no_tree ht, fun hinv => ?_⟩
  have hcodes : s.status.codesValid = false :=
    Bool.eq_false_of_not_eq_true fun hv => by simp [(hinv.codes.1 hv).1] at ht
  exact ⟨hcodes, hinv.codes.2 hcodes⟩

end Sys2Proof.Machine
end

section
/-! SUPPORT. PACK followed through its loops (43_packer R131 to R136): which bit-string OUT holds, how one input byte and
a run of coded input bytes end, and from these how PACK answers. -/

namespace Sys2Proof.Machine

/-! ### Bit-strings as bytes (00_scope R8, 20_memory R53) -/

theorem getElem?_bitsOf {v n r : Nat} (h : r < n) : (bitsOf v n)[r]? = some (v.testBit (n - 1 - r)) := by
  induction n generalizing r with
  | zero => omega
  | succ n ih =>
    cases r with
    | zero => rfl
    | succ r =>
      rw [bitsOf, List.getElem?_cons_succ, ih (by omega)]
      congr 2
      omega

/-- Bit 7 - r of the byte spelled by eight symbols is symbol r. -/
theorem getLsbD_ofNat_valOf {x : List Bool} (hx : x.length = 8) {r : Nat} (hr : r < 8) :
    some ((BitVec.ofNat 8 (valOf x)).getLsbD (7 - r)) = x[r]? := by
  have hbit := getElem?_bitsOf (v := valOf x) hr
  rw [← hx, bitsOf_valOf, hx] at hbit
  rw [hbit, BitVec.getLsbD_ofNat, decide_eq_true (by omega), Bool.true_and]

/-- Read with zeros beyond its end, a bit-string does not show its padding (43_packer R133). -/
theorem getD_append_replicate_false (w : List Bool) (p j : Nat) :
    (w ++ List.replicate p false).getD j false = w.getD j false := by
  by_cases hj : j < w.length
  · rw [List.getD_append _ _ _ _ hj]
  · rw [List.getD_append_right _ _ _ _ (by omega), List.getD_eq_getElem?_getD, List.getElem?_getD_replicate_default_eq,
      List.getD_eq_default _ _ (by omega)]

/-! ### The bit-string that OUT holds -/

/-- The OPOS bytes written to OUT are the bit-string w, most significant bit first (20_memory R53). -/
structure OutHolds (w : List Bool) (d : Datapath) : Prop where
  length : w.length = 8 * d.hidden.opos
  bit : ∀ j < w.length, (Memory.read d.out (j / 8)).map (·.getLsbD (7 - j % 8)) = w[j]?

section
variable {cap i : Nat} {w : List Bool} {d : Datapath}

/-- OutHolds speaks of OPOS and OUT alone. -/
theorem OutHolds.congr (h : OutHolds w d) {d' : Datapath} (ho : d'.hidden.opos = d.hidden.opos) (hm : d'.out = d.out) :
    OutHolds w d' :=
  ⟨ho ▸ h.length, hm ▸ h.bit⟩

theorem OutHolds.outBit_eq (h : OutHolds w d) {t : State} (ht : t.outBuf = d.out) {j : Nat} (hj : j < w.length) :
    outBit t j = w.getD j false := by
  obtain ⟨b, hread, hbit⟩ := Option.map_eq_some_iff.mp ((h.bit j hj).trans (List.getElem?_eq_getElem hj))
  rw [List.getD_eq_getElem _ _ hj, ← hbit, outBit, outByte, ht, hread, Option.getD_some]

theorem OutHolds.emitByte (h : OutHolds w d) {x : List Bool} (hx : x.length = 8) (hc : d.hidden.opos ≠ cap) :
    ∃ d', emitByte cap i (BitVec.ofNat 8 (valOf x)) d = .done d' ∧ OutHolds (w ++ x) d'
      ∧ d'.hidden = { d.hidden with opos := d.hidden.opos + 1 } := by
  obtain ⟨hcap, -⟩ | ⟨-, hemit⟩ := emitByte_cases cap i (BitVec.ofNat 8 (valOf x)) d
  · exact absurd hcap hc
  have hlen := h.length
  refine ⟨_, hemit, ⟨by simp [hlen, hx, Nat.mul_succ], fun j hj => ?_⟩, rfl⟩
  rw [List.length_append, hx] at hj
  rw [Memory.read_write]
  by_cases hjw : j < w.length
  · rw [if_neg (by omega), List.getElem?_append_left hjw, h.bit j hjw]
  · rw [if_pos (by omega), List.getElem?_append_right (by omega), show j - w.length = j % 8 by omega]
    exact getLsbD_ofNat_valOf hx (Nat.mod_lt _ (by decide))

/-! ### One input byte (43_packer R131) -/

/-- Between two input bytes: the bits of the codes so far are those in OUT, then those in ACC, which are fewer than
eight. -/
structure Packed (cap : Nat) (bits : List Bool) (d : Datapath) : Prop where
  split : ∃ w, OutHolds w d ∧ w ++ d.hidden.acc = bits
  short : d.hidden.acc.length < 8
  bound : d.hidden.opos ≤ cap

theorem Packed.length_eq {bits : List Bool} (h : Packed cap bits d) :
    bits.length = 8 * d.hidden.opos + d.hidden.acc.length := by
  obtain ⟨w, hw, rfl⟩ := h.split
  rw [List.length_append, hw.length]

theorem OutHolds.drainAcc (h : OutHolds w d) (hb : d.hidden.opos ≤ cap) {fuel : Nat}
    (hf : d.hidden.acc.length / 8 = fuel) :
    (∃ d', drainAcc cap i fuel d = .done d' ∧ Packed cap (w ++ d.hidden.acc) d')
    ∨ cap < (w ++ d.hidden.acc).length / 8 ∧ ∃ d', drainAcc cap i fuel d = .raised .outOverflow i d' := by
  induction fuel generalizing w d with
  | zero => exact .inl ⟨d, rfl, ⟨w, h, rfl⟩, by omega, hb⟩
  | succ fuel ih =>
    have hacc : 8 ≤ d.hidden.acc.length := by omega
    have hlen := h.length
    rw [Machine.drainAcc, if_pos hacc]
    by_cases hc : d.hidden.opos = cap
    · refine .inr ⟨by rw [List.length_append]; omega, d, ?_⟩
      rw [Machine.emitByte, if_pos hc]
      rfl
    · obtain ⟨e, hemit, hout, hhid⟩ := h.emitByte (i := i) (List.length_take_of_le hacc) hc
      have hrest := ih (d := { e with hidden := { e.hidden with acc := d.hidden.acc.drop 8 } })
        (hout.congr rfl rfl) (by simp only [hhid]; omega) (by simp only [List.length_drop]; omega)
      simp only [List.append_assoc, List.take_append_drop] at hrest
      simpa only [hemit, hhid, Halt.bind] using hrest

/-- One round of the input loop: the code of a byte is appended and the full bytes are written, or do not fit. -/
theorem Packed.drainAcc_appendCode {bits : List Bool} (h : Packed cap bits d) (c : CodeEntry) {fuel : Nat}
    (hf : (appendCode c d).hidden.acc.length / 8 = fuel) :
    (∃ d', drainAcc cap i fuel (appendCode c d) = .done d' ∧ Packed cap (bits ++ codeBits c) d')
    ∨ cap < (bits ++ codeBits c).length / 8
      ∧ ∃ d', drainAcc cap i fuel (appendCode c d) = .raised .outOverflow i d' := by
  obtain ⟨w, hw, rfl⟩ := h.split
  rw [List.append_assoc]
  have hout : OutHolds w (appendCode c d) := hw.congr rfl rfl
  exact hout.drainAcc h.bound hf

/-- The final padded byte (43_packer R133): PACK fails for want of room, or OUT holds the bits and their padding. -/
theorem Packed.packFlush {bits : List Bool} (h : Packed cap bits d) {inLen : Nat} :
    ((bits.length + 7) / 8 ≤ cap ∧ ∃ d', packFlush cap inLen d = .done d'
      ∧ OutHolds (bits ++ List.replicate (padBits d.hidden.acc.length) false) d')
    ∨ cap < (bits.length + 7) / 8 ∧ packFlush cap inLen d = .raised .outOverflow inLen d := by
  obtain ⟨hlen, hshort, hbound⟩ := And.intro h.length_eq (And.intro h.short h.bound)
  obtain ⟨w, hw, hsplit⟩ := h.split
  by_cases hacc : d.hidden.acc = []
  · rw [hacc, List.length_nil] at hlen
    refine .inl ⟨by omega, d, by rw [Machine.packFlush, if_pos hacc], ?_⟩
    simpa [hacc, padBits, ← hsplit] using hw
  have hpos := List.length_pos_of_ne_nil hacc
  rw [Machine.packFlush, if_neg hacc]
  by_cases hc : d.hidden.opos = cap
  · exact .inr ⟨by omega, by rw [Machine.emitByte, if_pos hc]⟩
  · have hbyte : (d.hidden.acc ++ List.replicate (padBits d.hidden.acc.length) false).length = 8 := by
      rw [List.length_append, List.length_replicate, padBits, if_neg hpos.ne']
      omega
    obtain ⟨d', hemit, hout, -⟩ := hw.emitByte (i := inLen) hbyte hc
    exact .inl ⟨by omega, d', hemit, by rwa [← List.append_assoc, hsplit] at hout⟩

end

/-! ### The loop over the input bytes (43_packer R131, R132) -/

/-- The codes of the bytes, one after the other (43_packer R132). -/
def codesOf (codes : Table 8 CodeEntry) (bs : List Byte) : List Bool :=
  bs.flatMap fun b => codeBits (Table.read codes b)

theorem packedBits_eq_codesOf (s : State) : packedBits s = codesOf s.codes (inputBytes s) := rfl

@[simp] theorem codesOf_nil (codes : Table 8 CodeEntry) : codesOf codes [] = [] := rfl

@[simp] theorem codesOf_cons (codes : Table 8 CodeEntry) (b : Byte) (bs : List Byte) :
    codesOf codes (b :: bs) = codeBits (Table.read codes b) ++ codesOf codes bs := rfl

theorem length_codesOf (codes : Table 8 CodeEntry) (bs : List Byte) :
    (codesOf codes bs).length = (bs.map fun b => (Table.read codes b).len.toNat).sum := by
  simp only [codesOf, List.length_flatMap, codeBits_length]

section
variable {codes : Table 8 CodeEntry} {cap i : Nat} {b : Byte} {bs : List Byte} {d : Datapath}

theorem packLoop_cons_of_invalid (h : (Table.read codes b).valid = false) :
    packLoop codes cap i (b :: bs) d = .raised .encoding i d := by
  simp [packLoop, h]

theorem packLoop_cons_of_valid (h : (Table.read codes b).valid = true) :
    packLoop codes cap i (b :: bs) d =
      (drainAcc cap i ((appendCode (Table.read codes b) d).hidden.acc.length / 8)
        (appendCode (Table.read codes b) d)).bind (packLoop codes cap (i + 1) bs) := by
  simp [packLoop, h]

theorem packLoop_append {bs' : List Byte} :
    packLoop codes cap i (bs ++ bs') d =
      (packLoop codes cap i bs d).bind (packLoop codes cap (i + bs.length) bs') := by
  induction bs generalizing i d with
  | nil => rfl
  | cons b bs ih =>
    cases hv : (Table.read codes b).valid with
    | false => simp only [List.cons_append, packLoop_cons_of_invalid hv, Halt.bind]
    | true =>
      rw [List.cons_append, packLoop_cons_of_valid hv, packLoop_cons_of_valid hv]
      cases drainAcc cap i ((appendCode (Table.read codes b) d).hidden.acc.length / 8)
          (appendCode (Table.read codes b) d) with
      | raised e n d' => rfl
      | done d' =>
        simp only [Halt.bind, ih, List.length_cons, Nat.add_assoc, Nat.add_comm 1]

/-- A run of coded bytes is packed, unless its full bytes do not fit. -/
theorem Packed.packLoop {bits : List Bool} (h : Packed cap bits d) (hv : ∀ b ∈ bs, (Table.read codes b).valid = true) :
    (∃ d', packLoop codes cap i bs d = .done d' ∧ Packed cap (bits ++ codesOf codes bs) d')
    ∨ cap < (bits ++ codesOf codes bs).length / 8 ∧ ∃ n d', packLoop codes cap i bs d = .raised .outOverflow n d' := by
  induction bs generalizing i bits d with
  | nil => exact .inl ⟨d, rfl, by simpa using h⟩
  | cons b bs ih =>
    obtain ⟨hb, hbs⟩ := List.forall_mem_cons.mp hv
    rw [packLoop_cons_of_valid hb, codesOf_cons, ← List.append_assoc]
    rcases h.drainAcc_appendCode (i := i) (Table.read codes b) rfl with ⟨e, hdrain, he⟩ | ⟨hcap, e, hdrain⟩
    · simpa only [hdrain, Halt.bind] using ih he hbs
    · refine .inr ⟨?_, i, e, by simp only [hdrain, Halt.bind]⟩
      rw [List.length_append]
      omega

end

/-! ### The input bytes and their bits (43_packer R133, R134) -/

theorem Packed.start (s : State) : Packed s.params.outCap [] (packStart s) :=
  ⟨⟨[], ⟨rfl, by simp⟩, rfl⟩, by simp [packStart], by simp [packStart]⟩

theorem bitsBefore_eq_length (s : State) (i : Nat) :
    bitsBefore s i = (codesOf s.codes ((inputBytes s).take i)).length :=
  (length_codesOf ..).symm

@[simp] theorem length_inputBytes (s : State) : (inputBytes s).length = s.inLen.toNat := by simp [inputBytes]

theorem getElem_inputBytes {s : State} {i : Nat} (h : i < (inputBytes s).length) : (inputBytes s)[i] = inByte s i := by
  simp [inputBytes]

theorem length_packedBits (s : State) : (packedBits s).length = codeBitCount s := by
  rw [codeBitCount, bitsBefore_eq_length, List.take_of_length_le (length_inputBytes s).le, packedBits_eq_codesOf]

theorem inputBytes_eq_append {s : State} {i : Nat} (h : i < s.inLen.toNat) :
    inputBytes s = (inputBytes s).take i ++ inByte s i :: (inputBytes s).drop (i + 1) := by
  rw [← length_inputBytes] at h
  rw [← getElem_inputBytes h, List.cons_getElem_drop_succ, List.take_append_drop]

theorem bitsBefore_succ {s : State} {i : Nat} (h : i < s.inLen.toNat) :
    bitsBefore s (i + 1) = bitsBefore s i + (Table.read s.codes (inByte s i)).len.toNat := by
  rw [← length_inputBytes] at h
  simp [bitsBefore, List.take_add_one, List.getElem?_eq_getElem h, getElem_inputBytes]

theorem valid_of_mem_take {s : State} {i : Nat} (h : ∀ j < i, coded s j = true) {b : Byte}
    (hb : b ∈ (inputBytes s).take i) : (Table.read s.codes b).valid = true := by
  obtain ⟨j, hj, rfl⟩ := List.mem_take_iff_getElem.mp hb
  rw [getElem_inputBytes]
  exact h j (by omega)

theorem valid_of_mem_inputBytes {s : State} (h : ∀ i < s.inLen.toNat, coded s i = true) {b : Byte}
    (hb : b ∈ inputBytes s) : (Table.read s.codes b).valid = true :=
  valid_of_mem_take h (by rwa [List.take_of_length_le (length_inputBytes s).le])

/-- With the bytes before i coded and their full bytes in OUT, PACK comes to byte i. -/
theorem exists_packed_take {s : State} {i : Nat} (hv : ∀ j < i, coded s j = true)
    (hfit : bitsBefore s i / 8 ≤ s.params.outCap) :
    ∃ d, packLoop s.codes s.params.outCap 0 ((inputBytes s).take i) (packStart s) = .done d
      ∧ Packed s.params.outCap (codesOf s.codes ((inputBytes s).take i)) d := by
  rw [bitsBefore_eq_length] at hfit
  rcases (Packed.start s).packLoop (i := 0) fun b => valid_of_mem_take hv with h | ⟨hover, -⟩
  · exact h
  · exact absurd hover (Nat.not_lt.mpr hfit)

/-! ### How PACK answers (43_packer R131, R134, R135) -/

/-- PACK reports the error e with the information value n. -/
def PackRaises (s : State) (e : ErrKind) (n : Nat) : Prop :=
  ∃ d, exec .pack s = .next (raiseError (some .pack) e n (s.withDatapath d))

theorem exec_pack_of_inCap_lt {s : State} (h : s.params.inCap < s.inLen.toNat) :
    exec .pack s = .next (raiseError (some .pack) .inLenRange s.inLen.toNat s) := by
  simp [exec, execPack, packBody, h]

section
variable {s : State} (hr : s.inLen.toNat ≤ s.params.inCap)
include hr

theorem PackRaises.of_packLoop {e : ErrKind} {n : Nat} {d : Datapath}
    (hl : packLoop s.codes s.params.outCap 0 (inputBytes s) (packStart s) = .raised e n d) : PackRaises s e n :=
  ⟨d, by simp [exec, execPack, packBody, Nat.not_lt.mpr hr, hl]⟩

theorem PackRaises.of_packFlush {e : ErrKind} {n : Nat} {d d' : Datapath}
    (hl : packLoop s.codes s.params.outCap 0 (inputBytes s) (packStart s) = .done d)
    (hf : packFlush s.params.outCap s.inLen.toNat d = .raised e n d') : PackRaises s e n :=
  ⟨d', by simp [exec, execPack, packBody, Nat.not_lt.mpr hr, hl, hf]⟩

theorem exec_pack_of_done {d d' : Datapath}
    (hl : packLoop s.codes s.params.outCap 0 (inputBytes s) (packStart s) = .done d)
    (hf : packFlush s.params.outCap s.inLen.toNat d = .done d') :
    exec .pack s = .next (complete (publishPacked (padBits d.hidden.acc.length) (s.withDatapath d'))) := by
  simp [exec, execPack, packBody, Nat.not_lt.mpr hr, hl, hf]

/-- PACK comes to byte i, and what the loop raises there PACK reports. -/
theorem PackRaises.of_byte {i : Nat} (hi : i < s.inLen.toNat) (hv : ∀ j < i, coded s j = true)
    (hfit : bitsBefore s i / 8 ≤ s.params.outCap) {e : ErrKind} {n : Nat}
    (hbyte : ∀ d bs, Packed s.params.outCap (codesOf s.codes ((inputBytes s).take i)) d →
      ∃ d', packLoop s.codes s.params.outCap i (inByte s i :: bs) d = .raised e n d') : PackRaises s e n := by
  obtain ⟨d, htake, hd⟩ := exists_packed_take hv hfit
  obtain ⟨d', hraise⟩ := hbyte d ((inputBytes s).drop (i + 1)) hd
  refine of_packLoop hr (d := d') ?_
  have hlen : ((inputBytes s).take i).length = i := by simp [hi.le]
  rw [inputBytes_eq_append hi, packLoop_append, htake, Halt.bind, hlen, Nat.zero_add, hraise]

theorem packRaises_encoding {i : Nat} (hi : i < s.inLen.toNat) (hv : ∀ j < i, coded s j = true)
    (hn : coded s i = false) (hfit : bitsBefore s i / 8 ≤ s.params.outCap) : PackRaises s .encoding i :=
  .of_byte hr hi hv hfit fun d _ _ => ⟨d, packLoop_cons_of_invalid hn⟩

theorem packRaises_outOverflow {i : Nat} (hi : i < s.inLen.toNat) (hv : ∀ j ≤ i, coded s j = true)
    (hfit : bitsBefore s i / 8 ≤ s.params.outCap) (hover : s.params.outCap < bitsBefore s (i + 1) / 8) :
    PackRaises s .outOverflow i := by
  refine .of_byte hr hi (fun j hj => hv j hj.le) hfit fun d bs hd => ?_
  rw [packLoop_cons_of_valid (hv i le_rfl)]
  rcases hd.drainAcc_appendCode (i := i) (Table.read s.codes (inByte s i)) rfl with ⟨d', -, hd'⟩ | ⟨-, d', hdrain⟩
  · have hlen := hd'.length_eq
    rw [List.length_append, codeBits_length, ← bitsBefore_eq_length, ← bitsBefore_succ hi] at hlen
    have := hd'.bound
    have := hd'.short
    omega
  · exact ⟨d', by rw [hdrain, Halt.bind]⟩

/-- PACK of coded bytes fails on a full byte or on the padded one, or succeeds with the codes and their padding in OUT. -/
theorem exec_pack_of_coded (hv : ∀ i < s.inLen.toNat, coded s i = true) :
    (s.params.outCap < codeBitCount s / 8 ∧ ∃ n, PackRaises s .outOverflow n)
    ∨ (s.params.outCap < (codeBitCount s + 7) / 8 ∧ PackRaises s .outOverflow s.inLen.toNat)
    ∨ (codeBitCount s + 7) / 8 ≤ s.params.outCap
      ∧ ∃ d, exec .pack s = .next (complete (publishPacked (padBits (codeBitCount s % 8)) (s.withDatapath d)))
        ∧ OutHolds (packedBits s ++ List.replicate (padBits (codeBitCount s % 8)) false) d := by
  rw [← length_packedBits]
  rcases (Packed.start s).packLoop (i := 0) fun b => valid_of_mem_inputBytes hv with ⟨d, hl, hd⟩ | ⟨hover, n, d, hl⟩
  · rw [List.nil_append, ← packedBits_eq_codesOf] at hd
    have hacc : (packedBits s).length % 8 = d.hidden.acc.length := by
      have := hd.length_eq
      have := hd.short
      omega
    rw [hacc]
    rcases hd.packFlush (inLen := s.inLen.toNat) with ⟨hfit, d', hf, hout⟩ | ⟨hover, hf⟩
    · exact .inr (.inr ⟨hfit, d', exec_pack_of_done hr hl hf, hout⟩)
    · exact .inr (.inl ⟨hover, .of_packFlush hr hl hf⟩)
  · exact .inl ⟨hover, n, .of_packLoop hr hl⟩

end

theorem padBits_eq_mod {n : Nat} : padBits (n % 8) = (8 - n % 8) % 8 := by
  unfold padBits
  split <;> omega

/-! ### The statements of 43_packer -/

/-- Settles O29: of the three endings of exec_pack_of_coded only success leaves OUT_CAP large enough. -/
theorem packWritesTheCodesInOrder : Obligations.PackWritesTheCodesInOrder := by
  intro s hp hr hv hfit
  rcases exec_pack_of_coded hr hv with ⟨hover, -⟩ | ⟨hover, -⟩ | ⟨-, d, hexec, hout⟩
  · omega
  · omega
  have hcap := Params.outCap_le_of_legal hp
  have hlen := hout.length
  rw [List.length_append, List.length_replicate, length_packedBits, padBits_eq_mod] at hlen
  have hopos : d.hidden.opos = (codeBitCount s + 7) / 8 := by omega
  have houtLen : (BitVec.ofNat 32 d.hidden.opos).toNat = (codeBitCount s + 7) / 8 := by
    rw [BitVec.toNat_ofNat, Nat.mod_eq_of_lt (by omega), hopos]
  have hpadOut : (BitVec.ofNat 3 (padBits (codeBitCount s % 8))).toNat = (8 - codeBitCount s % 8) % 8 := by
    rw [BitVec.toNat_ofNat, padBits_eq_mod, Nat.mod_mod]
  refine ⟨_, hexec, rfl, houtLen, hpadOut, ?_, length_packedBits s, fun j hj => ?_⟩
  · rw [complete_outLen, complete_padOut, publishPacked_outLen, publishPacked_padOut, State.withDatapath_hidden,
      houtLen, hpadOut]
    omega
  · rw [complete_outLen, publishPacked_outLen, State.withDatapath_hidden, houtLen, ← hopos, ← hout.length] at hj
    rw [hout.outBit_eq rfl hj, getD_append_replicate_false]

/-- Settles O30: IN_LEN_RANGE is tested first; the bytes before the offending one are packed (exists_packed_take), and
the whole of a coded input ends as in exec_pack_of_coded. -/
theorem packReportsTheFirstError : Obligations.PackReportsTheFirstError := by
  refine fun s => ⟨fun h => ⟨_, exec_pack_of_inCap_lt h, rfl, rfl, by simp⟩, fun hr => ⟨?_, ?_, ?_, ?_⟩⟩
  · intro i hi hv hn hfit
    obtain ⟨d, h⟩ := packRaises_encoding hr hi hv hn hfit
    exact ⟨_, h, rfl, rfl, Nat.mod_eq_of_lt (hi.trans s.inLen.isLt)⟩
  · intro i hi hv hfit hover
    obtain ⟨d, h⟩ := packRaises_outOverflow hr hi hv hfit hover
    exact ⟨_, h, rfl, rfl, Nat.mod_eq_of_lt (hi.trans s.inLen.isLt)⟩
  · intro hv hfit hover
    rcases exec_pack_of_coded hr hv with ⟨hfull, -⟩ | ⟨-, d, h⟩ | ⟨hroom, -⟩
    · omega
    · exact ⟨_, h, rfl, rfl, by simp⟩
    · omega
  · intro hv
    rcases exec_pack_of_coded hr hv with ⟨hover, n, d, h⟩ | ⟨hover, d, h⟩ | ⟨hroom, d, h, -⟩
    · exact ⟨_, h, iff_of_true rfl (by omega), fun _ => rfl⟩
    · exact ⟨_, h, iff_of_true rfl hover, fun _ => rfl⟩
    · exact ⟨_, h, iff_of_false (by simp [Status.complete]) (by omega), fun he => by simp [Status.complete] at he⟩

/-! ### The empty input (43_packer R136, 44_unpacker R150) -/

theorem exec_pack_of_empty {s : State} (h : s.inLen = 0) :
    exec .pack s = .next (complete { s with outLen := 0, padOut := 0 }) := by
  have hloop : packLoop s.codes s.params.outCap 0 (inputBytes s) (packStart s) = .done (packStart s) := by
    simp [inputBytes, h, packLoop]
  exact exec_pack_of_done (by simp [h]) hloop (if_pos rfl)

theorem unpackBody_of_ready {s : State} (h : unpackReady s) : unpackBody s = unpackWalk s := by
  obtain ⟨ht, hr, hpad, hdata⟩ := h
  simp only [unpackBody, ht, Bool.not_true, Bool.false_eq_true, if_false, Nat.not_lt.mpr hr, Nat.not_lt.mpr hpad,
    Nat.not_lt.mpr hdata]

theorem unpackWalk_of_nil {s : State} (h : dataBits s = []) :
    unpackWalk s = .done (publishUnpacked (s.withDatapath (unpackStart s))) := by
  simp only [unpackWalk, h, walkLoop]
  exact if_neg (not_not_intro rfl)

theorem exec_unpack_of_empty {s : State} (ht : s.status.treeValid = true) (h : s.inLen = 0) (hp : s.padIn = 0) :
    exec .unpack s = .next (complete { s with outLen := 0, padOut := 0 }) := by
  have hready : unpackReady s := ⟨ht, by simp [h], by simp [hp], by simp [hp]⟩
  have hbits : dataBits s = [] := by simp [dataBits, dataLen, h]
  rw [exec, execUnpack, unpackBody_of_ready hready, unpackWalk_of_nil hbits]
  rfl

/-- Settles O40: neither loop has a round to run, and seven padding bits are fewer than one byte's. -/
theorem emptyInputSucceeds : Obligations.EmptyInputSucceeds := by
  refine fun s => ⟨exec_pack_of_empty, exec_unpack_of_empty, fun hpad hlen => ?_⟩
  unfold dataLen
  omega

end Sys2Proof.Machine
end

section
/-! SUPPORT. UNPACK followed through its walk (44_unpacker R141 to R149): what a walk inside a code, a whole codeword
and a list of codewords do to the datapath, and from these how UNPACK answers. -/

namespace Sys2Proof.Machine

/-! ### The prechecks (44_unpacker R142) -/

/-- What an error of UNPACK that wrote nothing leaves (60_exceptions R162). -/
theorem raiseError_unpack (e : ErrKind) (info : Nat) (s : State) : raiseError (some .unpack) e info s =
    { s with
      outLen := 0, padOut := 0, errInfo := BitVec.ofNat 32 info, seq := .idle, hidden := Hidden.empty
      status := { s.status with busy := false, done := true, err := true, errCode := e.code } } := rfl

section
variable {s : State} (ht : s.status.treeValid = true)
include ht

theorem exec_unpack_of_inCap_lt (h : s.params.inCap < s.inLen.toNat) :
    exec .unpack s = .next (raiseError (some .unpack) .inLenRange s.inLen.toNat s) := by
  simp [exec, execUnpack, unpackBody, ht, h]

theorem exec_unpack_of_seven_lt (hr : s.inLen.toNat ≤ s.params.inCap) (h : 7 < s.padIn.toNat) :
    exec .unpack s = .next (raiseError (some .unpack) .invalidPadding s.padIn.toNat s) := by
  simp [exec, execUnpack, unpackBody, ht, Nat.not_lt.mpr hr, h]

theorem exec_unpack_of_padding_exceeds (hr : s.inLen.toNat ≤ s.params.inCap) (hpad : s.padIn.toNat ≤ 7)
    (h : 8 * s.inLen.toNat < s.padIn.toNat) :
    exec .unpack s = .next (raiseError (some .unpack) .padExceeds s.padIn.toNat s) := by
  simp [exec, execUnpack, unpackBody, ht, Nat.not_lt.mpr hr, Nat.not_lt.mpr hpad, h]

end

/-- Settles O34: each precheck that fails is raiseError alone; ERR_INFO holds the whole of IN_LEN or PAD_IN. -/
theorem unpackPrechecksInOrder : Obligations.UnpackPrechecksInOrder := by
  refine fun s => ⟨fun ht => ?_, fun ht hr => ?_, fun ht hr hpad => ?_, fun ht hr hpad hdata => ?_⟩
  · rw [exec_unpack_of_no_tree ht, raiseError_unpack]
    rfl
  · rw [exec_unpack_of_inCap_lt ht hr, raiseError_unpack, BitVec.ofNat_toNat, BitVec.setWidth_eq]
    rfl
  · rw [exec_unpack_of_seven_lt ht hr hpad, raiseError_unpack, BitVec.ofNat_toNat]
    rfl
  · rw [exec_unpack_of_padding_exceeds ht hr hpad hdata, raiseError_unpack, BitVec.ofNat_toNat]
    rfl

/-! ### The padding bits (44_unpacker R149) -/

/-- The state with other contents of IN. -/
def State.withInBuf (m : Memory) (s : State) : State := { s with inBuf := m }

theorem finish_lift_withInBuf (i : Instr) (m : Memory) (h : Halt State) :
    finish i (h.lift (State.withInBuf m)) = (finish i h).withInBuf m := by
  cases h <;> rfl

/-- UNPACK reads the data bits of IN and nothing else of it. -/
theorem unpackBody_withInBuf {s : State} {m : Memory} (hbits : dataBits (s.withInBuf m) = dataBits s) :
    unpackBody (s.withInBuf m) = (unpackBody s).lift (State.withInBuf m) := by
  have hwalk : unpackWalk (s.withInBuf m) = (unpackWalk s).lift (State.withInBuf m) := by
    have hloop : walkLoop (s.withInBuf m).nodes (s.withInBuf m).root (s.withInBuf m).params.outCap 0
        (dataBits (s.withInBuf m)) (unpackStart (s.withInBuf m)) =
          walkLoop s.nodes s.root s.params.outCap 0 (dataBits s) (unpackStart s) := by
      rw [hbits]
      rfl
    rw [unpackWalk, unpackWalk, hloop]
    cases walkLoop s.nodes s.root s.params.outCap 0 (dataBits s) (unpackStart s) with
    | raised e info d => rfl
    | done d =>
      simp only [apply_ite (Halt.lift (State.withInBuf m))]
      rfl
  simp only [unpackBody, apply_ite (Halt.lift (State.withInBuf m)), ← hwalk]
  rfl

theorem dataBits_withInBuf {s : State} {m : Memory} (h : ∀ k < dataLen s, inBit (s.withInBuf m) k = inBit s k) :
    dataBits (s.withInBuf m) = dataBits s :=
  List.map_congr_left fun k hk => h k (List.mem_range.mp hk)

/-- Settles O39: the padding bits are no data bits, and the pseudocode's ending keeps the contents of IN. -/
theorem unpackIgnoresThePaddingBits : Obligations.UnpackIgnoresThePaddingBits := by
  intro s t m hbits ht
  cases ht
  have hbody := unpackBody_withInBuf (dataBits_withInBuf hbits)
  exact congrArg Host.Outcome.next ((congrArg (finish .unpack) hbody).trans (finish_lift_withInBuf ..))

/-! ### The walk inside a code (44_unpacker R144, R145) -/

/-- A walk to an INTERNAL node started at one. -/
theorem kind_of_walksTo_internal {nodes : Table 9 Node} {i k : NodeIdx} {p : List Bool} (hw : walksTo nodes i p k)
    (hk : (Table.read nodes k).kind = .internal) : (Table.read nodes i).kind = .internal := by
  cases p with
  | nil => exact hw ▸ hk
  | cons bit p => exact hw.1

/-- The last step of a walk leaves an INTERNAL node. -/
theorem exists_last_step {nodes : Table 9 Node} {i k : NodeIdx} {p : List Bool} (hp : p ≠ [])
    (hw : walksTo nodes i p k) :
    ∃ q bit j, p = q ++ [bit] ∧ walksTo nodes i q j ∧ (Table.read nodes j).kind = .internal
      ∧ childOn nodes j bit = k := by
  obtain ⟨q, bit, rfl⟩ := (List.eq_nil_or_concat' p).resolve_left hp
  obtain ⟨j, hq, hj, hstep⟩ := walksTo_append.mp hw
  exact ⟨q, bit, j, rfl, hq, hj, hstep⟩

section
variable {nodes : Table 9 Node} {root : NodeIdx} {cap k : Nat} {bit : Bool} {bits : List Bool} {d : Datapath}

/-! One step of the walk, by the kind of the node j that the bit leads to. -/

section
variable {j : NodeIdx} (hj : childOn nodes d.hidden.cur bit = j)
include hj

theorem walkLoop_cons_of_internal (h : (Table.read nodes j).kind = .internal) :
    walkLoop nodes root cap k (bit :: bits) d = walkLoop nodes root cap (k + 1) bits (d.at j) := by
  simp only [walkLoop, hj, h]

theorem walkLoop_cons_of_leaf (h : (Table.read nodes j).kind = .leaf) :
    walkLoop nodes root cap k (bit :: bits) d =
      (emitByte cap k (Table.read nodes j).sym (d.at j)).bind fun d' =>
        walkLoop nodes root cap (k + 1) bits (d'.at root) := by
  simp only [walkLoop, hj, h]

theorem walkLoop_cons_of_sentinel (h : (Table.read nodes j).kind = .sentinel) :
    walkLoop nodes root cap k (bit :: bits) d = .raised .decodeSentinel k (d.at j) := by
  simp only [walkLoop, hj, h]

end

theorem walkLoop_append {bits' : List Bool} :
    walkLoop nodes root cap k (bits ++ bits') d =
      (walkLoop nodes root cap k bits d).bind (walkLoop nodes root cap (k + bits.length) bits') := by
  induction bits generalizing k d with
  | nil => rfl
  | cons bit bits ih =>
    rw [List.cons_append, List.length_cons, Nat.add_comm bits.length, ← Nat.add_assoc]
    generalize hj : childOn nodes d.hidden.cur bit = j
    cases hk : (Table.read nodes j).kind with
    | internal => rw [walkLoop_cons_of_internal hj hk, walkLoop_cons_of_internal hj hk, ih]
    | sentinel => rw [walkLoop_cons_of_sentinel hj hk, walkLoop_cons_of_sentinel hj hk, Halt.bind_raised]
    | leaf =>
      rw [walkLoop_cons_of_leaf hj hk, walkLoop_cons_of_leaf hj hk]
      cases emitByte cap k (Table.read nodes j).sym (d.at j) with
      | raised e n d' => rfl
      | done d' => exact ih

/-- Bits that lead to an INTERNAL node move CUR alone. -/
theorem walkLoop_of_walksTo_internal {j : NodeIdx} (hw : walksTo nodes d.hidden.cur bits j)
    (hj : (Table.read nodes j).kind = .internal) : walkLoop nodes root cap k bits d = .done (d.at j) := by
  induction bits generalizing k d with
  | nil =>
    cases hw
    rfl
  | cons bit bits ih =>
    rw [walkLoop_cons_of_internal rfl (kind_of_walksTo_internal hw.2 hj)]
    exact ih hw.2

/-- A walk that ends elsewhere is one to an INTERNAL node, then one bit more. -/
theorem exists_walkLoop_last {j : NodeIdx} (hp : bits ≠ []) (hw : walksTo nodes d.hidden.cur bits j) :
    ∃ i bit, childOn nodes i bit = j
      ∧ walkLoop nodes root cap k bits d = walkLoop nodes root cap (k + bits.length - 1) [bit] (d.at i) := by
  obtain ⟨q, bit, i, rfl, hq, hi, hstep⟩ := exists_last_step hp hw
  refine ⟨i, bit, hstep, ?_⟩
  rw [walkLoop_append, walkLoop_of_walksTo_internal hq hi, Halt.bind_done, List.length_append, List.length_singleton]
  rfl

end

/-! ### Codewords (44_unpacker R145, R148) -/

/-- Between two codewords: CUR is at ROOT, and the bytes so far stand in OUT from 0 on. -/
structure Emitted (root : NodeIdx) (ds : List Byte) (d : Datapath) : Prop where
  cur  : d.hidden.cur = root
  opos : d.hidden.opos = ds.length
  out  : ∀ k b, ds[k]? = some b → Memory.read d.out k = some b

theorem Emitted.start (s : State) : Emitted s.root [] (unpackStart s) := ⟨rfl, rfl, by simp⟩

/-- The datapath after a byte is emitted at a leaf and CUR goes back to ROOT. -/
def Datapath.emitted (root : NodeIdx) (b : Byte) (d : Datapath) : Datapath :=
  { hidden := { d.hidden with cur := root, opos := d.hidden.opos + 1 }, out := Memory.write d.out d.hidden.opos b }

section
variable {nodes : Table 9 Node} {root : NodeIdx} {cap k : Nat} {ds : List Byte} {d : Datapath}

theorem Emitted.emitted (h : Emitted root ds d) (b : Byte) : Emitted root (ds ++ [b]) (d.emitted root b) where
  cur := rfl
  opos := by simp [Datapath.emitted, h.opos]
  out j c hj := by
    simp only [Datapath.emitted, Memory.read_write, h.opos]
    by_cases hlt : j < ds.length
    · rw [if_neg hlt.ne', h.out j c (by rwa [List.getElem?_append_left hlt] at hj)]
    · obtain ⟨hlen, rfl⟩ := List.getElem?_eq_some_iff.mp hj
      rw [List.length_append, List.length_singleton] at hlen
      obtain rfl : j = ds.length := by omega
      simp

/-- A codeword emits its byte, or reports the index of its last bit when OUT is full. -/
theorem Emitted.walkLoop_codeword (h : Emitted root ds d) {p : List Bool} {b : Byte} (hp : isCodeword nodes root p b) :
    (ds.length ≠ cap → walkLoop nodes root cap k p d = .done (d.emitted root b))
    ∧ (ds.length = cap → ∃ d', walkLoop nodes root cap k p d = .raised .outOverflow (k + p.length - 1) d') := by
  obtain ⟨hne, j, hw, hleaf, rfl⟩ := hp
  rw [← h.cur] at hw
  obtain ⟨i, bit, hstep, hl⟩ := exists_walkLoop_last (root := root) (cap := cap) (k := k) hne hw
  rw [hl, walkLoop_cons_of_leaf hstep hleaf, ← h.opos]
  obtain ⟨hfull, hemit⟩ | ⟨hroom, hemit⟩ :=
    emitByte_cases cap (k + p.length - 1) (Table.read nodes j).sym ((d.at i).at j)
  · rw [hemit]
    exact ⟨fun hroom => absurd hfull hroom, fun _ => ⟨_, rfl⟩⟩
  · rw [hemit]
    exact ⟨fun _ => rfl, fun hfull => absurd hfull hroom⟩

/-- Codewords that fit emit their bytes. -/
theorem Emitted.walkLoop_codewords (h : Emitted root ds d) {paths : List (List Bool)} {bs : List Byte}
    (hc : List.Forall₂ (isCodeword nodes root) paths bs) (hfit : ds.length + bs.length ≤ cap) :
    ∃ d', walkLoop nodes root cap k paths.flatten d = .done d' ∧ Emitted root (ds ++ bs) d' := by
  induction hc generalizing ds d k with
  | nil => exact ⟨d, rfl, by simpa using h⟩
  | @cons p b paths bs hp _ ih =>
    rw [List.length_cons] at hfit
    have hroom : (ds ++ [b]).length + bs.length ≤ cap := by
      rw [List.length_append, List.length_singleton]
      omega
    obtain ⟨d', hl, hd'⟩ := ih (h.emitted b) (k := k + p.length) hroom
    refine ⟨d', ?_, by simpa using hd'⟩
    rw [List.flatten_cons, walkLoop_append, (h.walkLoop_codeword hp).1 (by omega), Halt.bind_done, hl]

end

/-- UNPACK comes to the bits after its first codewords, if their bytes fit in OUT. -/
theorem areCodewords.exists_emitted {s : State} {paths : List (List Bool)} {d : List Byte} (hc : areCodewords s paths d)
    (hfit : d.length ≤ s.params.outCap) (rest : List Bool) :
    ∃ e, walkLoop s.nodes s.root s.params.outCap 0 (paths.flatten ++ rest) (unpackStart s)
        = walkLoop s.nodes s.root s.params.outCap paths.flatten.length rest e ∧ Emitted s.root d e := by
  obtain ⟨e, hl, he⟩ := (Emitted.start s).walkLoop_codewords (k := 0) hc (by simpa using hfit)
  exact ⟨e, by rw [walkLoop_append, hl, Halt.bind_done, Nat.zero_add], he⟩

/-! ### How UNPACK answers (44_unpacker R145 to R148) -/

/-- UNPACK reports the error e with the information value n. -/
def UnpackRaises (s : State) (e : ErrKind) (n : Nat) : Prop :=
  ∃ d, exec .unpack s = .next (raiseError (some .unpack) e n (s.withDatapath d))

section
variable {s : State} (hr : unpackReady s)
include hr

theorem UnpackRaises.of_walkLoop {e : ErrKind} {n : Nat} {d : Datapath}
    (hl : walkLoop s.nodes s.root s.params.outCap 0 (dataBits s) (unpackStart s) = .raised e n d) :
    UnpackRaises s e n :=
  ⟨d, by rw [exec, execUnpack, unpackBody_of_ready hr, unpackWalk, hl, finish_raised]⟩

theorem UnpackRaises.of_cur_ne_root {d : Datapath}
    (hl : walkLoop s.nodes s.root s.params.outCap 0 (dataBits s) (unpackStart s) = .done d)
    (hcur : d.hidden.cur ≠ s.root) : UnpackRaises s .decodePartial (dataLen s) :=
  ⟨d, by simp only [exec, execUnpack, unpackBody_of_ready hr, unpackWalk, hl, if_pos hcur, finish_raised]⟩

theorem exec_unpack_of_done {d : Datapath}
    (hl : walkLoop s.nodes s.root s.params.outCap 0 (dataBits s) (unpackStart s) = .done d)
    (hcur : d.hidden.cur = s.root) :
    exec .unpack s = .next (complete (publishUnpacked (s.withDatapath d))) := by
  simp only [exec, execUnpack, unpackBody_of_ready hr, unpackWalk, hl, if_neg (not_not_intro hcur), finish_done]

variable {paths : List (List Bool)} {d : List Byte} (hc : areCodewords s paths d)
include hc

/-- A codeword follows after OUT_CAP bytes. -/
theorem unpackRaises_outOverflow (hfull : d.length = s.params.outCap) {p rest : List Bool} {b : Byte}
    (hbits : dataBits s = paths.flatten ++ p ++ rest) (hp : isCodeword s.nodes s.root p b) :
    UnpackRaises s .outOverflow (paths.flatten.length + p.length - 1) := by
  obtain ⟨e, hl, he⟩ := hc.exists_emitted hfull.le (p ++ rest)
  obtain ⟨e', hp⟩ := (he.walkLoop_codeword (k := paths.flatten.length) hp).2 hfull
  rw [← List.append_assoc, ← hbits, walkLoop_append, hp, Halt.bind_raised] at hl
  exact .of_walkLoop hr hl

variable (hfit : d.length ≤ s.params.outCap)
include hfit

/-- The data bits end inside a code. -/
theorem unpackRaises_decodePartial {p : List Bool} {k : NodeIdx} (hbits : dataBits s = paths.flatten ++ p)
    (hw : walksTo s.nodes s.root p k) (hk : (Table.read s.nodes k).kind = .internal) (hne : k ≠ s.root) :
    UnpackRaises s .decodePartial (dataLen s) := by
  obtain ⟨e, hl, he⟩ := hc.exists_emitted hfit p
  have hend : walkLoop s.nodes s.root s.params.outCap paths.flatten.length p e = .done (e.at k) :=
    walkLoop_of_walksTo_internal (by rwa [he.cur]) hk
  rw [← hbits, hend] at hl
  exact .of_cur_ne_root hr hl hne

/-- The data bits are codewords whose bytes fit. -/
theorem exists_exec_unpack_of_codewords (hbits : dataBits s = paths.flatten) :
    ∃ e, exec .unpack s = .next (complete (publishUnpacked (s.withDatapath e))) ∧ Emitted s.root d e := by
  obtain ⟨e, hl, he⟩ := hc.exists_emitted hfit []
  rw [List.append_nil, ← hbits] at hl
  exact ⟨e, exec_unpack_of_done hr hl he.cur, he⟩

end

@[simp] theorem length_dataBits (s : State) : (dataBits s).length = dataLen s := by simp [dataBits]

/-- Every bit index and T fit in ERR_INFO: IN holds at most 2^24 bytes (10_state R28). -/
theorem dataLen_lt {s : State} (hp : s.params.legal = true) (hr : unpackReady s) : dataLen s < 2 ^ 32 := by
  obtain ⟨-, hlen, -⟩ := hr
  have hcap := Params.inCap_le_of_legal hp
  unfold dataLen
  omega

/-- OUT_LEN after codewords whose bytes fit is their number, which its 32 bits hold (10_state R28). -/
theorem Emitted.outLen_toNat {s : State} {ds : List Byte} {e : Datapath} (h : Emitted s.root ds e)
    (hp : s.params.legal = true) (hfit : ds.length ≤ s.params.outCap) :
    (complete (publishUnpacked (s.withDatapath e))).outLen.toNat = ds.length := by
  have hcap := Params.outCap_le_of_legal hp
  rw [complete_outLen, publishUnpacked_outLen, State.withDatapath_hidden, h.opos, BitVec.toNat_ofNat,
    Nat.mod_eq_of_lt (by omega)]

/-- Settles O37: the walk after the codewords ends at a node other than ROOT, and an error clears OUT_LEN. -/
theorem unpackReportsAPartialCode : Obligations.UnpackReportsAPartialCode := by
  intro s paths d p k hp hr hc hbits hfit hw hk hne
  obtain ⟨e, hexec⟩ := unpackRaises_decodePartial hr hc hfit hbits hw hk hne
  exact ⟨_, hexec, rfl, rfl, Nat.mod_eq_of_lt (dataLen_lt hp hr), rfl⟩

/-- Settles O38: a codeword finds OUT full after OUT_CAP bytes, and without one the walk ends at ROOT. -/
theorem unpackOverflowsAfterOutCapBytes : Obligations.UnpackOverflowsAfterOutCapBytes := by
  refine fun s paths d hp hr hc hfull => ⟨fun p rest b hbits hpb => ?_, fun hbits => ?_⟩
  · obtain ⟨e, hexec⟩ := unpackRaises_outOverflow hr hc hfull hbits hpb
    have hlen := congrArg List.length hbits
    have hlt := dataLen_lt hp hr
    rw [length_dataBits, List.length_append, List.length_append] at hlen
    exact ⟨_, hexec, rfl, rfl, Nat.mod_eq_of_lt (by omega)⟩
  · obtain ⟨e, hexec, he⟩ := exists_exec_unpack_of_codewords hr hc hfull.le hbits
    exact ⟨_, hexec, rfl, (he.outLen_toNat hp hfull.le).trans hfull⟩

end Sys2Proof.Machine
end

section
/-! SUPPORT. The round trip (44_unpacker R151): the tree BUILD leaves and the codewords in it, what BUILD and PACK leave
alone, and how UNPACK answers on OUT copied into IN. -/

namespace Sys2Proof.Machine

/-! ### BUILD of present bytes (41_tree_builder R105, R109) -/

theorem TreeOf.length_le_nodeCount {n : Nat} {s : State} (h : TreeOf n s) : n ≤ s.nodeCount.toNat := by
  rcases h with ⟨rfl, hcount, -⟩ | ⟨hn, -, hcount, -⟩ <;> omega

/-- BUILD of one or more bytes whose counts fit leaves their tree, the leaves in the order of S. -/
theorem exists_exec_build {s : State} (hne : presentSet s ≠ []) (htotal : presentTotal s ≤ 0xFFFFFFFF) :
    ∃ t, exec .build s = .next t ∧ t.status.treeValid = true ∧ TreeOf (presentSet s).length t
      ∧ ∀ k b, (presentSet s)[k]? = some b → (nodeN t k).kind = .leaf ∧ (nodeN t k).sym = b := by
  rcases Nat.lt_or_ge (presentSet s).length 2 with hlt | hn
  · have hpos := List.length_pos_of_ne_nil hne
    obtain ⟨b, hS⟩ := List.length_eq_one_iff.mp (show (presentSet s).length = 1 by omega)
    obtain ⟨t, hexec, h0, h1, h2, hroot, hcount, ht, -⟩ := buildOfOneByteAddsTheSentinel s b fun b' => by
      rw [← mem_presentSet, hS, List.mem_singleton]
    have hinternal : internalAt t 2 := by
      have hleaf : nodeWeight t.nodes 0#9 = (Table.read s.ft b).count.toNat := congrArg (fun m => m.weight.toNat) h0
      have hsentinel : nodeWeight t.nodes 1#9 = 0 := congrArg (fun m => m.weight.toNat) h1
      simp [internalAt, h2, hleaf, hsentinel]
    refine ⟨t, hexec, ht, .inl ⟨by rw [hS]; rfl, ?_⟩, fun k c hk => ?_⟩
    · exact ⟨by rw [hcount]; rfl, by rw [hroot]; rfl, by rw [h0], by rw [h1], hinternal, by rw [h2], by rw [h2]⟩
    · rw [hS, List.getElem?_singleton] at hk
      obtain ⟨rfl, rfl⟩ : k = 0 ∧ b = c := by simpa using hk
      exact ⟨by rw [h0], by rw [h0]⟩
  · obtain ⟨t, hexec, -, ht, -, -, hleaf, htree, -⟩ := buildMakesTheTree s hn htotal
    exact ⟨t, hexec, ht, htree, fun k b hk => ⟨by rw [hleaf k b hk], by rw [hleaf k b hk]⟩⟩

/-- A byte with a leaf below n has a code, and it is a codeword (42_code_mapper R121). -/
theorem TreeOf.isCodeword_of_leaf {n k : Nat} {s : State} (h : TreeOf n s) (hk : k < n)
    (hleaf : (nodeN s k).kind = .leaf) {codes : Table 8 CodeEntry} (hd : deriveCodes s.nodes s.root = some codes) :
    (Table.read codes (nodeN s k).sym).valid = true
      ∧ isCodeword s.nodes s.root (codeBits (Table.read codes (nodeN s k).sym)) (nodeN s k).sym := by
  have hvalid : (Table.read codes (nodeN s k).sym).valid = true :=
    (deriveCodes_valid_iff h.root_internal hd _).mpr <|
      (h.exists_isCodeword_iff _).mpr ⟨k, hk.trans_le h.length_le_nodeCount, hleaf, rfl⟩
  exact ⟨hvalid, deriveCodes_isCodeword h.root_internal hd hvalid⟩

/-- After BUILD of one or more bytes whose counts fit CODEGEN has a table to derive, with a codeword for each byte. -/
theorem exists_exec_build_codes {s : State} (hne : presentSet s ≠ []) (htotal : presentTotal s ≤ 0xFFFFFFFF) :
    ∃ t n codes, exec .build s = .next t ∧ t.status.treeValid = true ∧ TreeOf n t
      ∧ deriveCodes t.nodes t.root = some codes
      ∧ ∀ b ∈ presentSet s, (Table.read codes b).valid = true
        ∧ isCodeword t.nodes t.root (codeBits (Table.read codes b)) b := by
  obtain ⟨t, hexec, ht, hn, hleaf⟩ := exists_exec_build hne htotal
  obtain ⟨codes, hd⟩ := hn.exists_deriveCodes
  refine ⟨t, _, codes, hexec, ht, hn, hd, fun b hb => ?_⟩
  obtain ⟨k, hk⟩ := List.mem_iff_getElem?.mp hb
  obtain ⟨hkind, rfl⟩ := hleaf k b hk
  exact hn.isCodeword_of_leaf (List.getElem?_eq_some_iff.mp hk).1 hkind hd

/-! ### What BUILD and PACK leave alone (30_encoding R72) -/

theorem exec_build_frame {s t : State} (h : exec .build s = .next t) :
    t = { s with
      nodes := t.nodes, root := t.root, nodeCount := t.nodeCount, codes := t.codes
      status := t.status, errInfo := t.errInfo, seq := t.seq, hidden := t.hidden } := by
  match hp : presentSet s with
  | [] =>
    cases (exec_build_of_nil hp).symm.trans h
    rfl
  | [b] =>
    cases (exec_build_of_singleton hp).symm.trans h
    rfl
  | b :: b' :: bs =>
    have hn : 2 ≤ (presentSet s).length := by simp [hp]
    obtain ⟨_, hexec, -⟩ | ⟨_, _, _, _, hexec, -⟩ := exec_build_ending hn <;>
    · cases hexec.symm.trans h
      rfl

theorem exec_pack_frame {s t : State} (h : exec .pack s = .next t) :
    t = { s with
      outBuf := t.outBuf, outLen := t.outLen, padOut := t.padOut
      status := { t.status with treeValid := s.status.treeValid }
      errInfo := t.errInfo, seq := t.seq, hidden := t.hidden } := by
  have ht : t = finish .pack (packBody s) := (Host.Outcome.next.inj h).symm
  obtain ⟨-, hbody⟩ | ⟨-, ⟨e, n, d, hbody, -⟩ | ⟨d, d', -, -, hbody, -⟩⟩ := packBody_cases s <;>
  · rw [hbody] at ht
    subst ht
    rfl

/-! ### The tree kept or built again (41_tree_builder R112) -/

/-- t holds the tree of s: the same root over the same counted nodes. -/
structure SameTree (s t : State) : Prop where
  treeValid : t.status.treeValid = s.status.treeValid
  root      : t.root = s.root
  nodes     : ∀ i : NodeIdx, i.toNat < s.nodeCount.toNat → Table.read t.nodes i = Table.read s.nodes i

theorem SameTree.of_exec_build {s₁ s₂ t₁ t₂ : State} (hft : s₂.ft = s₁.ft) (h₁ : exec .build s₁ = .next t₁)
    (h₂ : exec .build s₂ = .next t₂) : SameTree t₁ t₂ := by
  obtain ⟨hroot, -, ht, -, -, hnodes⟩ :=
    buildDependsOnTheMappingAlone s₁ s₂ t₁ t₂ (by simp [hft]) (by simp [hft]) h₁ h₂
  exact ⟨ht.symm, hroot.symm, fun i hi => (hnodes i hi).symm⟩

theorem SameTree.of_exec_pack {s t : State} (h : exec .pack s = .next t) : SameTree s t := by
  rw [exec_pack_frame h]
  exact ⟨rfl, rfl, fun _ _ => rfl⟩

theorem TreeOf.walksTo_congr {n : Nat} {s t : State} (h : TreeOf n s) (hsame : SameTree s t) {i k : NodeIdx}
    {p : List Bool} (hi : i.toNat < s.nodeCount.toNat) (hw : walksTo s.nodes i p k) : walksTo t.nodes i p k := by
  induction p generalizing i with
  | nil => exact hw
  | cons bit p ih =>
    obtain ⟨hk, hw⟩ := hw
    have hchild : childOn t.nodes i bit = childOn s.nodes i bit := by rw [childOn, childOn, hsame.nodes i hi]
    have hlt : (childOn s.nodes i bit).toNat < s.nodeCount.toNat := h.walksTo_lt hi (p := [bit]) ⟨hk, rfl⟩
    exact ⟨by rwa [hsame.nodes i hi], by rw [hchild]; exact ih hlt hw⟩

theorem TreeOf.isCodeword_congr {n : Nat} {s t : State} (h : TreeOf n s) (hsame : SameTree s t) {p : List Bool}
    {b : Byte} (hp : isCodeword s.nodes s.root p b) : isCodeword t.nodes t.root p b := by
  obtain ⟨hne, k, hw, hleaf, hsym⟩ := hp
  have hroot : s.root.toNat < s.nodeCount.toNat := by
    have := h.root_succ
    omega
  have hk := hsame.nodes k (h.walksTo_lt hroot hw)
  exact ⟨hne, k, by rw [hsame.root]; exact h.walksTo_congr hsame hroot hw, by rwa [hk], by rwa [hk]⟩

/-! ### The packed output and its copy in IN (43_packer R133, 20_memory R53) -/

/-- The valid part of OUT, without its padding, is the bit-string `bits`. -/
structure OutBits (t : State) (bits : List Bool) : Prop where
  length : 8 * t.outLen.toNat - t.padOut.toNat = bits.length
  pad    : t.padOut.toNat ≤ 8 * t.outLen.toNat
  bit    : ∀ j < 8 * t.outLen.toNat, outBit t j = bits.getD j false

/-- A PACK of coded bytes that does not overflow leaves their codes in OUT. -/
theorem OutBits.of_exec_pack {s t : State} (hp : s.params.legal = true) (hr : s.inLen.toNat ≤ s.params.inCap)
    (hv : ∀ i < s.inLen.toNat, coded s i = true) (h : exec .pack s = .next t) (hne : t.status.errCode ≠ 10) :
    OutBits t (packedBits s) := by
  obtain ⟨-, -, -, herr⟩ := (packReportsTheFirstError s).2 hr
  obtain ⟨t', h', hover, hcode⟩ := herr hv
  cases h'.symm.trans h
  have hfit : (codeBitCount s + 7) / 8 ≤ s.params.outCap :=
    Nat.not_lt.mp fun hlt => hne (hcode (hover.mpr hlt))
  obtain ⟨t', h', -, hlen, hpad, hbits, hcount, hout⟩ := packWritesTheCodesInOrder s hp hr hv hfit
  cases h'.symm.trans h
  exact ⟨hbits.trans hcount.symm, by omega, hout⟩

/-- IN of u is a copy of the valid part of OUT of t, with its length and padding. -/
structure CopiedFrom (t u : State) : Prop where
  params : u.params = t.params
  inLen  : u.inLen = t.outLen
  padIn  : u.padIn = t.padOut.zeroExtend 8
  inByte : ∀ k < t.outLen.toNat, inByte u k = outByte t k

theorem CopiedFrom.of_exec_build {t u w : State} (h : CopiedFrom t u) (hw : exec .build u = .next w) :
    CopiedFrom t w := by
  have hframe := exec_build_frame hw
  exact
    { params := (congrArg State.params hframe).trans h.params
      inLen := (congrArg State.inLen hframe).trans h.inLen
      padIn := (congrArg State.padIn hframe).trans h.padIn
      inByte := fun k hk => (congrArg (Machine.inByte · k) hframe).trans (h.inByte k hk) }

section
variable {t u : State} (h : CopiedFrom t u)
include h

theorem CopiedFrom.padIn_toNat : u.padIn.toNat = t.padOut.toNat := by
  rw [h.padIn, BitVec.toNat_setWidth, Nat.mod_eq_of_lt (by omega)]

theorem CopiedFrom.dataBits_eq {bits : List Bool} (hout : OutBits t bits) : dataBits u = bits := by
  have hlen : dataLen u = bits.length := by rw [dataLen, h.inLen, h.padIn_toNat, hout.length]
  refine List.ext_getElem (by rw [length_dataBits, hlen]) fun j hj hj' => ?_
  have hlt : j < 8 * t.outLen.toNat := by
    have := hout.length
    omega
  have hbit : inBit u j = outBit t j := by rw [inBit, outBit, h.inByte (j / 8) (by omega)]
  simp only [dataBits, List.getElem_map, List.getElem_range]
  rw [hbit, hout.bit j hlt, List.getD_eq_getElem _ _ hj']

theorem CopiedFrom.unpackReady {bits : List Bool} (hout : OutBits t bits) (ht : u.status.treeValid = true)
    (hcap : t.outLen.toNat ≤ t.params.inCap) : unpackReady u := by
  refine ⟨ht, ?_, ?_, ?_⟩
  · rwa [h.inLen, h.params]
  · rw [h.padIn_toNat]
    omega
  · rw [h.padIn_toNat, h.inLen]
    exact hout.pad

end

/-! ### UNPACK of codewords (44_unpacker R145, R148) -/

/-- UNPACK of codewords gives their bytes, unless they are more than OUT holds. -/
theorem exists_exec_unpack_of_areCodewords {s : State} {paths : List (List Bool)} {d : List Byte}
    (hp : s.params.legal = true) (hr : unpackReady s) (hc : areCodewords s paths d)
    (hbits : dataBits s = paths.flatten) :
    ∃ v, exec .unpack s = .next v ∧ (v.status.errCode ≠ 10 →
      v.status.err = false ∧ v.outLen.toNat = d.length ∧ ∀ k b, d[k]? = some b → outByte v k = b) := by
  by_cases hfit : d.length ≤ s.params.outCap
  · obtain ⟨e, hexec, he⟩ := exists_exec_unpack_of_codewords hr hc hfit hbits
    exact ⟨_, hexec, fun _ => ⟨rfl, he.outLen_toNat hp hfit, fun k b hk => congrArg (Option.getD · _) (he.out k b hk)⟩⟩
  · have hhead := List.forall₂_take s.params.outCap hc
    have htail := List.forall₂_drop s.params.outCap hc
    rw [List.drop_eq_getElem_cons (Nat.not_le.mp hfit)] at htail
    obtain ⟨p, rest, hpb, -, hdrop⟩ := List.forall₂_cons_right_iff.mp htail
    have hsplit : dataBits s = (paths.take s.params.outCap).flatten ++ p ++ rest.flatten := by
      rw [hbits, List.append_assoc, ← List.flatten_cons, ← hdrop, ← List.flatten_append, List.take_append_drop]
    have hfull : (d.take s.params.outCap).length = s.params.outCap := List.length_take_of_le (Nat.not_le.mp hfit).le
    obtain ⟨e, hexec⟩ := unpackRaises_outOverflow hr hhead hfull hsplit hpb
    exact ⟨_, hexec, fun hne => absurd rfl hne⟩

theorem areCodewords_codeBits {s : State} {codes : Table 8 CodeEntry} {bs : List Byte}
    (h : ∀ b ∈ bs, isCodeword s.nodes s.root (codeBits (Table.read codes b)) b) :
    areCodewords s (bs.map fun b => codeBits (Table.read codes b)) bs :=
  List.forall₂_map_left_iff.mpr (List.forall₂_same.mpr h)

/-- UNPACK of copied codes gives the bytes they stand for, in any tree where they are codewords. -/
theorem CopiedFrom.exec_unpack {t w : State} {codes : Table 8 CodeEntry} {bs : List Byte} (h : CopiedFrom t w)
    (hout : OutBits t (codesOf codes bs)) (hp : t.params.legal = true) (hcap : t.outLen.toNat ≤ t.params.inCap)
    (ht : w.status.treeValid = true) (hcode : ∀ b ∈ bs, isCodeword w.nodes w.root (codeBits (Table.read codes b)) b) :
    ∃ v, exec .unpack w = .next v ∧ (v.status.errCode ≠ 10 →
      v.status.err = false ∧ v.outLen.toNat = bs.length ∧ ∀ k b, bs[k]? = some b → outByte v k = b) :=
  exists_exec_unpack_of_areCodewords (h.params ▸ hp) (h.unpackReady hout ht hcap) (areCodewords_codeBits hcode)
    (h.dataBits_eq hout)

/-! ### The statement of 44_unpacker R151 -/

theorem inByte_mem_inputBytes {s : State} {i : Nat} (h : i < s.inLen.toNat) : inByte s i ∈ inputBytes s :=
  List.mem_map.mpr ⟨i, List.mem_range.mpr h, rfl⟩

theorem getElem?_inputBytes {s : State} {i : Nat} (h : i < s.inLen.toNat) : (inputBytes s)[i]? = some (inByte s i) := by
  rw [← length_inputBytes] at h
  rw [List.getElem?_eq_getElem h, getElem_inputBytes]

section
variable {s s₁ s₃ : State} {codes : Table 8 CodeEntry} (h₁ : exec .build s = .next s₁)
  (h₃ : exec .pack (complete (publishCodes codes s₁)) = .next s₃)
include h₁ h₃

/-- PACK after BUILD and CODEGEN packs the bytes that stood in IN before. -/
theorem OutBits.of_exec_build_pack (hp : s.params.legal = true) (hr : s.inLen.toNat ≤ s.params.inCap)
    (hv : ∀ b ∈ inputBytes s, (Table.read codes b).valid = true) (hne : s₃.status.errCode ≠ 10) :
    OutBits s₃ (codesOf codes (inputBytes s)) := by
  have hbuild := exec_build_frame h₁
  have hparams : s₁.params = s.params := by rw [hbuild]
  have hlen : s₁.inLen = s.inLen := by rw [hbuild]
  have hinput : inputBytes s₁ = inputBytes s := by
    rw [hbuild]
    rfl
  rw [← hparams] at hp
  rw [← hparams, ← hlen] at hr
  rw [← hinput] at hv ⊢
  exact .of_exec_pack (s := complete (publishCodes codes s₁)) hp hr (fun i hi => hv _ (inByte_mem_inputBytes hi)) h₃ hne

theorem exec_build_pack_frame : s₃.params = s.params ∧ s₃.ft = s.ft ∧ SameTree s₁ s₃ := by
  obtain ⟨hvalid, hroot, hnodes⟩ := SameTree.of_exec_pack h₃
  refine ⟨?_, ?_, hvalid, hroot, hnodes⟩
  · rw [exec_pack_frame h₃, exec_build_frame h₁]
    rfl
  · rw [exec_pack_frame h₃, exec_build_frame h₁]
    rfl

end

/-- Settles O42: every input byte has a codeword in the tree of BUILD and PACK writes these one after the other; a
second BUILD makes the same tree, so UNPACK finds the codewords again. -/
theorem packThenUnpackRoundTrip : Obligations.PackThenUnpackRoundTrip := by
  intro s hp hpos hr hft htotal
  have hS {b : Byte} : b ∈ presentSet s ↔ b ∈ inputBytes s := mem_presentSet.trans (hft b)
  have hne : presentSet s ≠ [] := List.ne_nil_of_mem (hS.mpr (inByte_mem_inputBytes hpos))
  obtain ⟨s₁, n, codes, h₁, ht, hn, hd, hcode⟩ := exists_exec_build_codes hne htotal
  obtain ⟨s₃, h₃⟩ : ∃ s₃, exec .pack (complete (publishCodes codes s₁)) = .next s₃ := ⟨_, rfl⟩
  refine ⟨s₁, _, s₃, h₁, exec_codegen_of_derived ht hd, h₃, fun hne₃ hcap m => ?_⟩
  intro u hu w hw
  obtain ⟨hparams, hft₃, htree₃⟩ := exec_build_pack_frame h₁ h₃
  have hout := OutBits.of_exec_build_pack h₁ h₃ hp hr (fun b hb => (hcode b (hS.mpr hb)).1) hne₃
  have hcopied : CopiedFrom s₃ u := ⟨rfl, rfl, rfl, hu⟩
  obtain ⟨hcopy, htree⟩ : CopiedFrom s₃ w ∧ SameTree s₁ w := by
    rcases hw with rfl | hw
    · exact ⟨hcopied, htree₃.treeValid, htree₃.root, htree₃.nodes⟩
    · exact ⟨hcopied.of_exec_build hw, .of_exec_build (s₂ := u) hft₃ h₁ hw⟩
  obtain ⟨v, hexec, hv⟩ := hcopy.exec_unpack hout (hparams ▸ hp) (hparams ▸ hcap) (htree.treeValid.trans ht)
    fun b hb => hn.isCodeword_congr htree (hcode b (hS.mpr hb)).2
  refine ⟨v, hexec, fun hne₄ => ?_⟩
  obtain ⟨herr, hvlen, hbytes⟩ := hv hne₄
  rw [length_inputBytes] at hvlen
  exact ⟨herr, BitVec.eq_of_toNat_eq hvlen, fun k hk => hbytes k _ (getElem?_inputBytes hk)⟩

end Sys2Proof.Machine
end

section
/-! SUPPORT. The endings of a command (60_exceptions R161 to R163): the fields complete() and raise write, and what an
error of PACK or UNPACK leaves for the host to see. -/

namespace Sys2Proof.Machine

/-! ### The two endings (60_exceptions R161, R162) -/

theorem clearsOutput_some_iff {i : Instr} : clearsOutput (some i) = true ↔ i = .pack ∨ i = .unpack := by
  cases i <;> simp [clearsOutput]

/-- Settles O7: both endings are record updates, and the commands that clear the output are PACK and UNPACK. -/
theorem completeAndRaiseRecord : Obligations.CompleteAndRaiseRecord := by
  refine ⟨fun s => rfl, fun i e info s => ?_⟩
  simp only [← clearsOutput_some_iff]
  rfl

/-- A command that reports an error ended in raise: complete() clears ERR. -/
theorem finish_eq_raiseError_of_err {i : Instr} {body : Halt State} (h : (finish i body).status.err = true) :
    ∃ e info, finish i body = raiseError (some i) e info body.state := by
  cases body with
  | done s => simp [Status.complete] at h
  | raised e info s => exact ⟨e, info, rfl⟩

/-! ### Errors of PACK and UNPACK (60_exceptions R163) -/

theorem packBody_state_params (s : State) : (packBody s).state.params = s.params := by
  obtain ⟨-, hbody⟩ | ⟨-, ⟨e, n, d, hbody, -⟩ | ⟨d, d', -, -, hbody, -⟩⟩ := packBody_cases s <;>
  · rw [hbody]
    rfl

theorem unpackBody_state_params (s : State) : (unpackBody s).state.params = s.params := by
  obtain ⟨e, n, hbody⟩ | ⟨e, n, d, hbody, -⟩ | ⟨d, -, -, hbody, -⟩ := unpackBody_cases s <;>
  · rw [hbody]
    rfl

/-- An error of PACK or UNPACK is raise from a state with the capacities of the one the command started in. -/
theorem exists_raiseError_of_output_err {i : Instr} {s t : State} (hi : i = .pack ∨ i = .unpack)
    (h : exec i s = .next t) (herr : t.status.err = true) :
    ∃ e info u, t = raiseError (some i) e info u ∧ u.params = s.params := by
  obtain ⟨body, rfl, hparams⟩ : ∃ body, t = finish i body ∧ body.state.params = s.params := by
    obtain rfl | rfl := hi
    · exact ⟨_, (Host.Outcome.next.inj h).symm, packBody_state_params s⟩
    · exact ⟨_, (Host.Outcome.next.inj h).symm, unpackBody_state_params s⟩
  obtain ⟨e, info, hraise⟩ := finish_eq_raiseError_of_err herr
  exact ⟨e, info, _, hraise, hparams⟩

/-- With OUT_LEN 0 no word of the OUT window shows a byte (20_memory R51). -/
theorem busRead_outWindow_of_outLen_eq_zero {s : State} {j : Nat} (hp : s.params.legal = true) (hs : s.seq = .idle)
    (hj : 4 * j < s.params.outCap) (hlen : s.outLen = 0) :
    busRead (BitVec.ofNat 32 (0x02000000 + 4 * j)) s = (0, s) := by
  obtain ⟨hstate, -, hzero⟩ := outWindowHidesBytesFromOutLen s j hp hs hj
  exact Prod.ext (hzero hlen) hstate

/-- Settles O33: raise of PACK or UNPACK clears OUT_LEN and PAD_OUT and goes to IDLE, where OUT_LEN 0 hides every byte. -/
theorem noPartialOutputIsVisible : Obligations.NoPartialOutputIsVisible := by
  intro i s t hi hp h herr
  obtain ⟨e, info, u, rfl, hparams⟩ := exists_raiseError_of_output_err hi h herr
  have hclears := clearsOutput_some_iff.mpr hi
  have hlen : (raiseError (some i) e info u).outLen = 0 := by rw [raiseError_outLen, if_pos hclears]
  refine ⟨hlen, by rw [raiseError_padOut, if_pos hclears], fun j hj => ?_⟩
  rw [← hparams] at hp hj
  exact busRead_outWindow_of_outLen_eq_zero hp rfl hj hlen

end Sys2Proof.Machine
end

section
/-! SUPPORT. The hazards of the bus and of a stale code (70 R190, R192, R193): what a write while BUSY does, what no write
changes, and the code table after BUILD. -/

namespace Sys2Proof.Machine

/-! ### BUILD without CODEGEN (41_tree_builder R102, 70 R193) -/

/-- The four ways BUILD ends: no tree, the tree of one byte, the tree of more, or a failed merge. -/
theorem exec_build_cases {s t : State} (h : exec .build s = .next t) :
    t = complete (invalidate s) ∨ (∃ b, t = complete (buildSingle b (invalidate s))) ∨ (∃ b, t = builtState s b)
    ∨ ∃ e info b, t = failedState s e info b := by
  match hp : presentSet s with
  | [] => exact .inl (Host.Outcome.next.inj (h.symm.trans (exec_build_of_nil hp)))
  | [b] => exact .inr (.inl ⟨b, Host.Outcome.next.inj (h.symm.trans (exec_build_of_singleton hp))⟩)
  | _ :: _ :: _ =>
    obtain ⟨b, hexec, -⟩ | ⟨b, -, -, q, hexec, -⟩ := exec_build_ending (s := s) (by simp [hp])
    · exact .inr (.inr (.inl ⟨b, Host.Outcome.next.inj (h.symm.trans hexec)⟩))
    · exact .inr (.inr (.inr ⟨_, _, _, Host.Outcome.next.inj (h.symm.trans hexec)⟩))

/-- However BUILD ends, its first step has cleared the codes and nothing after it writes them. -/
theorem exec_build_clears_codes {s t : State} (h : exec .build s = .next t) :
    t.status.codesValid = false ∧ t.codes = Table.fill 8 CodeEntry.clear := by
  obtain rfl | ⟨b, rfl⟩ | ⟨b, rfl⟩ | ⟨e, info, b, rfl⟩ := exec_build_cases h <;> exact ⟨rfl, rfl⟩

/-- Settles O19: after BUILD byte 0 has no code, and no bits stand before it, so PACK fails there first (R134). -/
theorem buildLeavesNoStaleCode : Obligations.BuildLeavesNoStaleCode := by
  intro s t h
  obtain ⟨hvalid, hcodes⟩ := exec_build_clears_codes h
  have hclear (b : Byte) : Table.read t.codes b = CodeEntry.clear := by rw [hcodes, Table.read_fill]
  refine ⟨hvalid, hclear, fun hpos hr => ?_⟩
  have huncoded : coded t 0 = false := by rw [coded, hclear]; rfl
  obtain ⟨d, hpack⟩ := packRaises_encoding hr hpos nofun huncoded (by simp [bitsBefore])
  exact ⟨_, hpack, rfl, rfl, rfl⟩

/-! ### Writes while BUSY (70 R190) -/

/-- A writable location other than STATUS stands at each aligned operand address (20_memory R46). -/
theorem StandsAt.exists_operand {p : Params} {addr : Word} (ha : addr.toNat % 4 = 0) (h : operandAddr p addr) :
    ∃ l, StandsAt p addr l ∧ l.readOnly = false ∧ l ≠ .status := by
  obtain hcmd | hinLen | hpadIn | ⟨hlo, hhi⟩ | ⟨hlo, hhi⟩ := h
  · exact ⟨.cmd, .register ha (by omega) (by rw [hcmd]; rfl), rfl, nofun⟩
  · exact ⟨.inLen, .register ha (by omega) (by rw [hinLen]; rfl), rfl, nofun⟩
  · exact ⟨.padIn, .register ha (by omega) (by rw [hpadIn]; rfl), rfl, nofun⟩
  · by_cases hcount : addr.toNat % 8 = 0
    · exact ⟨_, .ftCount (b := (addr.toNat - 0x800) / 8) (by omega) (by omega), rfl, nofun⟩
    · exact ⟨_, .ftPresent (b := (addr.toNat - 0x800) / 8) (by omega) (by omega), rfl, nofun⟩
  · exact ⟨_, .inWord (j := (addr.toNat - 0x1000000) / 4) (by omega) (by omega), rfl, nofun⟩

/-- A write to STATUS is accepted in every sequencer state (10_state R30). -/
theorem busWrite_status (data : Word) (s : State) :
    busWrite 0x00000004#32 data s = { s with status := s.status.writeOneToClear data } := rfl

theorem Status.writeOneToClear_eq_ite (data : Word) (st : Status) : st.writeOneToClear data =
    { st with
      wbusy := if data.getLsbD 5 then false else st.wbusy
      busErr := if data.getLsbD 6 then false else st.busErr } := by
  have hbit (x bit : Bool) : (x && !bit) = if bit then false else x := by cases bit <;> simp
  simp only [Status.writeOneToClear, hbit]

/-- Settles O45: a writable location stands at each operand address, where BusWrite while BUSY only sets WBUSY; STATUS
is tested before SEQ. -/
theorem busyWritesAreDropped : Obligations.BusyWritesAreDropped := by
  refine fun s addr data hs => ⟨fun ha h => ?_, ?_⟩
  · obtain ⟨l, hl, hrw, hne⟩ := StandsAt.exists_operand ha h
    exact hl.busWrite_busy hrw hne hs
  · rw [busWrite_status, Status.writeOneToClear_eq_ite]

/-! ### What no bus write changes (70 R192, 10_state R21, R24, R29) -/

/-- s with all that a bus write can reach taken from t: the operands, the command latch, SEQ, ERR_INFO, and STATUS but
TREE_VALID and CODES_VALID. -/
def State.withBusFieldsOf (s t : State) : State :=
  { s with
    ft := t.ft, inBuf := t.inBuf, inLen := t.inLen, padIn := t.padIn
    cmdl := t.cmdl, seq := t.seq, errInfo := t.errInfo
    status := { t.status with treeValid := s.status.treeValid, codesValid := s.status.codesValid } }

theorem storeAt_frame (l : Loc) (data : Word) (s : State) :
    storeAt l data s = s.withBusFieldsOf (storeAt l data s) := by
  cases l <;> rfl

theorem busWrite_frame (addr data : Word) (s : State) :
    busWrite addr data s = s.withBusFieldsOf (busWrite addr data s) := by
  obtain ⟨-, hwrite⟩ | ⟨l, -, -, ⟨-, hwrite⟩ | ⟨-, hwrite⟩ | ⟨-, -, -, hwrite⟩ | ⟨-, -, -, hwrite⟩⟩ :=
    busWrite_cases addr data s <;> rw [hwrite]
  iterate 4 · rfl
  exact storeAt_frame l data s

/-- Settles O54: none of these fields is one that a bus write reaches. -/
theorem busWritesLeaveTreeCodesAndOutput : Obligations.BusWritesLeaveTreeCodesAndOutput := by
  intro s addr data t
  rw [show t = s.withBusFieldsOf t from busWrite_frame addr data s]
  exact ⟨rfl, rfl, rfl, rfl, rfl, rfl, fun _ => rfl, rfl, rfl, rfl, rfl⟩

end Sys2Proof.Machine
end

section
/-! SUPPORT. Which nodes each merge of BUILD took, and which arena entries BUILD wrote (41_tree_builder R107, R108,
R111). -/

namespace Sys2Proof.Machine

theorem builtState_nodeCount_toNat {s : State} {b : Builder} (h : MergeInv (invalidate s) b) :
    (builtState s b).nodeCount.toNat = b.next :=
  Nat.mod_eq_of_lt (h.next_lt.trans (by decide))

/-- Settles O17: MergeInv says of every merge that it took a LeastPair, and the arena it speaks of is the one BUILD
leaves. -/
theorem buildMergesTheTwoLeastKeys : Obligations.BuildMergesTheTwoLeastKeys := by
  intro s t hn h herr n i hi hlt
  obtain ⟨b, hexec, hinv, hq⟩ | ⟨b, a, c, q, hexec, -⟩ := exec_build_ending hn <;> cases hexec.symm.trans h
  · have hnext : b.next = 2 * (presentSet s).length - 1 := hinv.next_eq hq
    obtain ⟨hkind, -, hleft, hright, hne, hleast, hsecond⟩ := hinv.merged i hi (by omega)
    exact ⟨hkind, hleft, hright, hne, hleast, hsecond⟩
  · cases herr

/-- Settles O20: a merge writes entry `next` alone, and NODE_COUNT is `next` at the end. -/
theorem buildWritesOnlyTheNodesItCounts : Obligations.BuildWritesOnlyTheNodesItCounts := by
  intro s t h i hi
  refine ⟨fun herr => ?_, nodeWord_of_nodeCount_le hi⟩
  match hp : presentSet s with
  | [] =>
    cases (exec_build_of_nil hp).symm.trans h
    rfl
  | [b] =>
    cases (exec_build_of_singleton hp).symm.trans h
    have hge : 3 ≤ i.toNat := hi
    rw [complete_nodes, read_buildSingle, if_neg (by bv_omega), if_neg (by bv_omega), if_neg (by bv_omega)]
    rfl
  | _ :: _ :: _ =>
    obtain ⟨b, hexec, hinv, -⟩ | ⟨b, a, c, q, hexec, -⟩ := exec_build_ending (s := s) (by simp [hp]) <;>
      cases hexec.symm.trans h
    · rw [builtState_nodeCount_toNat hinv] at hi
      exact hinv.untouched i hi
    · cases herr

end Sys2Proof.Machine
end

section
/-! SUPPORT. UNPACK of codewords that fit, and of codewords followed by a path to the sentinel (44_unpacker R143 to
R146). -/

namespace Sys2Proof.Machine

/-- Settles O35: the codewords emit their bytes from OUT[0] on (Emitted). -/
theorem unpackEmitsTheDecodedBytes : Obligations.UnpackEmitsTheDecodedBytes := by
  intro s paths d hp hr hc hbits hfit
  obtain ⟨e, hexec, he⟩ := exists_exec_unpack_of_codewords hr hc hfit hbits
  exact ⟨_, hexec, rfl, he.outLen_toNat hp hfit, rfl, fun k b hk => congrArg (Option.getD · _) (he.out k b hk)⟩

/-- The data bits after the codewords lead to the sentinel. -/
theorem unpackRaises_decodeSentinel {s : State} {paths : List (List Bool)} {d : List Byte} {p rest : List Bool}
    {k : NodeIdx} (hr : unpackReady s) (hc : areCodewords s paths d) (hfit : d.length ≤ s.params.outCap)
    (hbits : dataBits s = paths.flatten ++ p ++ rest) (hne : p ≠ []) (hw : walksTo s.nodes s.root p k)
    (hk : (Table.read s.nodes k).kind = .sentinel) :
    UnpackRaises s .decodeSentinel (paths.flatten.length + p.length - 1) := by
  obtain ⟨e, hl, he⟩ := hc.exists_emitted hfit (p ++ rest)
  rw [← he.cur] at hw
  obtain ⟨i, bit, hstep, hlast⟩ := exists_walkLoop_last (root := s.root) (cap := s.params.outCap)
    (k := paths.flatten.length) hne hw
  rw [walkLoop_cons_of_sentinel hstep hk] at hlast
  rw [← List.append_assoc, ← hbits, walkLoop_append, hlast, Halt.bind_raised] at hl
  exact .of_walkLoop hr hl

/-- Settles O36: the walk after the codewords raises at its last bit, and an error clears OUT_LEN. -/
theorem unpackStopsAtTheSentinel : Obligations.UnpackStopsAtTheSentinel := by
  intro s paths d p rest k hp hr hc hbits hfit hne hw hk
  obtain ⟨e, hexec⟩ := unpackRaises_decodeSentinel hr hc hfit hbits hne hw hk
  have hlen := congrArg List.length hbits
  have hlt := dataLen_lt hp hr
  rw [length_dataBits, List.length_append, List.length_append] at hlen
  exact ⟨_, hexec, rfl, rfl, Nat.mod_eq_of_lt (by omega), rfl⟩

end Sys2Proof.Machine
end

section
/-! SUPPORT. The sum of 2^-len over the valid codes (42_code_mapper R126): the traversal of CODEGEN adds for each
subtree what its depth leaves of the code space; and when CODEGEN faults. -/

namespace Sys2Proof.Machine

/-! ### The share of the code space (42_code_mapper R126) -/

/-- The part of the code space that an entry takes, 2^-len of the whole, which counts 2^255. -/
def CodeEntry.share (c : CodeEntry) : Nat := if c.valid then 2 ^ (255 - c.len.toNat) else 0

/-- The part of the code space that the valid entries of a table take. -/
def codeSpace (codes : Table 8 CodeEntry) : Nat := (allBytes.map fun b => (Table.read codes b).share).sum

@[simp] theorem CodeEntry.share_clear : CodeEntry.clear.share = 0 := rfl

theorem share_codeEntryOf {p : List Bool} (h : p.length ≤ 255) : (codeEntryOf p).share = 2 ^ (255 - p.length) := by
  rw [CodeEntry.share, codeEntryOf_len h]
  rfl

theorem sum_filter_valid_eq_codeSpace (codes : Table 8 CodeEntry) :
    ((allBytes.filter fun b => (Table.read codes b).valid).map fun b =>
      2 ^ (255 - (Table.read codes b).len.toNat)).sum = codeSpace codes := by
  unfold codeSpace
  induction allBytes with
  | nil => rfl
  | cons b bs ih =>
    cases hv : (Table.read codes b).valid <;> simp [hv, ih, CodeEntry.share]

theorem codeSpace_fill_clear : codeSpace (Table.fill 8 CodeEntry.clear) = 0 := by
  simp [codeSpace]

theorem allBytes_nodup : allBytes.Nodup :=
  allBytes_sorted.imp fun hlt => ne_of_apply_ne BitVec.toNat (Nat.ne_of_lt hlt)

/-- A code written over a clear entry adds its share. -/
theorem codeSpace_write {codes : Table 8 CodeEntry} {b : Byte} (hclear : Table.read codes b = CodeEntry.clear)
    (c : CodeEntry) : codeSpace (Table.write codes b c) = codeSpace codes + c.share := by
  have hperm := List.perm_cons_erase (mem_allBytes b)
  have hrest : (allBytes.erase b).map (fun j => (Table.read (Table.write codes b c) j).share) =
      (allBytes.erase b).map fun j => (Table.read codes j).share := by
    refine List.map_congr_left fun j hj => ?_
    rw [Table.read_write_other _ _ (Ne.symm ((allBytes_nodup.mem_erase_iff.mp hj).1))]
  simp only [codeSpace, (hperm.map _).sum_eq, List.map_cons, List.sum_cons, hrest, Table.read_write_same, hclear,
    CodeEntry.share_clear]
  omega

/-! ### The traversal (42_code_mapper R121) -/

/-- Every walk from i that ends at a leaf is the only one that ends at a leaf of that byte, and none ends at the
sentinel. -/
structure FullBelow (nodes : Table 9 Node) (i : NodeIdx) : Prop where
  unique     : ∀ {p q b}, leadsToLeaf nodes i p b → leadsToLeaf nodes i q b → p = q
  noSentinel : ∀ {p k}, walksTo nodes i p k → (Table.read nodes k).kind ≠ .sentinel

theorem FullBelow.child {nodes : Table 9 Node} {i : NodeIdx} (h : FullBelow nodes i)
    (hk : (Table.read nodes i).kind = .internal) (bit : Bool) : FullBelow nodes (childOn nodes i bit) where
  unique hp hq := List.tail_eq_of_cons_eq (h.unique (leadsToLeaf_cons.mpr ⟨hk, hp⟩) (leadsToLeaf_cons.mpr ⟨hk, hq⟩))
  noSentinel hw := h.noSentinel (walksTo_cons.mpr ⟨hk, hw⟩)

/-- A traversal that starts with the path p and clear entries for the bytes it reaches fills the code space below p. -/
theorem visit_codeSpace {nodes : Table 9 Node} {levels : Nat} {i : NodeIdx} {p : List Bool}
    {codes codes' : Table 8 CodeEntry} (hfull : FullBelow nodes i) (hlen : p.length + levels ≤ 256)
    (hclear : ∀ q b, leadsToLeaf nodes i q b → Table.read codes b = CodeEntry.clear)
    (h : visit nodes levels i p codes = some codes') : codeSpace codes' = codeSpace codes + 2 ^ (255 - p.length) := by
  induction levels generalizing i p codes codes' with
  | zero => cases h
  | succ levels ih =>
    cases hk : (Table.read nodes i).kind with
    | sentinel => exact absurd hk (hfull.noSentinel (p := []) rfl)
    | leaf =>
      cases (visit_leaf hk levels p codes).symm.trans h
      rw [codeSpace_write (hclear [] _ ((leadsToLeaf_of_leaf hk).mpr ⟨rfl, rfl⟩)), share_codeEntryOf (by omega)]
    | internal =>
      rw [visit_internal hk] at h
      obtain ⟨mid, hleft, hright⟩ := Option.bind_eq_some_iff.mp h
      have hlevels : levels ≠ 0 := by
        rintro rfl
        cases hleft
      have hmid (q : List Bool) (b : Byte) (hq : leadsToLeaf nodes (childOn nodes i true) q b) :
          Table.read mid b = CodeEntry.clear := by
        have hq' := leadsToLeaf_cons.mpr ⟨hk, hq⟩
        rcases visit_read hleft b with ⟨-, hr⟩ | ⟨q', -, hl, -⟩
        · rw [hr, hclear _ b hq']
        · cases hfull.unique (leadsToLeaf_cons (bit := false).mpr ⟨hk, hl⟩) hq'
      have hl := ih (hfull.child hk false) (by rw [List.length_append, List.length_singleton]; omega)
        (fun q b hq => hclear (false :: q) b (leadsToLeaf_cons.mpr ⟨hk, hq⟩)) hleft
      have hr := ih (hfull.child hk true) (by rw [List.length_append, List.length_singleton]; omega) hmid hright
      have hsplit : 255 - p.length = 255 - (p.length + 1) + 1 := by omega
      rw [hr, hl, List.length_append, List.length_append, List.length_singleton, List.length_singleton, hsplit,
        Nat.pow_succ]
      omega

/-! ### The tree of two or more bytes (10_state R40) -/

theorem TreeOf.childOn_lt {n : Nat} {s : State} (h : TreeOf n s) {i : NodeIdx} (hi : i.toNat < s.nodeCount.toNat)
    (hk : (Table.read s.nodes i).kind = .internal) (bit : Bool) : (childOn s.nodes i bit).toNat < i.toNat := by
  obtain ⟨-, hl, hr, -⟩ := h.internalAt_of_kind hi (by rwa [nodeN_toNat])
  rw [nodeN_toNat] at hl hr
  cases bit with
  | false => exact hl
  | true => exact hr

/-- The two children of a node differ. -/
theorem TreeOf.childOn_inj {n : Nat} {s : State} (h : TreeOf n s) {i : NodeIdx} (hi : i.toNat < s.nodeCount.toNat)
    (hk : (Table.read s.nodes i).kind = .internal) {bit bit' : Bool}
    (heq : childOn s.nodes i bit = childOn s.nodes i bit') : bit = bit' := by
  obtain ⟨-, -, -, hne, -⟩ := h.internalAt_of_kind hi (by rwa [nodeN_toNat])
  rw [nodeN_toNat] at hne
  match bit, bit' with
  | false, false | true, true => rfl
  | false, true => exact absurd heq hne
  | true, false => exact absurd heq.symm hne

/-- Every step of a walk goes down in the arena. -/
theorem TreeOf.toNat_add_length_le {n : Nat} {s : State} (h : TreeOf n s) {i k : NodeIdx} {p : List Bool}
    (hi : i.toNat < s.nodeCount.toNat) (hw : walksTo s.nodes i p k) : k.toNat + p.length ≤ i.toNat := by
  induction p generalizing i with
  | nil => exact (congrArg BitVec.toNat hw).ge
  | cons bit p ih =>
    obtain ⟨hk, hw⟩ := hw
    have hchild := h.childOn_lt hi hk bit
    have hrest := ih (hchild.trans hi) hw
    rw [List.length_cons]
    omega

theorem childOf_childOn {s : State} {i : NodeIdx} (hk : (Table.read s.nodes i).kind = .internal) (bit : Bool) :
    childOf s i.toNat (childOn s.nodes i bit).toNat := by
  rw [childOf, nodeN_toNat]
  cases bit with
  | false => exact ⟨hk, .inl rfl⟩
  | true => exact ⟨hk, .inr rfl⟩

section
variable {n : Nat} {s : State} (h : TreeOf n s) (hn : 2 ≤ n)
include h hn

theorem TreeOf.manyTree : ManyTree n s := by
  obtain ⟨rfl, -⟩ | ⟨-, -, hm⟩ := h
  · omega
  · exact hm

theorem TreeOf.parent_unique {i i' k : NodeIdx} (hi : i.toNat ≤ s.root.toNat) (hi' : i'.toNat ≤ s.root.toNat)
    (hk : k.toNat < s.root.toNat) (hc : childOf s i.toNat k.toNat) (hc' : childOf s i'.toNat k.toNat) : i = i' := by
  obtain ⟨-, hroot, -, -, -, hparent⟩ := h.manyTree hn
  obtain ⟨j, -, -, huniq⟩ := hparent k.toNat (by omega)
  have hindex {m : NodeIdx} (hm : m.toNat ≤ s.root.toNat) (hcm : childOf s m.toNat k.toNat) : m.toNat = n + j := by
    have hle := h.le_of_kind hcm.1
    have hj := huniq (m.toNat - n) (by omega) (by rwa [Nat.add_sub_cancel' hle])
    omega
  exact BitVec.eq_of_toNat_eq ((hindex hi hc).trans (hindex hi' hc').symm)

/-- One walk leads from ROOT to a node: its last step comes from the node's only parent. -/
theorem TreeOf.walk_unique {k : NodeIdx} {p q : List Bool} (hp : walksTo s.nodes s.root p k)
    (hq : walksTo s.nodes s.root q k) : p = q := by
  have hcount := h.root_succ
  have hdown {m : NodeIdx} {r : List Bool} (hw : walksTo s.nodes s.root r m) :=
    h.toNat_add_length_le (by omega) hw
  induction p using List.reverseRecOn generalizing k q with
  | nil =>
    cases hp
    exact (List.eq_nil_of_length_eq_zero (by have := hdown hq; omega)).symm
  | append_singleton p bit ih =>
    have hlt := hdown hp
    rw [List.length_append, List.length_singleton] at hlt
    obtain ⟨m, hpm, hm, rfl⟩ := walksTo_append.mp hp
    have hqne : q ≠ [] := by
      rintro rfl
      have := congrArg BitVec.toNat hq
      omega
    obtain ⟨q, bit', m', rfl, hqm, hm', hlast⟩ := exists_last_step hqne hq
    have hparent : m' = m := h.parent_unique hn (by have := hdown hqm; omega) (by have := hdown hpm; omega)
      (by omega) (hlast ▸ childOf_childOn hm' bit') (childOf_childOn hm bit)
    subst hparent
    rw [ih hpm hqm, h.childOn_inj (by have := hdown hqm; omega) hm hlast]

/-- The leaves stand below n. -/
theorem TreeOf.lt_of_leaf {i : Nat} (hi : i < s.nodeCount.toNat) (hk : (nodeN s i).kind = .leaf) : i < n := by
  obtain ⟨hcount, -, -, -, hinternal, -⟩ := h.manyTree hn
  by_contra hge
  obtain ⟨hkind, -⟩ := hinternal (i - n) (by omega)
  rw [Nat.add_sub_cancel' (Nat.not_lt.mp hge), hk] at hkind
  cases hkind

theorem TreeOf.sym_lt {i j : Nat} (hij : i < j) (hj : j < n) : (nodeN s i).sym.toNat < (nodeN s j).sym.toNat := by
  obtain ⟨-, -, -, hasc, -⟩ := h.manyTree hn
  induction j, hij using Nat.le_induction with
  | base => exact hasc i (by omega)
  | succ j _ ih => exact (ih (by omega)).trans (hasc j (by omega))

/-- Each byte has at most one leaf. -/
theorem TreeOf.leaf_unique {i j : NodeIdx} (hi : i.toNat < s.nodeCount.toNat) (hj : j.toNat < s.nodeCount.toNat)
    (hki : (Table.read s.nodes i).kind = .leaf) (hkj : (Table.read s.nodes j).kind = .leaf)
    (hsym : (Table.read s.nodes i).sym = (Table.read s.nodes j).sym) : i = j := by
  rw [← nodeN_toNat] at hki hkj hsym
  rw [← nodeN_toNat s j] at hsym
  rcases Nat.lt_trichotomy i.toNat j.toNat with hlt | heq | hlt
  · exact absurd (congrArg BitVec.toNat hsym) (h.sym_lt hn hlt (h.lt_of_leaf hn hj hkj)).ne
  · exact BitVec.eq_of_toNat_eq heq
  · exact absurd (congrArg BitVec.toNat hsym) (h.sym_lt hn hlt (h.lt_of_leaf hn hi hki)).ne'

theorem TreeOf.fullBelow_root : FullBelow s.nodes s.root := by
  have hcount := h.root_succ
  have hlt {k : NodeIdx} {p : List Bool} (hw : walksTo s.nodes s.root p k) := h.walksTo_lt (by omega) hw
  refine ⟨?_, fun {p k} hw hk => ?_⟩
  · rintro p q b ⟨k, hp, hleaf, hsym⟩ ⟨k', hq, hleaf', hsym'⟩
    obtain rfl := h.leaf_unique hn (hlt hp) (hlt hq) hleaf hleaf' (hsym.trans hsym'.symm)
    exact h.walk_unique hn hp hq
  · obtain ⟨hc, -, hleaf, -, hinternal, -⟩ := h.manyTree hn
    have hk' : (nodeN s k.toNat).kind = .sentinel := by rwa [nodeN_toNat]
    rcases Nat.lt_or_ge k.toNat n with hkn | hkn
    · cases (hleaf _ hkn).symm.trans hk'
    · obtain ⟨hkind, -⟩ := hinternal (k.toNat - n) (by have := hlt hw; omega)
      rw [Nat.add_sub_cancel' hkn, hk'] at hkind
      cases hkind

end

/-! ### The statement of 42_code_mapper R126 -/

theorem TreeOf.codeSpace_eq {n : Nat} {s : State} (h : TreeOf n s) (hn : 2 ≤ n) {codes : Table 8 CodeEntry}
    (hd : deriveCodes s.nodes s.root = some codes) : codeSpace codes = 2 ^ 255 := by
  have hv : visit s.nodes 256 s.root [] (Table.fill 8 CodeEntry.clear) = some codes := by
    simpa only [deriveCodes, h.root_internal] using hd
  rw [visit_codeSpace (h.fullBelow_root hn) (by simp) (fun _ b _ => Table.read_fill _ b) hv, codeSpace_fill_clear,
    Nat.zero_add, List.length_nil, Nat.sub_zero]

/-- The one code of the tree with the sentinel is `0`. -/
theorem SingleTree.codes_eq {s : State} (h : SingleTree s) (hroot : (Table.read s.nodes s.root).kind = .internal)
    {codes : Table 8 CodeEntry} (hd : deriveCodes s.nodes s.root = some codes) :
    codes = Table.write (Table.fill 8 CodeEntry.clear) (nodeN s 0).sym (codeEntryOf [false]) := by
  refine Table.ext_read fun b => ?_
  rw [Table.read_write, Table.read_fill]
  rcases deriveCodes_read hroot hd b with ⟨noCode, hr⟩ | ⟨p, -, hp, hr⟩
  · rw [hr, if_neg fun hb => noCode [false] (h.isCodeword_iff.mpr ⟨rfl, hb⟩)]
  · obtain ⟨rfl, hsym⟩ := h.isCodeword_iff.mp hp
    rw [hr, if_pos hsym]

/-- Settles O28: with two or more bytes the traversal fills the whole code space (visit_codeSpace), with one byte the
code `0` fills half of it. -/
theorem validCodesAreComplete : Obligations.ValidCodesAreComplete := by
  intro s n hinv hvalid hn
  obtain ⟨-, hd⟩ := hinv.codes.1 hvalid
  rw [sum_filter_valid_eq_codeSpace]
  have hroot := hn.root_internal
  obtain ⟨rfl, hsingle⟩ | ⟨htwo, -⟩ := id hn
  · rw [hsingle.codes_eq hroot hd, codeSpace_write (Table.read_fill _ _), codeSpace_fill_clear,
      share_codeEntryOf (by decide), if_pos rfl, Nat.zero_add]
    rfl
  · rw [hn.codeSpace_eq htwo hd, if_neg (by omega)]

/-! ### When CODEGEN faults (42_code_mapper R121, R122) -/

/-- The traversal of any arena gives up exactly when it has a path of 256 edges: a root that is a leaf has none. -/
theorem deriveCodes_eq_none_iff_walk {nodes : Table 9 Node} {root : NodeIdx} :
    deriveCodes nodes root = none ↔ ∃ p k, p.length = 256 ∧ walksTo nodes root p k := by
  cases hk : (Table.read nodes root).kind with
  | internal => exact deriveCodes_eq_none_iff hk
  | sentinel => simpa only [deriveCodes, hk] using visit_eq_none_iff
  | leaf => exact iff_of_false (by simp [deriveCodes_of_leaf hk]) (not_exists_walksTo_succ (by simp [hk]))

theorem exec_codegen_eq_fault_iff {s : State} {f : Fault} : exec .codegen s = .fault f ↔
    f = .arenaNotATree ∧ s.status.treeValid = true ∧ deriveCodes s.nodes s.root = none := by
  rw [exec]
  obtain ⟨ht, h⟩ | ⟨ht, codes, hd, h⟩ | ⟨ht, hd, h⟩ := execCodegen_cases s
  · simp [h, ht]
  · simp [h, ht, hd]
  · simp [h, ht, hd]

/-- Settles O26: every other meaning is a next state by definition, and CODEGEN has none exactly when no table is
derived. -/
theorem onlyCodegenOffATreeStops : Obligations.OnlyCodegenOffATreeStops := by
  refine ⟨fun i s f => ?_, fun i s r h => ?_⟩
  · cases i with
    | codegen => simp only [exec_codegen_eq_fault_iff, deriveCodes_eq_none_iff_walk, true_and]
    | _ => exact iff_of_false nofun (by simp)
  · cases i with
    | codegen =>
      rw [exec] at h
      obtain ⟨-, hc⟩ | ⟨-, _, -, hc⟩ | ⟨-, -, hc⟩ := execCodegen_cases s <;> cases hc.symm.trans h
    | _ => cases h

end Sys2Proof.Machine
end

section
/-! SUPPORT. The endings of PACK and UNPACK, said once: which errors they raise, where, and how far OUT was written by
then; from these the errors and the frame of every command (40_control R91, 30_encoding R72, 43_packer R138,
44_unpacker R152). -/

namespace Sys2Proof.Machine

/-! ### The endings of PACK (43_packer R131, R134, R135) -/

/-- The states PACK can end in, from the state s. -/
inductive PackEnding (s : State) : State → Prop where
  | inLenRange (h : s.params.inCap < s.inLen.toNat) :
      PackEnding s (raiseError (some .pack) .inLenRange s.inLen.toNat s)
  | encoding {n : Nat} {d : Datapath} (hn : n < s.inLen.toNat) (hopos : d.hidden.opos = bitsBefore s n / 8)
      (h : Stores s.params.outCap (packStart s) d) :
      PackEnding s (raiseError (some .pack) .encoding n (s.withDatapath d))
  | outOverflow {n : Nat} {d : Datapath} (h : Stores s.params.outCap (packStart s) d) :
      PackEnding s (raiseError (some .pack) .outOverflow n (s.withDatapath d))
  | packed {pad : Nat} {d : Datapath} (h : Stores s.params.outCap (packStart s) d) :
      PackEnding s (complete (publishPacked pad (s.withDatapath d)))

/-- The input loop raises at a byte without a code, the bytes before it packed, or for want of room. -/
theorem Packed.packLoop_raised {codes : Table 8 CodeEntry} {cap i n : Nat} {bits : List Bool} {bs : List Byte}
    {d d' : Datapath} {e : ErrKind} (h : Packed cap bits d) (hl : Machine.packLoop codes cap i bs d = .raised e n d') :
    (e = .encoding ∧ ∃ j < bs.length, n = i + j ∧ Packed cap (bits ++ codesOf codes (bs.take j)) d')
    ∨ e = .outOverflow := by
  induction bs generalizing i bits d with
  | nil => cases hl
  | cons b bs ih =>
    cases hv : (Table.read codes b).valid with
    | false =>
      cases (packLoop_cons_of_invalid hv).symm.trans hl
      exact .inl ⟨rfl, 0, Nat.succ_pos _, rfl, by simpa using h⟩
    | true =>
      rw [packLoop_cons_of_valid hv] at hl
      rcases h.drainAcc_appendCode (i := i) (Table.read codes b) rfl with ⟨d₁, hdrain, hd₁⟩ | ⟨-, d₁, hdrain⟩ <;>
        rw [hdrain] at hl
      · rcases ih hd₁ hl with ⟨rfl, j, hj, rfl, hp⟩ | he
        · refine .inl ⟨rfl, j + 1, Nat.succ_lt_succ hj, by omega, ?_⟩
          rwa [List.take_succ_cons, codesOf_cons, ← List.append_assoc]
        · exact .inr he
      · cases hl
        exact .inr rfl

theorem packFlush_raised {cap inLen n : Nat} {d d' : Datapath} {e : ErrKind}
    (h : packFlush cap inLen d = .raised e n d') : e = .outOverflow := by
  unfold packFlush emitByte at h
  split at h
  · cases h
  · split at h <;> cases h
    rfl

theorem exec_pack_ending {s t : State} (h : exec .pack s = .next t) : PackEnding s t := by
  rcases Nat.lt_or_ge s.params.inCap s.inLen.toNat with hrange | hr
  · cases (exec_pack_of_inCap_lt hrange).symm.trans h
    exact .inLenRange hrange
  have hloop := packLoop_stores s.codes s.params.outCap 0 (inputBytes s) (packStart s)
  cases hl : packLoop s.codes s.params.outCap 0 (inputBytes s) (packStart s) with
  | raised e n d =>
    rw [hl] at hloop
    have hbody : packBody s = .raised e n (s.withDatapath d) := by simp [packBody, Nat.not_lt.mpr hr, hl]
    rw [exec, execPack, hbody] at h
    rcases (Packed.start s).packLoop_raised hl with ⟨rfl, j, hj, rfl, hp⟩ | rfl <;> cases h
    · have hlen := hp.length_eq
      have hshort := hp.short
      rw [List.nil_append, ← bitsBefore_eq_length] at hlen
      rw [length_inputBytes] at hj
      rw [Nat.zero_add]
      exact .encoding hj (by omega) hloop
    · exact .outOverflow hloop
  | done d =>
    rw [hl] at hloop
    have hflush := packFlush_stores s.params.outCap s.inLen.toNat d
    cases hf : packFlush s.params.outCap s.inLen.toNat d with
    | raised e n d' =>
      rw [hf] at hflush
      have hbody : packBody s = .raised e n (s.withDatapath d') := by simp [packBody, Nat.not_lt.mpr hr, hl, hf]
      obtain rfl := packFlush_raised hf
      rw [exec, execPack, hbody] at h
      cases h
      exact .outOverflow (hloop.trans hflush)
    | done d' =>
      rw [hf] at hflush
      cases (exec_pack_of_done hr hl hf).symm.trans h
      exact .packed (hloop.trans hflush)

/-! ### The endings of UNPACK (44_unpacker R142, R145 to R148) -/

/-- The states UNPACK can end in, from the state s. -/
inductive UnpackEnding (s : State) : State → Prop where
  | precheck {e : ErrKind} {n : Nat} (he : e.code.toNat ∈ [2, 7, 8, 9]) :
      UnpackEnding s (raiseError (some .unpack) e n s)
  | noCode {e : ErrKind} {n : Nat} {d : Datapath} (he : e = .decodePartial ∨ e = .decodeSentinel)
      (hr : unpackReady s) (hn : n ≤ dataLen s) (hopos : d.hidden.opos ≤ n)
      (h : Stores s.params.outCap (unpackStart s) d) :
      UnpackEnding s (raiseError (some .unpack) e n (s.withDatapath d))
  | outOverflow {n : Nat} {d : Datapath} (h : Stores s.params.outCap (unpackStart s) d) :
      UnpackEnding s (raiseError (some .unpack) .outOverflow n (s.withDatapath d))
  | unpacked {d : Datapath} (h : Stores s.params.outCap (unpackStart s) d) :
      UnpackEnding s (complete (publishUnpacked (s.withDatapath d)))

/-- How a walk over `len` bits from bit k on ends: a bit emits at most one byte. -/
inductive WalkEnding (k len opos : Nat) : Halt Datapath → Prop where
  | done {d : Datapath} (h : d.hidden.opos ≤ opos + len) : WalkEnding k len opos (.done d)
  | sentinel {n : Nat} {d : Datapath} (hn : k ≤ n) (hlen : n < k + len) (h : d.hidden.opos + k ≤ opos + n) :
      WalkEnding k len opos (.raised .decodeSentinel n d)
  | outOverflow {n : Nat} {d : Datapath} : WalkEnding k len opos (.raised .outOverflow n d)

theorem WalkEnding.cons {k len opos opos' : Nat} {e : Halt Datapath} (h : WalkEnding (k + 1) len opos' e)
    (ho : opos' ≤ opos + 1) : WalkEnding k (len + 1) opos e := by
  cases h with
  | done h => exact .done (by omega)
  | sentinel hn hlen h => exact .sentinel (by omega) (by omega) (by omega)
  | outOverflow => exact .outOverflow

theorem walkLoop_ending (nodes : Table 9 Node) (root : NodeIdx) (cap k : Nat) (bits : List Bool) (d : Datapath) :
    WalkEnding k bits.length d.hidden.opos (walkLoop nodes root cap k bits d) := by
  induction bits generalizing k d with
  | nil => exact .done le_rfl
  | cons bit bits ih =>
    generalize hj : childOn nodes d.hidden.cur bit = j
    cases hk : (Table.read nodes j).kind with
    | internal =>
      rw [walkLoop_cons_of_internal hj hk]
      exact (ih (k + 1) (d.at j)).cons (Nat.le_succ _)
    | sentinel =>
      rw [walkLoop_cons_of_sentinel hj hk]
      exact .sentinel le_rfl (by simp) le_rfl
    | leaf =>
      rw [walkLoop_cons_of_leaf hj hk]
      obtain ⟨-, hemit⟩ | ⟨-, hemit⟩ := emitByte_cases cap k (Table.read nodes j).sym (d.at j) <;> rw [hemit]
      · exact .outOverflow
      · exact (ih (k + 1) _).cons le_rfl

theorem exec_unpack_ending {s t : State} (h : exec .unpack s = .next t) : UnpackEnding s t := by
  cases ht : s.status.treeValid with
  | false =>
    cases (exec_unpack_of_no_tree ht).symm.trans h
    exact .precheck (by decide)
  | true =>
    rcases Nat.lt_or_ge s.params.inCap s.inLen.toNat with hrange | hrange
    · cases (exec_unpack_of_inCap_lt ht hrange).symm.trans h
      exact .precheck (by decide)
    rcases Nat.lt_or_ge 7 s.padIn.toNat with hpad | hpad
    · cases (exec_unpack_of_seven_lt ht hrange hpad).symm.trans h
      exact .precheck (by decide)
    rcases Nat.lt_or_ge (8 * s.inLen.toNat) s.padIn.toNat with hdata | hdata
    · cases (exec_unpack_of_padding_exceeds ht hrange hpad hdata).symm.trans h
      exact .precheck (by decide)
    have hr : unpackReady s := ⟨ht, hrange, hpad, hdata⟩
    have hstores := walkLoop_stores s.nodes s.root s.params.outCap 0 (dataBits s) (unpackStart s)
    have hending := walkLoop_ending s.nodes s.root s.params.outCap 0 (dataBits s) (unpackStart s)
    rw [exec, execUnpack, unpackBody_of_ready hr, unpackWalk] at h
    generalize walkLoop s.nodes s.root s.params.outCap 0 (dataBits s) (unpackStart s) = w at h hstores hending
    rw [length_dataBits] at hending
    cases hending with
    | outOverflow =>
      cases h
      exact .outOverflow hstores
    | sentinel hn hlen hopos =>
      cases h
      exact .noCode (.inr rfl) hr (by omega) (by simpa [unpackStart] using hopos) hstores
    | @done d hopos =>
      by_cases hcur : d.hidden.cur = s.root
      · simp only [hcur, ne_eq, not_true_eq_false, if_false, finish_done, Host.Outcome.next.injEq] at h
        exact h ▸ .unpacked hstores
      · simp only [ne_eq, hcur, not_false_eq_true, if_true, finish_raised, Host.Outcome.next.injEq] at h
        exact h ▸ .noCode (.inl rfl) hr le_rfl (by simpa [unpackStart] using hopos) hstores

/-! ### The bytes of OUT that PACK and UNPACK leave alone (43_packer R138, 44_unpacker R152) -/

/-- From the last OPOS on OUT is as before the command. -/
theorem Stores.outByte_eq {cap k : Nat} {s u : State} {d₀ d : Datapath} (h : Stores cap d₀ d)
    (hout : d₀.out = s.outBuf) (hu : u.outBuf = d.out) (hepoch : u.epoch = s.epoch) (hk : d.hidden.opos ≤ k) :
    outByte u k = outByte s k := by
  rw [outByte, outByte, hu, h.frame k (.inr hk), hout, hepoch]

/-- OPOS is at most OUT_CAP, so OUT_LEN holds it whole. -/
theorem Stores.outLen_toNat {p : Params} {d₀ d : Datapath} (h : Stores p.outCap d₀ d) (hstart : d₀.hidden.opos = 0)
    (hp : p.legal = true) : (BitVec.ofNat 32 d.hidden.opos).toNat = d.hidden.opos := by
  have hbound := h.bound (by omega)
  have hcap := Params.outCap_le_of_legal hp
  exact Nat.mod_eq_of_lt (by omega)

/-- Settles O31: OUT is written below OPOS alone, which is OUT_LEN on success, the full bytes before i on ENCODING, and
never above OUT_CAP. -/
theorem packStoresOnlyItsOutput : Obligations.PackStoresOnlyItsOutput := by
  intro s t hp h
  cases exec_pack_ending h with
  | inLenRange => simp [clearsOutput, Status.fail, ErrKind.code, outByte]
  | @encoding n d hn hopos hst =>
    have hinfo : (BitVec.ofNat 32 n).toNat = n := Nat.mod_eq_of_lt (hn.trans s.inLen.isLt)
    refine ⟨nofun, fun _ => ⟨rfl, rfl⟩, fun _ k hk => ?_, nofun, nofun⟩
    rw [raiseError_errInfo, hinfo, ← hopos] at hk
    exact hst.outByte_eq rfl rfl rfl hk
  | outOverflow hst =>
    refine ⟨nofun, fun _ => ⟨rfl, rfl⟩, nofun, fun _ k hk => ?_, nofun⟩
    exact hst.outByte_eq rfl rfl rfl ((hst.bound (Nat.zero_le _)).trans hk)
  | packed hst =>
    refine ⟨fun _ k hk => ?_, nofun, nofun, nofun, nofun⟩
    exact hst.outByte_eq rfl rfl rfl ((hst.outLen_toNat rfl hp).ge.trans hk)

/-- Settles O41: OUT is written below OPOS alone, which is OUT_LEN on success, at most the number of bits walked when
they hold no code, and never above OUT_CAP. -/
theorem unpackStoresOnlyItsOutput : Obligations.UnpackStoresOnlyItsOutput := by
  intro s t hp h
  cases exec_unpack_ending h with
  | @precheck e n he =>
    have hcode (c : BitVec 8) (hc : c.toNat ∉ [2, 7, 8, 9]) : e.code ≠ c := fun heq => hc (heq ▸ he)
    exact ⟨nofun, fun _ => ⟨rfl, rfl⟩, fun h => absurd h (not_or_intro (hcode 5 (by decide)) (hcode 6 (by decide))),
      fun h => absurd h (hcode 10 (by decide)), fun _ _ => rfl⟩
  | @noCode e n d he hr hn hopos hst =>
    have hinfo : (BitVec.ofNat 32 n).toNat = n := Nat.mod_eq_of_lt (hn.trans_lt (dataLen_lt hp hr))
    refine ⟨nofun, fun _ => ⟨rfl, rfl⟩, fun _ k hk => ?_, fun h => ?_, fun h => ?_⟩
    · rw [raiseError_errInfo, hinfo] at hk
      exact hst.outByte_eq rfl rfl rfl (hopos.trans hk)
    · obtain rfl | rfl := he <;> cases h
    · obtain rfl | rfl := he <;> simp [Status.fail, ErrKind.code] at h
  | outOverflow hst =>
    refine ⟨nofun, fun _ => ⟨rfl, rfl⟩, nofun, fun _ k hk => ?_, nofun⟩
    exact hst.outByte_eq rfl rfl rfl ((hst.bound (Nat.zero_le _)).trans hk)
  | unpacked hst =>
    refine ⟨fun _ k hk => ?_, nofun, nofun, nofun, nofun⟩
    exact hst.outByte_eq rfl rfl rfl ((hst.outLen_toNat rfl hp).ge.trans hk)

/-! ### The report of every command (60_exceptions R161, R162, R165) -/

/-- However its pseudocode ends, a command leaves the block IDLE and DONE with empty hidden registers, and reports an
error exactly when it raised one. -/
theorem exec_report {i : Instr} {s t : State} (h : exec i s = .next t) :
    t.seq = .idle ∧ t.status.busy = false ∧ t.status.done = true ∧ t.hidden = Hidden.empty
    ∧ (t.status.err = true ↔ t.status.errCode ≠ 0) ∧ (t.status.err = false → t.errInfo = 0) := by
  obtain ⟨body, rfl⟩ := exec_eq_finish h
  cases body with
  | done s => exact ⟨rfl, rfl, rfl, rfl, iff_of_false nofun (not_not_intro rfl), fun _ => rfl⟩
  | raised e n s => exact ⟨rfl, rfl, rfl, rfl, iff_of_true rfl e.code_range.1, nofun⟩

theorem exec_codegen_err {s t : State} (h : exec .codegen s = .next t) (herr : t.status.err = true) :
    t.status.errCode = 2 := by
  rw [exec] at h
  obtain ⟨-, hc⟩ | ⟨-, codes, -, hc⟩ | ⟨-, -, hc⟩ := execCodegen_cases s <;> cases hc.symm.trans h
  · rfl
  · cases herr

theorem exec_build_err {s t : State} (h : exec .build s = .next t) (herr : t.status.err = true) :
    t.status.errCode = 3 := by
  obtain ⟨t', h', -, hreport⟩ := buildOverflowsExactlyAboveTheTotal s
  cases h'.symm.trans h
  exact (hreport herr).1

theorem exec_pack_err {s t : State} (h : exec .pack s = .next t) (herr : t.status.err = true) :
    t.status.errCode.toNat ∈ [4, 9, 10] := by
  cases exec_pack_ending h with
  | inLenRange | encoding | outOverflow => simp [Status.fail, ErrKind.code]
  | packed => cases herr

theorem exec_unpack_err {s t : State} (h : exec .unpack s = .next t) (herr : t.status.err = true) :
    t.status.errCode.toNat ∈ [2, 5, 6, 7, 8, 9, 10] := by
  cases exec_unpack_ending h with
  | precheck he => exact List.Sublist.subset (by decide) he
  | noCode he => obtain rfl | rfl := he <;> simp [Status.fail, ErrKind.code]
  | outOverflow => simp [Status.fail, ErrKind.code]
  | unpacked => cases herr

/-- Settles O8: every meaning that answers is finish of its pseudocode, and each command raises the errors of its own
endings. -/
theorem everyCommandEndsIdleWithItsOwnErrors : Obligations.EveryCommandEndsIdleWithItsOwnErrors := by
  intro i s t h
  obtain ⟨hidle, hbusy, hdone, hhidden, herr, hinfo⟩ := exec_report h
  refine ⟨hidle, hbusy, hdone, hhidden, herr, hinfo, fun he => ?_⟩
  cases i with
  | nop | softReset | ftClear =>
    cases h
    cases he
  | build => exact .inl ⟨rfl, exec_build_err h he⟩
  | codegen => exact .inr (.inl ⟨rfl, exec_codegen_err h he⟩)
  | pack => exact .inr (.inr (.inl ⟨rfl, exec_pack_err h he⟩))
  | unpack => exact .inr (.inr (.inr ⟨rfl, exec_unpack_err h he⟩))

/-! ### The frame of every command (30_encoding R72) -/

/-- Settles O9: each ending of each command is an update of the fields it writes. -/
theorem commandsWriteOnlyTheirTargets : Obligations.CommandsWriteOnlyTheirTargets := by
  intro i s t h
  cases i with
  | nop =>
    cases h
    simp [inByte, outByte, Status.complete]
  | softReset =>
    cases h
    simp [inByte, outByte, complete_softResetBody, State.resetWith]
  | ftClear =>
    cases h
    simp [inByte, outByte, Status.complete]
  | build =>
    obtain rfl | ⟨b, rfl⟩ | ⟨b, rfl⟩ | ⟨e, info, b, rfl⟩ := exec_build_cases h
    all_goals simp [inByte, builtState, failedState, buildSingle, outByte, Status.complete, Status.fail, clearsOutput]
  | codegen =>
    rw [exec] at h
    obtain ⟨-, hc⟩ | ⟨-, codes, -, hc⟩ | ⟨-, -, hc⟩ := execCodegen_cases s <;> cases hc.symm.trans h
    all_goals simp [inByte, outByte, Status.complete, Status.fail, clearsOutput]
  | pack =>
    cases exec_pack_ending h
    all_goals simp [inByte, Status.complete, Status.fail]
  | unpack =>
    cases exec_unpack_ending h
    all_goals simp [inByte, Status.complete, Status.fail]

end Sys2Proof.Machine
end

section
/-! SUPPORT. Determinism of PACK (30_encoding R72, 95_test_vectors S2): on datapaths that differ only in what PACK does
not read, its loops write the same bytes and raise the same errors. -/

namespace Sys2Proof.Machine

/-! ### Like datapaths -/

/-- The two datapaths agree in ACC, OPOS and the bytes written so far. -/
structure Datapath.Alike (d₁ d₂ : Datapath) : Prop where
  acc  : d₁.hidden.acc = d₂.hidden.acc
  opos : d₁.hidden.opos = d₂.hidden.opos
  out  : ∀ k < d₁.hidden.opos, ∃ b, Memory.read d₁.out k = some b ∧ Memory.read d₂.out k = some b

/-- Both loops ran to their ends with like datapaths, or both raised the same error. -/
inductive PathsEndAlike : Halt Datapath → Halt Datapath → Prop where
  | done {d₁ d₂ : Datapath} (h : d₁.Alike d₂) : PathsEndAlike (.done d₁) (.done d₂)
  | raised (e : ErrKind) (info : Nat) (d₁ d₂ : Datapath) : PathsEndAlike (.raised e info d₁) (.raised e info d₂)

theorem PathsEndAlike.bind {h₁ h₂ : Halt Datapath} (h : PathsEndAlike h₁ h₂) {f : Datapath → Halt Datapath}
    (hf : ∀ d₁ d₂ : Datapath, d₁.Alike d₂ → PathsEndAlike (f d₁) (f d₂)) :
    PathsEndAlike (h₁.bind f) (h₂.bind f) := by
  cases h with
  | done h => exact hf _ _ h
  | raised e info d₁ d₂ => exact .raised e info d₁ d₂

/-- ACC may be replaced in both. -/
theorem Datapath.Alike.withAcc {d₁ d₂ : Datapath} (h : d₁.Alike d₂) {acc₁ acc₂ : List Bool} (hacc : acc₁ = acc₂) :
    Datapath.Alike { d₁ with hidden := { d₁.hidden with acc := acc₁ } }
      { d₂ with hidden := { d₂.hidden with acc := acc₂ } } :=
  ⟨hacc, h.opos, h.out⟩

section
variable {d₁ d₂ : Datapath} (h : d₁.Alike d₂)
include h

theorem Datapath.Alike.emitByte (cap info : Nat) (b : Byte) :
    PathsEndAlike (emitByte cap info b d₁) (emitByte cap info b d₂) := by
  unfold Machine.emitByte
  rw [← h.opos]
  split
  · exact .raised _ _ _ _
  · refine .done ⟨h.acc, rfl, fun k hk => ?_⟩
    simp only [Memory.read_write]
    split
    · exact ⟨b, rfl, rfl⟩
    · exact h.out k (Nat.lt_of_le_of_ne (Nat.le_of_lt_succ hk) (Ne.symm ‹_›))

theorem Datapath.Alike.drainAcc (cap i fuel : Nat) :
    PathsEndAlike (drainAcc cap i fuel d₁) (drainAcc cap i fuel d₂) := by
  induction fuel generalizing d₁ d₂ with
  | zero => exact .done h
  | succ fuel ih =>
    unfold Machine.drainAcc
    rw [← h.acc]
    split
    · exact (h.emitByte ..).bind fun e₁ e₂ he => ih (he.withAcc (congrArg (List.drop 8) he.acc))
    · exact .done h

theorem Datapath.Alike.packLoop (codes : Table 8 CodeEntry) (cap i : Nat) (bs : List Byte) :
    PathsEndAlike (packLoop codes cap i bs d₁) (packLoop codes cap i bs d₂) := by
  induction bs generalizing i d₁ d₂ with
  | nil => exact .done h
  | cons b bs ih =>
    cases hv : (Table.read codes b).valid with
    | false =>
      rw [packLoop_cons_of_invalid hv, packLoop_cons_of_invalid hv]
      exact .raised _ _ _ _
    | true =>
      have happend : (appendCode (Table.read codes b) d₁).Alike (appendCode (Table.read codes b) d₂) :=
        h.withAcc (congrArg (· ++ codeBits (Table.read codes b)) h.acc)
      rw [packLoop_cons_of_valid hv, packLoop_cons_of_valid hv, ← happend.acc]
      exact (happend.drainAcc ..).bind fun _ _ he => ih he (i + 1)

theorem Datapath.Alike.packFlush (cap inLen : Nat) :
    PathsEndAlike (packFlush cap inLen d₁) (packFlush cap inLen d₂) := by
  unfold Machine.packFlush
  rw [← h.acc]
  split
  · exact .done h
  · exact h.emitByte ..

end

/-! ### Like operands (30_encoding R72) -/

/-- The two states agree in what PACK reads. -/
structure SameOperands (s₁ s₂ : State) : Prop where
  params : s₁.params = s₂.params
  codes  : s₁.codes = s₂.codes
  inLen  : s₁.inLen = s₂.inLen
  inByte : ∀ k < s₁.inLen.toNat, inByte s₁ k = inByte s₂ k

/-- What the host sees of a command's output and report is the same in both states. -/
structure SameReport (t₁ t₂ : State) : Prop where
  outLen  : t₁.outLen = t₂.outLen
  padOut  : t₁.padOut = t₂.padOut
  errCode : t₁.status.errCode = t₂.status.errCode
  errInfo : t₁.errInfo = t₂.errInfo
  visible : ∀ k, outVisible t₁ k = outVisible t₂ k

theorem outVisible_of_outLen_le {s : State} {k : Nat} (h : s.outLen.toNat ≤ k) : outVisible s k = 0 := if_pos h

theorem outVisible_of_written {s : State} {k : Nat} {b : Byte} (h : k < s.outLen.toNat)
    (hb : Memory.read s.outBuf k = some b) : outVisible s k = b := by
  rw [outVisible, if_neg (Nat.not_le.mpr h), outByte, hb, Option.getD_some]

/-- An error of PACK shows its code and information value and no output. -/
theorem SameReport.raiseError (e : ErrKind) (info : Nat) (u₁ u₂ : State) :
    SameReport (raiseError (some .pack) e info u₁) (raiseError (some .pack) e info u₂) where
  outLen := rfl
  padOut := rfl
  errCode := rfl
  errInfo := rfl
  visible k := (outVisible_of_outLen_le (Nat.zero_le k)).trans (outVisible_of_outLen_le (Nat.zero_le k)).symm

theorem SameReport.publishPacked {d₁ d₂ : Datapath} (h : d₁.Alike d₂) (pad : Nat) (u₁ u₂ : State) :
    SameReport (complete (publishPacked pad (u₁.withDatapath d₁)))
      (complete (publishPacked pad (u₂.withDatapath d₂))) where
  outLen := congrArg (BitVec.ofNat 32) h.opos
  padOut := rfl
  errCode := rfl
  errInfo := rfl
  visible k := by
    rcases Nat.lt_or_ge k (BitVec.ofNat 32 d₁.hidden.opos).toNat with hk | hk
    · obtain ⟨b, h₁, h₂⟩ := h.out k (hk.trans_le (Nat.mod_le _ _))
      have hk₂ : k < (BitVec.ofNat 32 d₂.hidden.opos).toNat := h.opos ▸ hk
      exact (outVisible_of_written hk h₁).trans (outVisible_of_written hk₂ h₂).symm
    · have hk₂ : (BitVec.ofNat 32 d₂.hidden.opos).toNat ≤ k := h.opos ▸ hk
      exact (outVisible_of_outLen_le hk).trans (outVisible_of_outLen_le hk₂).symm

theorem SameOperands.inputBytes_eq {s₁ s₂ : State} (h : SameOperands s₁ s₂) : inputBytes s₂ = inputBytes s₁ := by
  rw [inputBytes, inputBytes, ← h.inLen]
  exact List.map_congr_left fun k hk => (h.inByte k (List.mem_range.mp hk)).symm

theorem packStart_alike (s₁ s₂ : State) : (packStart s₁).Alike (packStart s₂) :=
  ⟨rfl, rfl, fun k hk => absurd hk (Nat.not_lt_zero k)⟩

/-- The loops of PACK read the operands alone, so they end alike. -/
theorem SameOperands.finish_packBody {s₁ s₂ : State} (h : SameOperands s₁ s₂) :
    SameReport (finish .pack (packBody s₁)) (finish .pack (packBody s₂)) := by
  unfold packBody
  rw [← h.params, ← h.inLen, ← h.codes, h.inputBytes_eq]
  split
  · exact .raiseError ..
  have hloop := (packStart_alike s₁ s₂).packLoop s₁.codes s₁.params.outCap 0 (inputBytes s₁)
  generalize packLoop s₁.codes s₁.params.outCap 0 (inputBytes s₁) (packStart s₁) = e₁ at hloop ⊢
  generalize packLoop s₁.codes s₁.params.outCap 0 (inputBytes s₁) (packStart s₂) = e₂ at hloop ⊢
  cases hloop with
  | raised e info d₁ d₂ => exact .raiseError ..
  | @done d₁ d₂ hd =>
    have hflush := hd.packFlush s₁.params.outCap s₁.inLen.toNat
    dsimp only
    rw [← hd.acc]
    generalize packFlush s₁.params.outCap s₁.inLen.toNat d₁ = e₁ at hflush ⊢
    generalize packFlush s₁.params.outCap s₁.inLen.toNat d₂ = e₂ at hflush ⊢
    cases hflush with
    | raised e info d₁ d₂ => exact .raiseError ..
    | done hd => exact .publishPacked hd ..

/-- Settles O32: PACK starts from like datapaths and its loops read the operands alone, so its output and report are
alike. -/
theorem packDependsOnItsOperandsAlone : Obligations.PackDependsOnItsOperandsAlone := by
  intro s₁ s₂ t₁ t₂ hparams hcodes hlen hin h₁ h₂
  cases h₁
  cases h₂
  obtain ⟨houtLen, hpad, hcode, hinfo, hvisible⟩ := SameOperands.finish_packBody ⟨hparams, hcodes, hlen, hin⟩
  exact ⟨houtLen, hpad, hcode, hinfo, hvisible⟩

end Sys2Proof.Machine
end

section
/-! SUPPORT. Bus reads and the registers (10_state R26 to R33, 20_memory R57, R64, 70 R191): which locations read as
they are while BUSY, what a read leaves, and the words of the registers. -/

namespace Sys2Proof.Machine

/-! ### Reads while BUSY (70 R191) -/

theorem locateRegister_readableWhileBusy {n : Nat} {l : Loc} (h : locateRegister n = some l)
    (hr : l.readableWhileBusy = true) : n ∈ [0x0, 0x4, 0x20, 0x24] := by
  unfold locateRegister at h
  split at h <;> cases h
  case h_1 | h_2 | h_9 | h_10 => decide
  all_goals cases hr

theorem locateFt_readableWhileBusy (o : Nat) : (locateFt o).readableWhileBusy = false := by
  unfold locateFt
  split <;> rfl

/-- Only four registers have a defined value while BUSY (20_memory R64). -/
theorem mem_of_readableWhileBusy {p : Params} {addr : Word} {l : Loc} (h : locate p addr = some l)
    (hr : l.readableWhileBusy = true) : addr.toNat ∈ [0x0, 0x4, 0x20, 0x24] := by
  unfold locate at h
  dsimp only at h
  split at h
  · exact locateRegister_readableWhileBusy h hr
  split at h
  · obtain rfl := Option.some.inj h
    simp [locateFt_readableWhileBusy] at hr
  iterate 7
    split at h
    · cases h <;> cases hr
  cases h

/-- Settles O46: the four addresses hold locations that BusRead answers in every sequencer state, and no other mapped
address does. -/
theorem busyReadsAreFreeValues : Obligations.BusyReadsAreFreeValues := by
  intro s addr hs
  refine ⟨rfl, rfl, rfl, rfl, fun ha hmapped hne => ?_⟩
  obtain ⟨hbad, -⟩ | ⟨l, -, hl, ⟨hr | hidle, -⟩ | ⟨-, -, hread⟩⟩ := busRead_cases addr s
  · exact absurd (aligned_false_or_locate_none_iff.mp hbad) (by simp [ha, hmapped])
  · exact absurd (mem_of_readableWhileBusy hl hr) hne
  · simp [hs] at hidle
  · exact hread

/-! ### What a read leaves (20_memory R57) -/

/-- Settles O47: a bad read sets BUSERR and any other read leaves the state or counts a draw; while IDLE the second read
finds the same location. -/
theorem busReadsChangeOnlyBusErr : Obligations.BusReadsChangeOnlyBusErr := by
  intro s addr t
  obtain ⟨hbad, hread⟩ | ⟨l, ha, hl, hread⟩ := busRead_cases addr s
  · have ht : t = setBusErr s := congrArg Prod.snd hread
    rw [aligned_false_or_locate_none_iff] at hbad
    rw [ht, hread]
    exact ⟨rfl, iff_of_true rfl (.inr hbad), fun _ => rfl, fun _ => busRead_of_bad (s := setBusErr s) hbad⟩
  · have hgood : ¬ (addr.toNat % 4 ≠ 0 ∨ ¬ mappedAddr s.params addr) := by
      rw [← aligned_false_or_locate_none_iff]
      simp [ha, hl]
    obtain ⟨-, hread⟩ | ⟨-, hbusy, hread⟩ := hread
    · have ht : t = s := congrArg Prod.snd hread
      rw [ht]
      exact ⟨rfl, (or_iff_left hgood).symm, fun _ => rfl, fun _ => by rw [hread]⟩
    · have ht : t = { s with draws := s.draws + 1 } := congrArg Prod.snd hread
      rw [ht]
      exact ⟨rfl, (or_iff_left hgood).symm, fun hs => by simp [hbusy] at hs, fun hs => by simp [hbusy] at hs⟩

/-! ### The registers (10_state R26 to R33) -/

theorem getLsbD_append_ofBool_zero {n : Nat} (x : BitVec n) (b : Bool) : (x ++ BitVec.ofBool b).getLsbD 0 = b := by
  rw [BitVec.getLsbD_append]
  simp

theorem getLsbD_append_ofBool_succ {n : Nat} (x : BitVec n) (b : Bool) (i : Nat) :
    (x ++ BitVec.ofBool b).getLsbD (i + 1) = x.getLsbD i := by
  simp [BitVec.getLsbD_append]

/-- The bits of STATUS stand where R30 puts them. -/
theorem getLsbD_statusWord (st : Status) :
    (statusWord st).getLsbD 0 = st.busy ∧ (statusWord st).getLsbD 1 = st.done ∧ (statusWord st).getLsbD 2 = st.err
    ∧ (statusWord st).getLsbD 3 = st.treeValid ∧ (statusWord st).getLsbD 4 = st.codesValid
    ∧ (statusWord st).getLsbD 5 = st.wbusy ∧ (statusWord st).getLsbD 6 = st.busErr
    ∧ (statusWord st).getLsbD 7 = false := by
  have hreserved (x : BitVec 24) : (x ++ 0#1).getLsbD 0 = false := getLsbD_append_ofBool_zero x false
  simp only [statusWord, getLsbD_append_ofBool_zero, getLsbD_append_ofBool_succ, hreserved, and_self]

/-- STATUS is ERRCODE above its low byte. -/
theorem statusWord_toNat_div (st : Status) : (statusWord st).toNat / 2 ^ 8 = st.errCode.toNat := by
  have hbit (b : Bool) : (BitVec.ofBool b).toNat < 2 := (BitVec.ofBool b).isLt
  have h₀ := hbit st.busy
  have h₁ := hbit st.done
  have h₂ := hbit st.err
  have h₃ := hbit st.treeValid
  have h₄ := hbit st.codesValid
  have h₅ := hbit st.wbusy
  have h₆ := hbit st.busErr
  simp only [statusWord, toNat_append_eq_add, BitVec.toNat_ofNat]
  omega

theorem treeInfoWord_toNat (s : State) : (treeInfoWord s).toNat = s.root.toNat + s.nodeCount.toNat * 2 ^ 16 := by
  simp only [treeInfoWord, toNat_append_eq_add, BitVec.toNat_ofNat]
  omega

/-- A register reads as its location while IDLE. -/
theorem busRead_register {s : State} {n : Nat} {l : Loc} (hs : s.seq = .idle) (ha : n % 4 = 0) (hn : n < 0x800)
    (hl : locateRegister n = some l) : busRead (BitVec.ofNat 32 n) s = (locValue s l, s) := by
  have haddr : (BitVec.ofNat 32 n).toNat = n := Nat.mod_eq_of_lt (by omega)
  exact (StandsAt.register (by rwa [haddr]) (by rwa [haddr]) (by rwa [haddr])).busRead_idle hs

theorem StandsAt.inLen (p : Params) : StandsAt p 0x0000000C#32 .inLen := .register rfl (by decide) rfl

theorem StandsAt.padIn (p : Params) : StandsAt p 0x00000010#32 .padIn := .register rfl (by decide) rfl

theorem extractLsb'_zero_eight (data : Word) : data.extractLsb' 0 8 = BitVec.ofNat 8 data.toNat :=
  BitVec.eq_of_toNat_eq (by simp)

/-- Settles O48: each address holds its register's location (20_memory R46), which reads as locValue and is written as
storeAt says; STATUS and CMD do so in every sequencer state. -/
theorem registersReadAndWriteAsMapped : Obligations.RegistersReadAndWriteAsMapped := by
  refine ⟨fun s => ⟨statusWord s.status, rfl, ?_⟩, fun s data => ?_, fun s => rfl, fun s data hp hs => ?_⟩
  · obtain ⟨h₀, h₁, h₂, h₃, h₄, h₅, h₆, h₇⟩ := getLsbD_statusWord s.status
    have hdiv := statusWord_toNat_div s.status
    exact ⟨h₀, h₁, h₂, h₃, h₄, h₅, h₆, h₇, by omega, by omega⟩
  · rw [busWrite_status, Status.writeOneToClear_eq_ite]
  · have hread {n : Nat} {l : Loc} (ha : n % 4 = 0) (hn : n < 0x800) (hl : locateRegister n = some l) :=
      busRead_register hs ha hn hl
    have hin := Params.inCap_le_of_legal hp
    have hout := Params.outCap_le_of_legal hp
    refine ⟨hread (n := 0x8) rfl (by decide) rfl, hread (n := 0xC) rfl (by decide) rfl, ?_, ?_, ?_,
      hread (n := 0x14) rfl (by decide) rfl, ?_, ?_, ?_, ?_⟩
    · exact (StandsAt.inLen s.params).busWrite_idle rfl nofun hs
    · rw [hread (n := 0x10) rfl (by decide) rfl]
      exact BitVec.toNat_setWidth_of_le (by decide)
    · rw [(StandsAt.padIn s.params).busWrite_idle rfl nofun hs, storeAt, extractLsb'_zero_eight]
    · rw [hread (n := 0x18) rfl (by decide) rfl]
      exact BitVec.toNat_setWidth_of_le (by decide)
    · rw [hread (n := 0x1C) rfl (by decide) rfl]
      exact treeInfoWord_toNat s
    · rw [hread (n := 0x20) rfl (by decide) rfl]
      exact Nat.mod_eq_of_lt (by omega)
    · rw [hread (n := 0x24) rfl (by decide) rfl]
      exact Nat.mod_eq_of_lt (by omega)

end Sys2Proof.Machine
end

section
/-! SUPPORT. The two agents (70 R180): one equation per kind of step, what the host can change while a command runs
(20_memory R60), and what its pseudo-instructions do (30_encoding R77). -/

namespace Sys2Proof.Machine

/-! ### Words of commands (30_encoding R70, R71) -/

theorem commandWordLegal_encode (i : Instr) : commandWordLegal (encode i) = true := by
  cases i <;> rfl

/-- Settles O2: decode inverts encode, and of the four other words two have a reserved bit set and two an opcode that is
not assigned. -/
theorem encodedAndSpecWordsDecodeAsStated : Obligations.EncodedAndSpecWordsDecodeAsStated :=
  ⟨fun i => ⟨decode_encode i, commandWordLegal_encode i⟩, decode_encode .build, decode_encode .pack,
    decode_of_reserved (by decide), decode_of_reserved (by decide), rfl, rfl⟩

/-! ### Who moves (70 R180) -/

theorem step_of_host_turn {s : State} {turns : List Turn} (h : s.env.turns = .host :: turns) :
    step s = .next (hostStep (s.withTurns turns)) := by simp only [step, h]

theorem step_of_block_turn {s : State} {turns : List Turn} (h : s.env.turns = .block :: turns) :
    step s = blockStep (s.withTurns turns) := by simp only [step, h]

theorem step_of_reset_turn {s : State} {turns : List Turn} (h : s.env.turns = .reset :: turns) :
    step s = .next (hardReset (s.withTurns turns)) := by simp only [step, h]

theorem step_of_busy {s : State} (h : s.env.turns = []) (hs : s.seq = .busy) : step s = blockStep s := by
  simp only [step, h, hs]

theorem step_of_idle {s : State} (h : s.env.turns = []) (hs : s.seq = .idle) : step s = .next (hostStep s) := by
  simp only [step, h, hs]

theorem blockStep_of_idle {s : State} (hs : s.seq = .idle) : blockStep s = .next s := by simp only [blockStep, hs]

theorem blockStep_of_legal {s : State} {i : Instr} (hs : s.seq = .busy) (hd : decode s.cmdl = .ok i) :
    blockStep s = exec i s := by simp only [blockStep, hs, hd]

theorem hostStep_of_nil {s : State} (h : s.env.program = []) : hostStep s = s := by simp only [hostStep, h]

theorem hostStep_of_cons {s : State} {op : HostOp} {rest : List HostOp} (h : s.env.program = op :: rest) :
    hostStep s = hostAct op rest s := by simp only [hostStep, h]

theorem tableWord_toNat (w : Word) : tableWord 32 w.toNat = w := by
  rw [tableWord, Nat.mod_eq_of_lt w.isLt, BitVec.ofNat_toNat, BitVec.setWidth_eq]

/-- Settles O3: the block's turn is blockStep, which runs the decoded latch; the placed word is latched with no turn
left. -/
theorem stepRunsTheLatchedCommand : Obligations.StepRunsTheLatchedCommand := by
  refine ⟨fun s i hs hd => ⟨fun ht => ?_, fun turns ht => ?_⟩, fun s i => ?_⟩
  · rw [step_of_busy ht hs, blockStep_of_legal hs hd]
  · rw [step_of_block_turn ht, blockStep_of_legal (s := s.withTurns turns) hs hd]
  · have hd : decode (s.withFetchWord 32 (encode i).toNat).cmdl = .ok i := by
      rw [State.withFetchWord, State.withTurns_cmdl, acceptCommand_cmdl, tableWord_toNat, decode_encode]
    rw [step_of_busy rfl rfl, blockStep_of_legal rfl hd]

/-- Settles O4: the equations of step, blockStep and hostStep for an IDLE block and for the host's turn. -/
theorem idleBlockHoldsAndHostMoves : Obligations.IdleBlockHoldsAndHostMoves := by
  refine ⟨fun s turns hs ht => ?_, fun s hs ht hp => ?_, fun s turns op rest ht hp => ?_,
    fun s op rest ht hs hp => ?_⟩
  · rw [step_of_block_turn ht, blockStep_of_idle (s := s.withTurns turns) hs]
  · rw [step_of_idle ht hs, hostStep_of_nil hp]
  · rw [step_of_host_turn ht, hostStep_of_cons (s := s.withTurns turns) hp]
  · rw [step_of_idle ht hs, hostStep_of_cons hp]

/-! ### The host while a command runs (20_memory R60) -/

/-- s with everything replaced that the host can reach while BUSY. -/
def State.disturbed (s : State) (draws : Nat) (env : HostSide) (wbusy busErr : Bool) : State :=
  { s with draws := draws, env := env, status := { s.status with wbusy := wbusy, busErr := busErr } }

/-- While BUSY a host step reaches the sticky bits of STATUS and the model's own fields alone. -/
theorem hostStep_of_busy {s : State} (hs : s.seq = .busy) :
    ∃ draws env wbusy busErr, hostStep s = s.disturbed draws env wbusy busErr := by
  refine hostStep_induct (P := fun u => ∃ draws env wbusy busErr, u = s.disturbed draws env wbusy busErr) s
    ⟨_, _, _, _, rfl⟩ ?_ ?_ ?_
  · rintro addr u ⟨draws, env, wbusy, busErr, rfl⟩
    obtain ⟨-, hread⟩ | ⟨l, -, -, ⟨-, hread⟩ | ⟨-, -, hread⟩⟩ :=
      busRead_cases addr (s.disturbed draws env wbusy busErr) <;>
    · rw [hread]
      exact ⟨_, _, _, _, rfl⟩
  · rintro addr data u ⟨draws, env, wbusy, busErr, rfl⟩
    obtain ⟨-, hwrite⟩ | ⟨l, -, -, ⟨-, hwrite⟩ | ⟨-, hwrite⟩ | ⟨-, -, -, hwrite⟩ | ⟨-, -, hidle, -⟩⟩ :=
      busWrite_cases addr data (s.disturbed draws env wbusy busErr)
    iterate 4
      · rw [hwrite]
        exact ⟨_, _, _, _, rfl⟩
    cases hs.symm.trans hidle
  · rintro env u ⟨draws, env', wbusy, busErr, rfl⟩
    exact ⟨_, _, _, _, rfl⟩

/-- Settles O55: none of a command's inputs is among the fields of State.disturbed. -/
theorem hostCannotChangeARunningCommand : Obligations.HostCannotChangeARunningCommand := by
  intro s hs t
  obtain ⟨draws, env, wbusy, busErr, ht⟩ := hostStep_of_busy hs
  rw [show t = s.disturbed draws env wbusy busErr from ht]
  exact ⟨hs, rfl, rfl, rfl, rfl, fun _ => rfl, rfl, rfl, rfl, rfl, rfl, rfl⟩

/-! ### The pseudo-instructions (30_encoding R77) -/

/-- POLL reads STATUS, which is defined in every sequencer state, and looks at BUSY. -/
theorem hostAct_poll (rest : List HostOp) (s : State) :
    hostAct .poll rest s = if s.status.busy then s else setProgram rest s := by
  have hread : busRead statusAddr s = (statusWord s.status, s) := rfl
  simp only [hostAct, hread, (getLsbD_statusWord s.status).1]

theorem hostAct_expect (addr value : Word) (rest : List HostOp) (s : State) : hostAct (.expect addr value) rest s =
    setProgram rest
      { (busRead addr s).2 with
        env :=
          { (busRead addr s).2.env with
            failed := if (busRead addr s).1 = value then (busRead addr s).2.env.failed else true } } := by
  simp only [hostAct]
  split <;> rfl

/-- The host's own bookkeeping is no part of the block. -/
theorem hostAct_write (addr data : Word) (rest : List HostOp) (s : State) :
    hostAct (.write addr data) rest s = setProgram rest (busWrite addr data s) := rfl

theorem Params.inCap_mod_four_of_legal {p : Params} (h : p.legal = true) : p.inCap % 4 = 0 := by
  simp only [Params.legal, capacityLegal, Bool.and_eq_true, beq_iff_eq] at h
  exact h.1.1.1

/-- LOADFT writes both fields of one entry (20_memory R47). -/
theorem read_loadFt {s : State} (hs : s.seq = .idle) (b : Byte) (count : Word) :
    Table.read (((HostStmt.loadFt b count).expand.foldl (fun u op => hostAct op [] u) s).ft) b
      = { present := true, count := count } := by
  obtain ⟨⟨-, hcount, -, hframe⟩, -⟩ := ftWindowReadsAndWritesOneField s b count hs
  have hidle := (congrArg State.seq hframe).trans hs
  obtain ⟨-, ⟨-, hpresent, -⟩⟩ := ftWindowReadsAndWritesOneField
    (setProgram [] (busWrite (BitVec.ofNat 32 (0x0800 + 8 * b.toNat)) count s)) b 1 hidle
  refine hpresent.trans ?_
  rw [setProgram_ft, hcount]
  rfl

/-- Lane i of the word LOADIN writes at word offset j is byte 4j + i, 0 beyond the end. -/
theorem laneByte_loadInWord (bytes : List Byte) (j : Nat) {i : Nat} (hi : i < 4) :
    laneByte (loadInWord bytes j) i = bytes.getD (4 * j + i) 0 := by
  unfold loadInWord laneWord laneByte
  interval_cases i <;>
    simp (disch := omega) only [BitVec.extractLsb'_append_eq_of_le, BitVec.extractLsb'_append_eq_of_add_le,
      Nat.reduceSub, Nat.reduceMul, BitVec.extractLsb'_eq_self, Nat.add_zero]

/-- The first m words of LOADIN. -/
def loadedWords (bytes : List Byte) (m : Nat) (s : State) : State :=
  ((List.range m).map fun j => .write (HostAddr.inWord j).address (loadInWord bytes j)).foldl
    (fun u op => hostAct op [] u) s

/-- The first m words of LOADIN put the first 4m bytes in IN, with zeros beyond the end, and leave the block IDLE. -/
theorem loadedWords_spec {bytes : List Byte} {m : Nat} {s : State} (hp : s.params.legal = true) (hs : s.seq = .idle)
    (hm : 4 * m ≤ s.params.inCap) :
    (loadedWords bytes m s).seq = .idle ∧ (loadedWords bytes m s).params = s.params
      ∧ ∀ k < 4 * m, inByte (loadedWords bytes m s) k = bytes.getD k 0 := by
  induction m with
  | zero => exact ⟨hs, rfl, nofun⟩
  | succ m ih =>
    obtain ⟨hidle, hparams, hbytes⟩ := ih (by omega)
    have hcap := Params.inCap_le_of_legal hp
    have hat : StandsAt (loadedWords bytes m s).params (HostAddr.inWord m).address (.inWord (4 * m)) :=
      .inWord (Nat.mod_eq_of_lt (by omega)) (by rw [hparams]; omega)
    have hstep : loadedWords bytes (m + 1) s =
        setProgram [] (writeInWord (4 * m) (loadInWord bytes m) (loadedWords bytes m s)) := by
      rw [loadedWords, List.range_succ, List.map_append, List.foldl_append]
      exact congrArg (setProgram []) (hat.busWrite_idle rfl nofun hidle)
    refine ⟨by rw [hstep]; exact hidle, by rw [hstep]; exact hparams, fun k hk => ?_⟩
    have hread : inByte (loadedWords bytes (m + 1) s) k =
        inByte (writeInWord (4 * m) (loadInWord bytes m) (loadedWords bytes m s)) k := by
      rw [hstep]
      rfl
    rw [hread, inByte_writeInWord]
    split
    · rw [laneByte_loadInWord _ _ (by omega), Nat.add_sub_cancel' (by omega)]
    · exact hbytes k (by omega)

/-- Settles O56: POLL, RUN and EXPECT are one host action each, LOADFT two writes to the FT window and LOADIN the writes
of loadedWords and one to IN_LEN. -/
theorem pseudoInstructionsDoWhatTheyExpandTo : Obligations.PseudoInstructionsDoWhatTheyExpandTo := by
  refine ⟨fun s rest _ hb h => ?_, fun s rest hb h => ?_, fun s i rest hs h => ?_, fun s addr value rest h => ?_,
    fun s b count hs => read_loadFt hs b count, fun s bytes hp hs hlen => ?_⟩
  · rw [hostStep_of_cons h, hostAct_poll, hb]
    rfl
  · rw [hostStep_of_cons h, hostAct_poll, if_pos hb]
  · rw [hostStep_of_cons h]
    exact congrArg (setProgram _) ((StandsAt.cmd s.params).busWrite_idle rfl nofun hs)
  · rw [hostStep_of_cons h]
    exact hostAct_expect ..
  · have hcap := Params.inCap_le_of_legal hp
    have hfour := Params.inCap_mod_four_of_legal hp
    obtain ⟨hidle, hparams, hbytes⟩ :=
      loadedWords_spec (bytes := bytes) (m := (bytes.length + 3) / 4) hp hs (by omega)
    intro t
    have ht : t = setProgram []
        { loadedWords bytes ((bytes.length + 3) / 4) s with inLen := BitVec.ofNat 32 bytes.length } := by
      simp only [t, HostStmt.expand, List.foldl_append]
      exact congrArg (setProgram []) ((StandsAt.inLen _).busWrite_idle rfl nofun hidle)
    rw [ht]
    refine ⟨Nat.mod_eq_of_lt (by omega), fun k b hk => ?_⟩
    obtain ⟨hlt, rfl⟩ := List.getElem?_eq_some_iff.mp hk
    exact (hbytes k (by omega)).trans (List.getD_eq_getElem _ _ hlt)

end Sys2Proof.Machine
end

section
/-! SUPPORT. What reset and SOFT_RESET leave (10_state R42, 70 R181), the machine's invariant along every step
(10_state R20 to R41), and the steps that a running command still takes (70 R180, R196). -/

namespace Sys2Proof.Machine

/-! ### Reset (10_state R42) -/

/-- The values of R42 hold whatever stands in the fields that reset leaves open. -/
theorem resetValues_resetWith (p : Params) (done : Bool) (nodes : Table 9 Node) (inBuf outBuf : Memory) (cmdl : Word)
    (epoch draws : Nat) (env : HostSide) :
    resetValues done cmdl
      { State.resetWith p with
        status := { Status.reset with done := done }
        nodes := nodes, inBuf := inBuf, outBuf := outBuf, cmdl := cmdl
        epoch := epoch, draws := draws, env := env } :=
  ⟨Table.read_fill _, fun _ => nodeWord_of_nodeCount_le (Nat.zero_le _), rfl, rfl, Table.read_fill _, rfl, rfl,
    fun k => outVisible_of_outLen_le (Nat.zero_le k), rfl, rfl, rfl, rfl, rfl, rfl, rfl⟩

/-- Settles O5: the state after reset, hardReset and the end state of SOFT_RESET differ in the fields that
resetValues_resetWith leaves open. -/
theorem resetGivesTheStatedValues : Obligations.ResetGivesTheStatedValues := by
  refine ⟨fun p => ?_, fun s turns ht => ?_, fun s hcmdl => ?_⟩
  · exact resetValues_resetWith p false _ [] [] 0 0 0 _
  · exact ⟨_, step_of_reset_turn ht, resetValues_resetWith s.params false _ [] [] 0 _ _ _, rfl, fun _ => rfl⟩
  · refine ⟨_, exec_softReset s, ?_, rfl, rfl, fun _ => rfl, fun _ => rfl⟩
    rw [complete_softResetBody, ← hcmdl]
    exact resetValues_resetWith s.params true ..

theorem State.Inv.resetWith {p : Params} (hp : p.legal = true) : (State.resetWith p).Inv where
  params := hp
  status := ⟨iff_of_false nofun nofun, nofun, nofun, fun _ => ⟨rfl, rfl⟩, Nat.zero_le _⟩
  tree := ⟨nofun, fun _ => ⟨rfl, rfl⟩, fun i => congrArg Node.shapeOk (Table.read_fill Node.blank i),
    Table.read_fill Node.blank 511⟩
  codes := ⟨nofun, fun _ => Table.read_fill CodeEntry.clear⟩
  buffers := ⟨Memory.wf_nil, Memory.wf_nil, nofun, nofun, Nat.zero_le _, nofun⟩
  hidden := rfl

/-- Settles O57: nothing is written after reset, and 4096 is a legal capacity. -/
theorem resetMeetsTheInvariant : Obligations.ResetMeetsTheInvariant :=
  ⟨fun _ hp => .resetWith hp, .resetWith (by decide)⟩

/-! ### What a command keeps -/

/-- The invariant without the report and the hidden registers, which every ending writes. -/
structure State.Sound (s : State) : Prop where
  params  : s.params.legal = true
  tree    : treeOk s
  codes   : codesOk s
  buffers : buffersOk s

theorem State.Inv.sound {s : State} (h : s.Inv) : s.Sound := ⟨h.params, h.tree, h.codes, h.buffers⟩

theorem statusOk_complete (s : State) : statusOk (complete s) :=
  ⟨iff_of_false nofun nofun, (fun h => nomatch h.2), nofun, fun _ => ⟨rfl, rfl⟩, Nat.zero_le _⟩

theorem statusOk_raiseError (i : Option Instr) (e : ErrKind) (n : Nat) (s : State) : statusOk (raiseError i e n s) :=
  ⟨iff_of_false nofun nofun, (fun h => nomatch h.2), fun _ => ⟨rfl, e.code_range.1⟩, nofun, e.code_range.2⟩

/-- Every ending leaves a legal report and empty hidden registers. -/
theorem State.Sound.inv_of_exec {i : Instr} {s t : State} (ht : t.Sound) (h : exec i s = .next t) : t.Inv := by
  obtain ⟨body, rfl⟩ := exec_eq_finish h
  cases body with
  | done u => exact ⟨ht.params, statusOk_complete u, ht.tree, ht.codes, ht.buffers, rfl⟩
  | raised e n u => exact ⟨ht.params, statusOk_raiseError _ e n u, ht.tree, ht.codes, ht.buffers, rfl⟩

/-! ### BUILD (41_tree_builder) -/

/-- Every entry has the shape of its kind (10_state R22). -/
def ArenaShaped (nodes : Table 9 Node) : Prop := ∀ i, (Table.read nodes i).shapeOk = true

theorem ArenaShaped.write {nodes : Table 9 Node} (h : ArenaShaped nodes) (i : NodeIdx) {n : Node}
    (hn : n.shapeOk = true) : ArenaShaped (Table.write nodes i n) := fun j => by
  rw [Table.read_write]
  split
  · exact hn
  · exact h j

theorem ArenaShaped.createLeaves {nodes : Table 9 Node} (h : ArenaShaped nodes) (ft : Table 8 FtEntry) (k : Nat)
    (bs : List Byte) : ArenaShaped (createLeaves ft k bs nodes) := by
  induction bs generalizing k nodes with
  | nil => exact h
  | cons b bs ih => exact ih (h.write _ rfl) (k + 1)

theorem ArenaShaped.mergeLoop {b : Builder} (h : ArenaShaped b.nodes) (fuel : Nat) :
    ArenaShaped (mergeLoop fuel b).state.nodes := by
  refine mergeLoop_induct (P := fun b => ArenaShaped b.nodes) (fun b a _ c q hb _ _ => ?_) fuel b h
  obtain ⟨-, hm⟩ | ⟨-, hm⟩ := mergeNodes_cases b a c q <;> rw [hm]
  · exact hb
  · exact hb.write _ rfl

theorem exec_build_arenaShaped {s t : State} (hs : ArenaShaped s.nodes) (h : exec .build s = .next t) :
    ArenaShaped t.nodes := by
  match hp : presentSet s with
  | [] =>
    cases (exec_build_of_nil hp).symm.trans h
    exact hs
  | [b] =>
    cases (exec_build_of_singleton hp).symm.trans h
    exact ((hs.write 0 rfl).write 1 rfl).write 2 rfl
  | _ :: _ :: _ =>
    have hn : 2 ≤ (presentSet s).length := by simp [hp]
    have hloop : ArenaShaped _ := (hs.createLeaves s.ft 0 (presentSet s)).mergeLoop
      (b := initialBuilder (presentSet s) (invalidate s)) (presentSet s).length
    cases hl : mergeLoop (presentSet s).length (initialBuilder (presentSet s) (invalidate s)) <;> rw [hl] at hloop
    · cases (exec_build_of_done hn hl).symm.trans h
      exact hloop
    · cases (exec_build_of_raised hn hl).symm.trans h
      exact hloop

/-- No BUILD writes the last entry (10_state R21): at most 511 nodes are made. -/
theorem exec_build_read_last {s t : State} (h : exec .build s = .next t) :
    Table.read t.nodes 511 = Table.read s.nodes 511 := by
  match hp : presentSet s with
  | [] =>
    cases (exec_build_of_nil hp).symm.trans h
    rfl
  | [b] =>
    cases (exec_build_of_singleton hp).symm.trans h
    exact read_buildSingle b (invalidate s) 511
  | _ :: _ :: _ =>
    have hn : 2 ≤ (presentSet s).length := by simp [hp]
    obtain ⟨b, hexec, hinv, -⟩ | ⟨b, a, c, q, hexec, hinv, -⟩ := exec_build_ending hn <;>
    · cases hexec.symm.trans h
      exact hinv.untouched 511 (Nat.le_of_lt_succ hinv.next_lt)

/-- TREE_VALID after BUILD says that there is a byte and that the counts fit, so the tree of R40 was made. -/
theorem exec_build_treeOf {s t : State} (h : exec .build s = .next t) (ht : t.status.treeValid = true) :
    ∃ n ≤ 256, TreeOf n t := by
  have hne : presentSet s ≠ [] := fun hp => by
    cases (exec_build_of_nil hp).symm.trans h
    cases ht
  have htotal : presentTotal s ≤ 0xFFFFFFFF := by
    obtain ⟨t', h', herr, hreport⟩ := buildOverflowsExactlyAboveTheTotal s
    cases h'.symm.trans h
    by_contra hover
    obtain ⟨-, hfalse, -⟩ := hreport (herr.mpr (Nat.not_le.mp hover))
    simp [hfalse] at ht
  obtain ⟨t', h', -, htree, -⟩ := exists_exec_build hne htotal
  cases h'.symm.trans h
  exact ⟨_, presentSet_length_le s, htree⟩

theorem exec_build_no_tree {s t : State} (h : exec .build s = .next t) (ht : t.status.treeValid = false) :
    t.nodeCount = 0 ∧ t.root = 0 := by
  obtain rfl | ⟨b, rfl⟩ | ⟨b, rfl⟩ | ⟨e, info, b, rfl⟩ := exec_build_cases h
  case inl | inr.inr.inr => exact ⟨rfl, rfl⟩
  all_goals cases ht

theorem State.Sound.build {s t : State} (hs : s.Sound) (h : exec .build s = .next t) : t.Sound := by
  obtain ⟨-, -, hshape, hlast⟩ := hs.tree
  obtain ⟨hvalid, hclear⟩ := exec_build_clears_codes h
  have hframe := exec_build_frame h
  have hparams : t.params = s.params := by rw [hframe]
  refine ⟨hparams ▸ hs.params, ⟨exec_build_treeOf h, exec_build_no_tree h, exec_build_arenaShaped hshape h,
    (exec_build_read_last h).trans hlast⟩, ⟨fun hv => ?_, fun _ b => ?_⟩, ?_⟩
  · cases hvalid.symm.trans hv
  · rw [hclear, Table.read_fill]
  · rw [hframe]
    exact hs.buffers

/-! ### PACK and UNPACK (43_packer, 44_unpacker) -/

/-- OUT after a datapath that started at OPOS 0 on the OUT of s. -/
structure StoredFrom (s : State) (d : Datapath) : Prop where
  wf      : Memory.wf d.out
  inside  : ∀ c ∈ d.out, c.1 < s.params.outCap
  opos    : d.hidden.opos ≤ s.params.outCap
  written : ∀ k < d.hidden.opos, (Memory.read d.out k).isSome = true

theorem State.Sound.storedFrom {s : State} (hs : s.Sound) {d₀ d : Datapath} (h : Stores s.params.outCap d₀ d)
    (hout : d₀.out = s.outBuf) (hopos : d₀.hidden.opos = 0) : StoredFrom s d := by
  obtain ⟨-, hwf, -, hinside, -⟩ := hs.buffers
  have hle : d₀.hidden.opos ≤ s.params.outCap := by omega
  exact ⟨h.wf (hout ▸ hwf), h.inside hle (hout ▸ hinside), h.bound hle, fun k => h.written k (by omega)⟩

/-- An error of PACK or UNPACK leaves no valid output byte. -/
theorem State.Sound.raiseOutput {s : State} (hs : s.Sound) {d : Datapath} (h : StoredFrom s d) {i : Instr}
    (hi : clearsOutput (some i) = true) (e : ErrKind) (n : Nat) :
    (raiseError (some i) e n (s.withDatapath d)).Sound := by
  obtain ⟨hin, -, hinside, -⟩ := hs.buffers
  have hlen : (raiseError (some i) e n (s.withDatapath d)).outLen = 0 := if_pos hi
  refine ⟨hs.params, hs.tree, hs.codes, hin, h.wf, hinside, h.inside, ?_, ?_⟩ <;> rw [hlen]
  · exact Nat.zero_le _
  · exact fun k hk => absurd hk (Nat.not_lt_zero k)

/-- The bytes below OUT_LEN = OPOS were all written. -/
theorem State.Sound.publishOutput {s : State} (hs : s.Sound) {d : Datapath} (h : StoredFrom s d) (pad : BitVec 3) :
    (complete { s.withDatapath d with outLen := BitVec.ofNat 32 d.hidden.opos, padOut := pad }).Sound := by
  obtain ⟨hin, -, hinside, -⟩ := hs.buffers
  have hle : (BitVec.ofNat 32 d.hidden.opos).toNat ≤ d.hidden.opos := Nat.mod_le _ _
  exact ⟨hs.params, hs.tree, hs.codes, hin, h.wf, hinside, h.inside, hle.trans h.opos,
    fun k hk => h.written k (Nat.lt_of_lt_of_le hk hle)⟩

theorem State.Sound.pack {s t : State} (hs : s.Sound) (h : exec .pack s = .next t) : t.Sound := by
  have hstored {d : Datapath} (hst : Stores s.params.outCap (packStart s) d) := hs.storedFrom hst rfl rfl
  cases exec_pack_ending h with
  | inLenRange => exact hs.raiseOutput (hstored (.refl ..)) rfl _ _
  | encoding _ _ hst | outOverflow hst => exact hs.raiseOutput (hstored hst) rfl _ _
  | packed hst => exact hs.publishOutput (hstored hst) _

theorem State.Sound.unpack {s t : State} (hs : s.Sound) (h : exec .unpack s = .next t) : t.Sound := by
  have hstored {d : Datapath} (hst : Stores s.params.outCap (unpackStart s) d) := hs.storedFrom hst rfl rfl
  cases exec_unpack_ending h with
  | precheck => exact hs.raiseOutput (hstored (.refl ..)) rfl _ _
  | noCode _ _ _ _ hst | outOverflow hst => exact hs.raiseOutput (hstored hst) rfl _ _
  | unpacked hst => exact hs.publishOutput (hstored hst) _

/-! ### The other commands -/

theorem State.Sound.softReset {s t : State} (hs : s.Sound) (h : exec .softReset s = .next t) : t.Sound := by
  obtain ⟨-, -, hshape, hlast⟩ := hs.tree
  obtain ⟨hin, hout, hinside, hinside', -⟩ := hs.buffers
  cases h
  exact
    { params := hs.params
      tree := ⟨nofun, fun _ => ⟨rfl, rfl⟩, hshape, hlast⟩
      codes := ⟨nofun, fun _ => Table.read_fill CodeEntry.clear⟩
      buffers := ⟨hin, hout, hinside, hinside', Nat.zero_le _, nofun⟩ }

theorem State.Sound.codegen {s t : State} (hs : s.Sound) (h : exec .codegen s = .next t) : t.Sound := by
  rw [exec] at h
  obtain ⟨-, hc⟩ | ⟨ht, codes, hd, hc⟩ | ⟨-, -, hc⟩ := execCodegen_cases s <;> cases hc.symm.trans h
  · exact ⟨hs.params, hs.tree, hs.codes, hs.buffers⟩
  · exact ⟨hs.params, hs.tree, ⟨fun _ => ⟨ht, hd⟩, nofun⟩, hs.buffers⟩

theorem State.Sound.exec {i : Instr} {s t : State} (hs : s.Sound) (h : exec i s = .next t) : t.Sound := by
  cases i with
  | nop | ftClear =>
    cases h
    exact ⟨hs.params, hs.tree, hs.codes, hs.buffers⟩
  | softReset => exact hs.softReset h
  | build => exact hs.build h
  | codegen => exact hs.codegen h
  | pack => exact hs.pack h
  | unpack => exact hs.unpack h

/-! ### The block's step and the host's -/

theorem State.Inv.blockStep {s t : State} (hs : s.Inv) (h : blockStep s = .next t) : t.Inv := by
  obtain ⟨-, hstep⟩ | ⟨i, -, -, hstep⟩ | ⟨e, -, -, hstep⟩ := blockStep_cases s
  · cases hstep.symm.trans h
    exact hs
  · have hexec := hstep.symm.trans h
    exact (hs.sound.exec hexec).inv_of_exec hexec
  · cases hstep.symm.trans h
    exact ⟨hs.params, statusOk_raiseError .., hs.tree, hs.codes, hs.buffers, rfl⟩

section
variable {s : State} (hs : s.Inv)
include hs

theorem State.Inv.withEnv (env : HostSide) : State.Inv { s with env := env } :=
  ⟨hs.params, hs.status, hs.tree, hs.codes, hs.buffers, hs.hidden⟩

theorem State.Inv.withStickyBits (wbusy busErr : Bool) :
    State.Inv { s with status := { s.status with wbusy := wbusy, busErr := busErr } } :=
  ⟨hs.params, hs.status, hs.tree, hs.codes, hs.buffers, hs.hidden⟩

theorem State.Inv.busRead (addr : Word) : (busRead addr s).2.Inv := by
  obtain ⟨-, hread⟩ | ⟨l, -, -, ⟨-, hread⟩ | ⟨-, -, hread⟩⟩ := busRead_cases addr s <;> rw [hread]
  · exact hs.withStickyBits _ _
  · exact hs
  · exact ⟨hs.params, hs.status, hs.tree, hs.codes, hs.buffers, hs.hidden⟩

/-- A word of IN lies inside IN with its four bytes, since IN_CAP is a multiple of 4 (00_scope R5). -/
theorem State.Inv.writeInWord {off : Nat} (hoff : off % 4 = 0) (hlt : off < s.params.inCap) (data : Word) :
    (writeInWord off data s).Inv := by
  obtain ⟨hin, hout, hinside, hrest⟩ := hs.buffers
  have hfour := Params.inCap_mod_four_of_legal hs.params
  have hinside' : ∀ c ∈ (Machine.writeInWord off data s).inBuf, c.1 < s.params.inCap :=
    Memory.write_bound (Memory.write_bound (Memory.write_bound (Memory.write_bound hinside (by omega) _)
      (by omega) _) (by omega) _) (by omega) _
  exact ⟨hs.params, hs.status, hs.tree, hs.codes, ⟨writeInWord_wf hin off data, hout, hinside', hrest⟩, hs.hidden⟩

theorem State.Inv.storeAt {addr : Word} {l : Loc} (ha : addr.toNat % 4 = 0) (hl : locate s.params addr = some l)
    (data : Word) : (storeAt l data s).Inv := by
  cases l with
  | cmd =>
    have hstatus : statusOk (acceptCommand data s) :=
      ⟨iff_of_true rfl rfl, (fun h => nomatch h.1), nofun, fun _ => ⟨rfl, rfl⟩, Nat.zero_le _⟩
    exact ⟨hs.params, hstatus, hs.tree, hs.codes, hs.buffers, hs.hidden⟩
  | inWord off =>
    obtain ⟨hlt, haddr⟩ := locate_inWord hl
    exact hs.writeInWord (by omega) hlt data
  | _ => exact ⟨hs.params, hs.status, hs.tree, hs.codes, hs.buffers, hs.hidden⟩

theorem State.Inv.busWrite (addr data : Word) : (busWrite addr data s).Inv := by
  obtain ⟨-, hwrite⟩ | ⟨l, ha, hl, ⟨-, hwrite⟩ | ⟨-, hwrite⟩ | ⟨-, -, -, hwrite⟩ | ⟨-, -, -, hwrite⟩⟩ :=
    busWrite_cases addr data s <;> rw [hwrite]
  iterate 4 · exact hs.withStickyBits _ _
  exact hs.storeAt ((aligned_iff addr).mp ha) hl data

theorem State.Inv.hostStep : (hostStep s).Inv :=
  hostStep_induct s hs (fun addr _ hu => hu.busRead addr) (fun addr data _ hu => hu.busWrite addr data)
    fun env _ hu => hu.withEnv env

theorem State.Inv.hardReset : (hardReset s).Inv :=
  have h := State.Inv.resetWith hs.params
  ⟨h.params, h.status, h.tree, h.codes, h.buffers, h.hidden⟩

end

/-- Settles O58: the invariant is kept by the host's step, by the block's and by a reset. -/
theorem stepKeepsTheInvariant : Obligations.StepKeepsTheInvariant := by
  intro s t hs h
  have hturn (turns : List Turn) : (s.withTurns turns).Inv := hs.withEnv _
  obtain ⟨turns, -, hstep⟩ | ⟨turns, -, hstep⟩ | ⟨turns, -, hstep⟩ | ⟨-, -, hstep⟩ | ⟨-, -, hstep⟩ := step_cases s
  · cases hstep.symm.trans h
    exact (hturn turns).hostStep
  · exact (hturn turns).blockStep (hstep.symm.trans h)
  · cases hstep.symm.trans h
    exact (hturn turns).hardReset
  · exact hs.blockStep (hstep.symm.trans h)
  · cases hstep.symm.trans h
    exact hs.hostStep

/-! ### No step stops (40_control R91, 70 R196) -/

/-- The tree of R40 is too shallow for CODEGEN to fault, and no other command can. -/
theorem State.Inv.exists_exec {s : State} (hs : s.Inv) (i : Instr) : ∃ t, exec i s = .next t := by
  cases i with
  | codegen =>
    cases ht : s.status.treeValid with
    | false => exact ⟨_, exec_codegen_of_no_tree ht⟩
    | true =>
      obtain ⟨n, codes, -, -, hexec⟩ := hs.exec_codegen ht
      exact ⟨_, hexec⟩
  | _ => exact ⟨_, rfl⟩

theorem State.Inv.exists_blockStep {s : State} (hs : s.Inv) : ∃ t, Machine.blockStep s = .next t := by
  obtain ⟨-, hstep⟩ | ⟨i, -, -, hstep⟩ | ⟨e, -, -, hstep⟩ := blockStep_cases s
  · exact ⟨_, hstep⟩
  · obtain ⟨t, hexec⟩ := hs.exists_exec i
    exact ⟨t, hstep.trans hexec⟩
  · exact ⟨_, hstep⟩

/-- Settles O59: the host's step and a reset always answer, and the block's does by the invariant. -/
theorem stepNeverStops : Obligations.StepNeverStops := by
  intro s hs
  have hturn (turns : List Turn) : (s.withTurns turns).Inv := hs.withEnv _
  obtain ⟨turns, -, hstep⟩ | ⟨turns, -, hstep⟩ | ⟨turns, -, hstep⟩ | ⟨-, -, hstep⟩ | ⟨-, -, hstep⟩ :=
    step_cases s <;> rw [hstep]
  · exact ⟨_, rfl⟩
  · exact (hturn turns).exists_blockStep
  · exact ⟨_, rfl⟩
  · exact hs.exists_blockStep
  · exact ⟨_, rfl⟩

/-! ### A running command completes (70 R180, R196) -/

theorem busRead_env (addr : Word) (s : State) : (busRead addr s).2.env = s.env := by
  obtain ⟨-, hread⟩ | ⟨l, -, -, ⟨-, hread⟩ | ⟨-, -, hread⟩⟩ := busRead_cases addr s <;> rw [hread]
  rfl

theorem busWrite_env (addr data : Word) (s : State) : (busWrite addr data s).env = s.env := by
  rw [busWrite_frame]
  rfl

/-- The host does not touch the list of turns. -/
theorem hostStep_turns (s : State) : (hostStep s).env.turns = s.env.turns := by
  cases hp : s.env.program with
  | nil => rw [hostStep_of_nil hp]
  | cons op rest =>
    rw [hostStep_of_cons hp]
    cases op with
    | write addr data => rw [hostAct_write, setProgram_env, busWrite_env]
    | read addr => simp only [hostAct, setProgram_env, recordReply_env, busRead_env]
    | expect addr value => simp only [hostAct_expect, setProgram_env, busRead_env]
    | poll =>
      rw [hostAct_poll]
      split <;> rfl
    | copy addr n =>
      simp only [hostAct, copyReply, setProgram_env]
      split
      · rw [busWrite_env]
      · rfl

/-- The block's turn on a running command ends it, whatever the word. -/
theorem blockStep_completes {s t : State} (hs : s.seq = .busy) (h : blockStep s = .next t) :
    t.seq = .idle ∧ t.status.done = true := by
  obtain ⟨hidle, -⟩ | ⟨i, -, -, hstep⟩ | ⟨e, -, -, hstep⟩ := blockStep_cases s
  · cases hs.symm.trans hidle
  · obtain ⟨hidle, -, hdone, -⟩ := exec_report (hstep.symm.trans h)
    exact ⟨hidle, hdone⟩
  · cases hstep.symm.trans h
    exact ⟨rfl, rfl⟩

theorem run_succ_of_step {M : Host.Core} {s s' : M.State} (h : M.step s = .next s') (k : Nat) :
    M.run (k + 1) s = M.run k s' := by
  simp only [Host.Core.run, h]

/-- Settles O60: by induction on n; a host turn keeps the invariant, SEQ and CMDL, and with no turn left the block
moves. -/
theorem busyCommandCompletesAfterHostTurns : Obligations.BusyCommandCompletesAfterHostTurns := by
  intro s n hs hbusy hturns
  induction n generalizing s with
  | zero =>
    obtain ⟨t, ht⟩ := hs.exists_blockStep
    obtain ⟨hidle, hdone⟩ := blockStep_completes hbusy ht
    have hstep := (step_of_busy hturns hbusy).trans ht
    exact ⟨s, t, rfl, hbusy, rfl, run_succ_of_step (M := Sys2Proof.core) hstep 0, ht, hidle, hdone⟩
  | succ n ih =>
    have hstep := step_of_host_turn hturns
    have hs' := stepKeepsTheInvariant s _ hs hstep
    obtain ⟨hbusy', hcmdl, -⟩ := hostCannotChangeARunningCommand (s.withTurns (List.replicate n .host)) hbusy
    obtain ⟨u, t, hrun, hu, hlatch, hrun', hend⟩ := ih _ hs' hbusy' (hostStep_turns _)
    exact ⟨u, t, (run_succ_of_step (M := Sys2Proof.core) hstep n).trans hrun, hu, hlatch.trans hcmdl,
      (run_succ_of_step (M := Sys2Proof.core) hstep (n + 1)).trans hrun', hend⟩

end Sys2Proof.Machine
end
